-- ==== Sys2Proof/Word.lean ====
section
/-! DEFINITION. The words the block is built from: the byte, the command word, and the binary64 datum.

`F64` names an IEEE 754 binary64 value as the spec uses it (00_scope.md R10, 30_encoding.md R73): every
finite value by its three bit fields, the two infinities, and ONE not-a-number. A finite value has exactly
one such form, so equal values (but for the two zeros, which are two data) are equal terms. No rule reads
the sign or the payload of a NaN, and no port shows it, so the model does not name it
(DESIGN CHOICE, safe, notes/assumptions/4.md). The arithmetic stands in Machine/Float64.lean. -/

namespace Sys2Proof

/-- One byte of a payload, of the input buffer or of a message. -/
abbrev Byte := BitVec 8

/-- A 32-bit command word `W` (30_encoding.md R68), and the 32-bit status word. -/
abbrev Word := BitVec 32

/-- A binary64 datum. `fin neg exp frac` is the finite value whose sign bit is `neg`, whose biased
exponent field is `exp` (0 to 2046; 0 is zero or subnormal) and whose fraction field is `frac`. -/
inductive F64 where
  | fin (neg : Bool) (exp : Fin 2047) (frac : BitVec 52)
  | inf (neg : Bool)
  | nan
  deriving DecidableEq, Repr

/-- `+0.0`, "the positive zero" of 00_scope.md R10. -/
def F64.posZero : F64 := .fin false 0 0

end Sys2Proof
end

