-- ==== Sys2Proof/Syntax.lean ====
section
/-! DEFINITION. The block's "instructions": the seven commands of 30_encoding.md R70 and the two output
message shapes of R81 and R82, one constructor per row of the opcode table, with their encoded forms. -/

namespace Sys2Proof

/-- One constructor per row of the opcode table. A command carries its decoded operands; a message carries
the three wire fields of 30_encoding.md R86. -/
inductive Instr where
  /-- RESET (45_host_commands.md R176). -/
  | reset
  /-- CFG_WRITE (R178): the register address `ADDR` and the 64-bit `DATA` of its payload (R72). -/
  | cfgWrite (addr : BitVec 12) (data : BitVec 64)
  /-- START (R179). -/
  | start
  /-- BUFFER (R181): its payload, the interleaved samples of one buffer. -/
  | buffer (payload : List Byte)
  /-- STOP (R182). -/
  | stop
  /-- SOURCE_FAIL (R184). -/
  | sourceFail
  /-- STATUS_READ (R183). -/
  | statusRead
  /-- NON, the message of `noteOn` (43_scheduler.md R150): protocol channel, note, wire velocity. -/
  | non (ch : BitVec 4) (note : BitVec 7) (vel : BitVec 7)
  /-- NOFF, the message of `noteOff` (R151): protocol channel, note. -/
  | noff (ch : BitVec 4) (note : BitVec 7)
  deriving DecidableEq, Repr

/-- One transaction of the command port (R68): a command word and its payload, delivered together. -/
structure Command where
  word : Word
  payload : List Byte
  deriving DecidableEq, Repr

/-- The two encoded forms of the opcode table: format CMD32, a command transaction, and format MSG, the
24-bit value `b0 << 16 | b1 << 8 | b2` of a message (R87). -/
inductive Encoded where
  | command (c : Command)
  | message (w : BitVec 24)
  deriving DecidableEq, Repr

/-- Why the decoder rejects a form. The first four are the cases of 30_encoding.md R76; the last is a
24-bit value that is neither message shape of R81 and R82. -/
inductive Illegal where
  /-- `OP` is 0x0 or in 0x8 to 0xF. -/
  | reservedOp
  /-- `RSV != 0`. -/
  | reservedBits
  /-- `ADDR != 0` outside CFG_WRITE. -/
  | addrNotZero
  /-- A payload of the wrong length for a fixed-length command. -/
  | payloadLength
  /-- Fewer bytes than a command word has. -/
  | noCommandWord
  /-- Not a message of the block. -/
  | notAMessage
  deriving DecidableEq, Repr

end Sys2Proof
end

