-- ==== Sys2Proof/WellFormed.lean ====
section
/-! DEFINITION. Which instructions are the reading of an encoded form. Every operand of every command is
encodable at every value. A note-on whose wire velocity is 0 is not: "On the wire, a note-on whose velocity
value is a multiple of 128 is identical to a note-off" (30_encoding.md R83), and the decoder reads those
bytes as the note-off (DEDUCED, safe, notes/assumptions/3.md). -/

namespace Sys2Proof

/-- The instruction is the one its encoded form decodes to. -/
def WellFormed : Instr → Bool
  | .reset => true
  | .cfgWrite _ _ => true
  | .start => true
  | .buffer _ => true
  | .stop => true
  | .sourceFail => true
  | .statusRead => true
  | .non _ _ vel => vel != 0
  | .noff _ _ => true

end Sys2Proof
end

