-- ==== Sys2Proof/Decode.lean ====
section
/-! DEFINITION. Decoding and encoding of the command word, its payload and the two message shapes
(30_encoding.md R68 to R83). The decoder is total: any word with any payload is an instruction or is
rejected by name. -/

namespace Sys2Proof

/-- `W[31:28]`, the opcode (R69). -/
def opField (w : Word) : BitVec 4 := w.extractLsb' 28 4

/-- `W[27:12]`, reserved, must be 0 (R69). -/
def rsvField (w : Word) : BitVec 16 := w.extractLsb' 12 16

/-- `W[11:0]`, the configuration register address (R69). -/
def addrField (w : Word) : BitVec 12 := w.extractLsb' 0 12

/-- A command word from its opcode and address, `RSV` 0 (R69). -/
def mkWord (op : BitVec 4) (addr : BitVec 12) : Word := op ++ 0#16 ++ addr

/-- A command with neither address nor payload (R71, R76). -/
def decodeBare (c : Command) (i : Instr) : Except Illegal Instr :=
  if addrField c.word ≠ 0 then .error .addrNotZero
  else if c.payload ≠ [] then .error .payloadLength
  else .ok i

/-- CFG_WRITE carries exactly 8 bytes, read little-endian: `DATA = {p[7], …, p[0]}` (R71, R72). -/
def decodeCfgWrite (c : Command) : Except Illegal Instr :=
  match c.payload with
  | [p0, p1, p2, p3, p4, p5, p6, p7] =>
    .ok (.cfgWrite (addrField c.word) (p7 ++ p6 ++ p5 ++ p4 ++ p3 ++ p2 ++ p1 ++ p0))
  | _ => .error .payloadLength

/-- BUFFER carries its samples; their number is checked by the command itself (R71, R76). -/
def decodeBuffer (c : Command) : Except Illegal Instr :=
  if addrField c.word ≠ 0 then .error .addrNotZero else .ok (.buffer c.payload)

/-- The command a transaction stands for, or why it is an illegal command (R70, R76). -/
def decodeCommand (c : Command) : Except Illegal Instr :=
  if rsvField c.word ≠ 0 then .error .reservedBits
  else
    match (opField c.word).toNat with
    | 1 => decodeBare c .reset
    | 2 => decodeCfgWrite c
    | 3 => decodeBare c .start
    | 4 => decodeBuffer c
    | 5 => decodeBare c .stop
    | 6 => decodeBare c .sourceFail
    | 7 => decodeBare c .statusRead
    | _ => .error .reservedOp

/-- The message a 24-bit value `b0 << 16 | b1 << 8 | b2` is (R81, R82, R87). A velocity byte of 0 is read
as the note-off, the more specific row (R83; DEDUCED, safe, notes/assumptions/3.md). -/
def decodeMessage (w : BitVec 24) : Except Illegal Instr :=
  if w.extractLsb' 20 4 ≠ 9 ∨ w.extractLsb' 15 1 ≠ 0 ∨ w.extractLsb' 7 1 ≠ 0 then .error .notAMessage
  else if w.extractLsb' 0 7 = 0 then .ok (.noff (w.extractLsb' 16 4) (w.extractLsb' 8 7))
  else .ok (.non (w.extractLsb' 16 4) (w.extractLsb' 8 7) (w.extractLsb' 0 7))

/-- The decoder, over both encoded forms. -/
def decode : Encoded → Except Illegal Instr
  | .command c => decodeCommand c
  | .message w => decodeMessage w

/-- A command with neither address nor payload. -/
def encodeBare (op : BitVec 4) : Encoded := .command ⟨mkWord op 0, []⟩

/-- The 8 payload bytes of CFG_WRITE, the least significant first (R72). -/
def dataBytes (d : BitVec 64) : List Byte :=
  [d.extractLsb' 0 8, d.extractLsb' 8 8, d.extractLsb' 16 8, d.extractLsb' 24 8,
   d.extractLsb' 32 8, d.extractLsb' 40 8, d.extractLsb' 48 8, d.extractLsb' 56 8]

/-- The encoder, from the same tables (R70, R72, R81, R82). -/
def encode : Instr → Encoded
  | .reset => encodeBare 1
  | .cfgWrite addr data => .command ⟨mkWord 2 addr, dataBytes data⟩
  | .start => encodeBare 3
  | .buffer payload => .command ⟨mkWord 4 0, payload⟩
  | .stop => encodeBare 5
  | .sourceFail => encodeBare 6
  | .statusRead => encodeBare 7
  | .non ch note vel => .message (9#4 ++ ch ++ 0#1 ++ note ++ 0#1 ++ vel)
  | .noff ch note => .message (9#4 ++ ch ++ 0#1 ++ note ++ 0#8)

/-- A command written as bytes: the word little-endian (R68), then the payload. -/
def commandBytes (c : Command) : List Byte :=
  [c.word.extractLsb' 0 8, c.word.extractLsb' 8 8, c.word.extractLsb' 16 8, c.word.extractLsb' 24 8]
    ++ c.payload

/-- The command written by a string of bytes (R68), where there are enough for a command word. -/
def commandOfBytes : List Byte → Except Illegal Command
  | b0 :: b1 :: b2 :: b3 :: payload => .ok ⟨b3 ++ b2 ++ b1 ++ b0, payload⟩
  | _ => .error .noCommandWord

/-- The `n` bytes of `w`, the least significant first. -/
def bytesOfNat : Nat → Nat → List Byte
  | 0, _ => []
  | n + 1, w => BitVec.ofNat 8 w :: bytesOfNat n (w / 256)

/-- How many bytes a command of `nbits` table bits has: CFG_WRITE has 8 payload bytes, which the table
counts no bits for; any other command has what `nbits` holds. -/
def tableBytes (nbits w : Nat) : Nat :=
  if w / 2 ^ 28 % 16 = 2 then 12 else nbits / 8

/-- The encoded form whose bits are `w`, numbered as the opcode table numbers them: a row of 24 bits is a
message, a row of 32 bits or more a command word and its payload. -/
def encodedOfTableWord (nbits w : Nat) : Except Illegal Encoded :=
  if nbits = 24 then .ok (.message (BitVec.ofNat 24 w))
  else
    match commandOfBytes (bytesOfNat (tableBytes nbits (w % 2 ^ nbits)) (w % 2 ^ nbits)) with
    | .ok c => .ok (.command c)
    | .error e => .error e

/-- The instruction the decoder reads from an instruction whose bits are `w`. That the payload's bytes follow
the word's is DEDUCED (safe, notes/assumptions/14.md). -/
def decodeTableWord (nbits w : Nat) : Option Instr :=
  match encodedOfTableWord nbits w with
  | .ok x => (decode x).toOption
  | .error _ => none

end Sys2Proof
end

