-- ==== Sys2Proof/Config.lean ====
section
/-! DEFINITION. The implementation parameters of 00_scope.md R7.

`CMAX` and `NMAX` are OPEN: the spec gives their ranges and no value. The model takes them as an argument
in the only place `step : State → …` leaves for one, the state itself: `CMAX` is the number of channel
records the state holds and `NMAX` is a field of it, and no step changes either. A claim about every state
is therefore a claim about every `CMAX` and `NMAX`. The reset state needs one value of each; it takes those
of 95_test_vectors.md section 3 (DESIGN CHOICE, notes/assumptions/1.md). -/

namespace Sys2Proof.Config

/-- The largest `CMAX` the register map has room for (R7). -/
def cmaxLimit : Nat := 240

/-- The largest `NMAX` (R7). -/
def nmaxLimit : Nat := 2 ^ 24

/-- DESIGN CHOICE: the `CMAX` of `State.reset`, as 95_test_vectors.md section 3 takes it. -/
def cmaxReset : Nat := 16

/-- DESIGN CHOICE: the `NMAX` of `State.reset`, as 95_test_vectors.md section 3 takes it. -/
def nmaxReset : Nat := 4096

/-- The values R7 allows the two OPEN parameters. -/
def legalParams (cmax nmax : Nat) : Prop :=
  1 ≤ cmax ∧ cmax ≤ cmaxLimit ∧ 1 ≤ nmax ∧ nmax ≤ nmaxLimit

end Sys2Proof.Config
end

