-- ==== Sys2Proof/Machine/State.lean ====
section
/-! DEFINITION. The state of the block (10_state.md), as plain data, and the state after reset
(70_reset_and_hazards.md R225 to R227). -/

namespace Sys2Proof.Machine

/-- `MODE` (10_state.md R19). -/
inductive Mode where
  /-- 0: registers may be written; no buffer is accepted. -/
  | config
  /-- 1: a run is in progress. -/
  | running
  /-- 2: the run ended by STOP. -/
  | stopped
  /-- 3: a fault was recorded in `ERR`. -/
  | error
  deriving DecidableEq, Repr

/-- Strategy B's `phase` (R44): IDLE = 0, PEAK = 1, WAIT = 2. The value 3 is unreachable and is no value
of this type (DEDUCED, safe, notes/assumptions/12.md). -/
inductive Phase where
  | idle
  | peak
  | wait
  deriving DecidableEq, Repr

/-- The global configuration registers (R22). -/
structure GlobalCfg where
  /-- `STRATEGY`: 0 = A, 1 = B (R23). -/
  strategy : BitVec 1
  /-- `FORMAT`: 0 = S16_LE, 1 = S24_3LE (R24). -/
  format : BitVec 1
  /-- `NCH`, the channel count (R25). -/
  nch : BitVec 8
  /-- `BUF_FRAMES`, the frames per buffer `N` (R26). -/
  bufFrames : BitVec 32
  deriving DecidableEq, Repr

/-- The configuration registers of one channel (R22). -/
structure ChanCfg where
  /-- `TRIG`, the trigger level (R27). -/
  trig : BitVec 24
  /-- `DECAY`, a binary64 pattern (R28). -/
  decay : BitVec 64
  /-- `GUARD`, a binary64 pattern (R29). -/
  guardF : BitVec 64
  /-- `PEAK_LEN` (R30). -/
  peakLen : BitVec 32
  /-- `WAIT_LEN` (R31). -/
  waitLen : BitVec 32
  /-- `A_WAIT_BUFS` (R32). -/
  aWaitBufs : BitVec 32
  /-- `NOFF_DELAY` (R33). -/
  noffDelay : BitVec 32
  /-- `MIDI_CH` (R34). -/
  midiCh : BitVec 8
  /-- `NOTE` (R35). -/
  note : BitVec 8
  /-- `FLAGS`: bit 0 `FAST`, bit 1 `FORCE` (R36). -/
  flags : BitVec 2
  deriving DecidableEq, Repr

/-- The state record `st[c]` of one channel (R38). -/
structure ChanState where
  /-- Note-off delay remaining, in buffers; 0 = none pending (R47). -/
  noff : BitVec 32
  /-- Strategy A is in its rising phase (R39). -/
  rising : Bool
  /-- The diagnostic rising count (R43). -/
  riseCount : BitVec 32
  /-- Strategy A's wait countdown, in buffers (R38). -/
  wait : BitVec 32
  /-- Strategy A's envelope (R41). -/
  env : F64
  /-- The previous buffer's peak (R42). -/
  prev : BitVec 24
  /-- The peak of the buffer before that (R42). -/
  prev2 : BitVec 24
  /-- Strategy B's phase (R44). -/
  phase : Phase
  /-- Strategy B's frame countdown, signed (R45). -/
  cd : BitVec 32
  /-- Strategy B's peak accumulator (R46). -/
  acc : BitVec 24
  deriving DecidableEq, Repr

/-- One channel: `cfg[c]` and `st[c]`. -/
structure Channel where
  cfg : ChanCfg
  st : ChanState
  deriving DecidableEq, Repr

/-- One message of the output stream: three bytes, in the order sent (20_memory.md R57). -/
structure Msg where
  b0 : Byte
  b1 : Byte
  b2 : Byte
  deriving DecidableEq, Repr

/-- The four global registers of the configuration map (R22). -/
inductive GReg where
  | strategy
  | format
  | nch
  | bufFrames
  deriving DecidableEq, Repr

/-- The ten registers of a channel, in the order of their offsets 0 to 9 (R22, 30_encoding.md R74). -/
inductive CReg where
  | trig
  | decay
  | guardF
  | peakLen
  | waitLen
  | aWaitBufs
  | noffDelay
  | midiCh
  | note
  | flags
  deriving DecidableEq, Repr

/-- A register an address selects (R74). -/
inductive Reg where
  | glob (r : GReg)
  | chan (c : Nat) (k : CReg)
  deriving DecidableEq, Repr

/-- The state of the block and of its ports.

`mode`, `err`, `glob` and `bank` are the architectural state of R16 (`bank` holds `cfg[c]` and `st[c]`
for `c` in `0 .. CMAX-1`; its length is `CMAX`). `nmax` is the parameter `NMAX` (00_scope.md R7). `out` and
`resp` are what the block has written to its output stream and its response port; the block never reads
them. `port` and `emitSlot` are the MODEL's own: what stands before the block to be taken by the next
steps. `port` is the commands that have arrived on the command port and are not yet processed, oldest
first; `emitSlot` is a message handed to `Emit` from outside a command, none in every run of the block
(DESIGN CHOICE, notes/assumptions/2.md and 7.md). -/
structure State where
  /-- `MODE` (R19). -/
  mode : Mode
  /-- `ERR`, the first fault's code (R20). -/
  err : BitVec 8
  /-- The global configuration registers (R22). -/
  glob : GlobalCfg
  /-- The channels `0 .. CMAX-1`. -/
  bank : List Channel
  /-- The parameter `NMAX`. -/
  nmax : Nat
  /-- The output stream, oldest message first (20_memory.md R57). -/
  out : List Msg
  /-- The words answered on the response port, oldest first (30_encoding.md R75). -/
  resp : List Word
  /-- The command port: transactions not yet processed, oldest first. -/
  port : List Command
  /-- A message offered to the output stream by itself. -/
  emitSlot : Option (BitVec 24)
  deriving DecidableEq, Repr

/-- Why a step stops the machine. Every fault of the SPEC is a next state in ERROR mode
(60_exceptions.md R205), so this type is not about those. -/
inductive Fault where
  /-- `emitSlot` holds a 24-bit value that is neither message shape. Raised by `executeMessage` only; no
  command and no run of the block brings it about ("The block never emits status 0x8n or any other
  status", 30_encoding.md R82). Safe: the model stops where the spec has no behaviour. -/
  | notAMessage
  deriving DecidableEq, Repr

/-- Why a step has no meaning. -/
inductive Refusal where
  /-- An instruction without a meaning yet. Raised by an arm of `exec` only, and by none now. Safe. -/
  | notModelled (mnemonic : String)
  deriving DecidableEq, Repr

/-- Every global register 0 (R22). -/
def GlobalCfg.zero : GlobalCfg := ⟨0, 0, 0, 0⟩

/-- Every register of a channel 0, the binary64 registers the pattern of +0.0 (R22). -/
def ChanCfg.zero : ChanCfg := ⟨0, 0, 0, 0, 0, 0, 0, 0, 0, 0⟩

/-- The channel-state baseline (70_reset_and_hazards.md R225). -/
def ChanState.baseline : ChanState :=
  { noff := 0, rising := false, riseCount := 0, wait := 0, env := F64.posZero, prev := 0, prev2 := 0,
    phase := .idle, cd := 0, acc := 0 }

/-- A channel after reset. -/
def Channel.zero : Channel := ⟨ChanCfg.zero, ChanState.baseline⟩

/-- The machine after reset (R226), for given parameters `CMAX` and `NMAX`; nothing has arrived, nothing
has been sent. -/
def State.resetWith (cmax nmax : Nat) : State :=
  { mode := .config, err := 0, glob := GlobalCfg.zero, bank := List.replicate cmax Channel.zero,
    nmax := nmax, out := [], resp := [], port := [], emitSlot := none }

/-- The machine after reset, at the parameters of 95_test_vectors.md section 3. -/
def State.reset : State := State.resetWith Config.cmaxReset Config.nmaxReset

end Sys2Proof.Machine
end

