-- ==== Sys2Proof/Machine/Ops.lean ====
section
/-! DEFINITION. The named operations every meaning is written over: the reads of the input buffer and of the
channel bank, the updates of the state, and the block's one exception mechanism, `raise Error(n)`
(60_exceptions.md R205). The return from an exception is RESET (R208): `State.clear` beside it. -/

namespace Sys2Proof.Machine

/-- One byte of the current input buffer, the unit of `MemRead(a, n)` (00_scope.md R11). Every offset a
rule reads lies inside the buffer (20_memory.md R65); 0 outside it (DESIGN CHOICE, safe in every run,
notes/assumptions/8.md). -/
def byteAt (buf : List Byte) (a : Nat) : Byte := buf.getD a 0

/-- `S(FORMAT)`: 2 bytes per sample for S16_LE, 3 for S24_3LE (00_scope.md R7). -/
def sampleBytes (fmt : BitVec 1) : Nat := if fmt = 0 then 2 else 3

/-- `MAX(FORMAT)` (R7). -/
def maxMag (fmt : BitVec 1) : Nat := if fmt = 0 then 0x7FFF else 0x7FFFFF

/-- The payload length BUFFER must have: `BUF_FRAMES * NCH * S` bytes (30_encoding.md R71). -/
def bufferBytes (g : GlobalCfg) : Nat := g.bufFrames.toNat * g.nch.toNat * sampleBytes g.format

/-- The parameter `CMAX` (00_scope.md R7): how many channels the block has. -/
def State.cmax (s : State) : Nat := s.bank.length

/-- `cfg[c]`; the reset registers for a channel the block does not have, which no rule reads. -/
def State.chanCfg (s : State) (c : Nat) : ChanCfg := (s.bank.getD c Channel.zero).cfg

/-- `st[c]`; the baseline for a channel the block does not have, which no rule reads. -/
def State.chanState (s : State) (c : Nat) : ChanState := (s.bank.getD c Channel.zero).st

/-- `MODE <- m`. -/
def State.setMode (s : State) (m : Mode) : State := { s with mode := m }

/-- Writes a global register. -/
def State.setGlob (s : State) (g : GlobalCfg) : State := { s with glob := g }

/-- Writes `cfg[c]`. -/
def State.setChanCfg (s : State) (c : Nat) (k : ChanCfg) : State :=
  { s with bank := s.bank.modify c (fun ch => { ch with cfg := k }) }

/-- Writes `st[c]`. -/
def State.setChanState (s : State) (c : Nat) (st : ChanState) : State :=
  { s with bank := s.bank.modify c (fun ch => { ch with st := st }) }

/-- Appends messages to the output stream, whole and in order (20_memory.md R57). -/
def State.emit (s : State) (ms : List Msg) : State := { s with out := s.out ++ ms }

/-- Answers one word on the response port (30_encoding.md R75). -/
def State.respond (s : State) (w : Word) : State := { s with resp := s.resp ++ [w] }

/-- `for c in 0 .. CMAX-1: st[c] <- baseline` (70_reset_and_hazards.md R225). -/
def State.baselineAll (s : State) : State :=
  { s with bank := s.bank.map (fun ch => { ch with st := ChanState.baseline }) }

/-- Every register and every channel record at its reset value, `MODE <- CONFIG`, `ERR <- 0`
(45_host_commands.md R176, 70_reset_and_hazards.md R226). The output stream keeps what was sent ("No
message is removed or rewritten once appended", 20_memory.md R57). -/
def State.clear (s : State) : State :=
  { s with mode := .config, err := 0, glob := GlobalCfg.zero,
           bank := s.bank.map (fun _ => Channel.zero) }

/-- `raise Error(n)` (60_exceptions.md R205): the first fault is recorded, nothing else changes, and the
rest of the command is abandoned. In ERROR it records nothing (R207). -/
def State.raise (s : State) (n : BitVec 8) : State :=
  if s.mode = .error then s else { s with mode := .error, err := n }

/-- Takes the oldest command off the command port. -/
def State.popCommand (s : State) : State := { s with port := s.port.tail }

/-- Takes the offered message. -/
def State.takeMessage (s : State) : State := { s with emitSlot := none }

/-- What the step takes next: an offered message, else the oldest command of the port, else nothing (DESIGN
CHOICE, unsafe where a message is offered, notes/assumptions/2.md). -/
def State.fetch (s : State) : Option Encoded :=
  match s.emitSlot with
  | some w => some (.message w)
  | none => s.port.head?.map Encoded.command

/-- The state with an encoded form placed where `State.fetch` finds it next. -/
def State.offer (s : State) : Encoded → State
  | .command c => { s with emitSlot := none, port := c :: s.port }
  | .message w => { s with emitSlot := some w }

end Sys2Proof.Machine
end

