-- ==== Sys2Proof/Machine/Flags.lean ====
section
/-! DEFINITION. The block has no condition codes (10_state.md R39). Its flags are the two of `FLAGS`
(R36), strategy A's derived phase (R40), and the fields of the status word (R21). -/

namespace Sys2Proof.Machine

/-- `FAST`, `FLAGS[0]` (R36). -/
def ChanCfg.fast (k : ChanCfg) : Bool := k.flags.getLsbD 0

/-- `FORCE`, `FLAGS[1]` (R36). -/
def ChanCfg.force (k : ChanCfg) : Bool := k.flags.getLsbD 1

/-- The 2-bit code of `MODE` (R19). -/
def Mode.code : Mode → BitVec 2
  | .config => 0
  | .running => 1
  | .stopped => 2
  | .error => 3

/-- The status word: `STATUS[1:0] = MODE`, `STATUS[15:8] = ERR`, every other bit 0 (R21). -/
def State.status (s : State) : Word := 0#16 ++ s.err ++ 0#6 ++ s.mode.code

/-- Strategy A's phase RISING, and its phase WAITING; IDLE is neither (R40). -/
def ChanState.isWaiting (st : ChanState) : Bool := !st.rising && st.wait != 0

end Sys2Proof.Machine
end

