-- ==== Sys2Proof/Machine/Float64.lean ====
section
/-! DEFINITION. IEEE 754 binary64 arithmetic as 00_scope.md R10 uses it: `f64`, `fmul`, `fadd`, rounded to
nearest with ties to even, and the comparison `<`. Every finite binary64 value is a whole number of units
of 2^-1074, so each operation computes its exact result in such units and rounds once. -/

namespace Sys2Proof

/-- The magnitude of a finite value, in units of 2^-1074. -/
def F64.units (exp : Fin 2047) (frac : BitVec 52) : Nat :=
  if exp.val = 0 then frac.toNat else (2 ^ 52 + frac.toNat) * 2 ^ (exp.val - 1)

/-- A magnitude with its sign. -/
def F64.signed (neg : Bool) (n : Nat) : Int := if neg then -(n : Int) else n

/-- `n / 2^d` to the nearest whole number, a tie to the even one. -/
def F64.nearestEven (n d : Nat) : Nat :=
  if 2 * (n % 2 ^ d) < 2 ^ d ∨ (2 * (n % 2 ^ d) = 2 ^ d ∧ n / 2 ^ d % 2 = 0) then n / 2 ^ d
  else n / 2 ^ d + 1

/-- How many low bits of the quotient `n / 2^d` a 53-bit significand has no room for. -/
def F64.dropped (n d : Nat) : Nat := Nat.log2 n - d - 52

/-- The datum whose exponent and fraction fields, read as one number, are `enc`; beyond the largest finite
one, the infinity. -/
def F64.ofFields (neg : Bool) (enc : Nat) : F64 :=
  if h : enc / 2 ^ 52 < 2047 then .fin neg ⟨enc / 2 ^ 52, h⟩ (BitVec.ofNat 52 enc) else .inf neg

/-- The binary64 nearest to `n / 2^d` units of 2^-1074, ties to even (R10). A significand that rounds up
to 2^53 carries into the exponent field by itself. -/
def F64.round (neg : Bool) (n d : Nat) : F64 :=
  F64.ofFields neg (2 ^ 52 * F64.dropped n d + F64.nearestEven n (d + F64.dropped n d))

/-- `f64(n)`: an integer converted to binary64 (R10). -/
def f64 (n : Int) : F64 := F64.round (decide (n < 0)) (2 ^ 1074 * n.natAbs) 0

/-- `fmul(a, b)` (R10). -/
def fmul : F64 → F64 → F64
  | .fin n1 e1 f1, .fin n2 e2 f2 => F64.round (n1 != n2) (F64.units e1 f1 * F64.units e2 f2) 1074
  | .fin n1 e1 f1, .inf n2 => if F64.units e1 f1 = 0 then .nan else .inf (n1 != n2)
  | .inf n1, .fin n2 e2 f2 => if F64.units e2 f2 = 0 then .nan else .inf (n1 != n2)
  | .inf n1, .inf n2 => .inf (n1 != n2)
  | .nan, _ => .nan
  | _, .nan => .nan

/-- The sum of two finite values from its exact value in units; an exact zero sum is +0.0 but for
`-0.0 + -0.0`. -/
def F64.ofSum (bothNeg : Bool) (sum : Int) : F64 :=
  if sum = 0 then .fin bothNeg 0 0 else F64.round (decide (sum < 0)) sum.natAbs 0

/-- `fadd(a, b)` (R10). -/
def fadd : F64 → F64 → F64
  | .fin n1 e1 f1, .fin n2 e2 f2 =>
    F64.ofSum (n1 && n2) (F64.signed n1 (F64.units e1 f1) + F64.signed n2 (F64.units e2 f2))
  | .fin _ _ _, .inf n2 => .inf n2
  | .inf n1, .fin _ _ _ => .inf n1
  | .inf n1, .inf n2 => if n1 = n2 then .inf n1 else .nan
  | .nan, _ => .nan
  | _, .nan => .nan

/-- The place of a value that is not a NaN among the extended reals, in units of 2^-1074: 2^2098 is above
every finite magnitude and stands for infinity. Both zeros are at 0. -/
def F64.place : F64 → Int
  | .fin n e f => F64.signed n (F64.units e f)
  | .inf n => F64.signed n (2 ^ 2098)
  | .nan => 0

/-- The IEEE comparison `a < b`: "false if either side is NaN, and +0.0 equals -0.0" (R10). -/
def flt (a b : F64) : Bool :=
  a != .nan && b != .nan && decide (a.place < b.place)

/-- A binary64 bit pattern read as a value: "sign in bit 63, biased exponent in bits 62 to 52, fraction in
bits 51 to 0" (30_encoding.md R73). -/
def F64.ofBits (b : BitVec 64) : F64 :=
  if h : (b.extractLsb' 52 11).toNat < 2047 then
    .fin (b.getLsbD 63) ⟨(b.extractLsb' 52 11).toNat, h⟩ (b.extractLsb' 0 52)
  else if b.extractLsb' 0 52 = 0 then .inf (b.getLsbD 63)
  else .nan

/-- The binary64 1.0. -/
def F64.one : F64 := F64.ofBits 0x3FF0000000000000

/-- Neither NaN nor infinite. -/
def F64.isFinite : F64 → Bool
  | .fin _ _ _ => true
  | .inf _ => false
  | .nan => false

end Sys2Proof
end

