-- ==== Sys2Proof/Machine/PcmDecoder.lean ====
section
/-! DEFINITION. The PCM magnitude decoder (40_decoder.md R95 to R103). -/

namespace Sys2Proof.Machine

/-- `Mag16(b0, b1)`: the absolute value of a 16-bit two's-complement sample (R96). -/
def mag16 (b0 b1 : Byte) : Nat := (b1 ++ b0).toInt.natAbs

/-- `Mag24(b0, b1, b2)`: the manual negation above 0x7FFFFF (R97). -/
def mag24 (b0 b1 b2 : Byte) : Nat :=
  if (b2 ++ b1 ++ b0).toNat > 0x7FFFFF then 0x1000000 - (b2 ++ b1 ++ b0).toNat
  else (b2 ++ b1 ++ b0).toNat

/-- `off(f, c)`, the byte offset of channel `c`'s sample in frame `f` (20_memory.md R52; channel 0 first is the spec's own
supplied convention, UNVERIFIED, notes/assumptions/11.md). -/
def sampleOffset (g : GlobalCfg) (c f : Nat) : Nat :=
  (f * g.nch.toNat + c) * sampleBytes g.format

/-- `mag(c, f)` (R98). -/
def mag (g : GlobalCfg) (buf : List Byte) (c f : Nat) : Nat :=
  if g.format = 0 then
    mag16 (byteAt buf (sampleOffset g c f)) (byteAt buf (sampleOffset g c f + 1))
  else
    mag24 (byteAt buf (sampleOffset g c f)) (byteAt buf (sampleOffset g c f + 1))
      (byteAt buf (sampleOffset g c f + 2))

/-- `FindCrossing(c, lo, lo + n, thr)`: the first frame whose magnitude strictly exceeds `thr` (R100). -/
def findCrossing (g : GlobalCfg) (buf : List Byte) (c thr : Nat) : Nat → Nat → Option Nat
  | _, 0 => none
  | lo, n + 1 =>
    if thr < mag g buf c lo then some lo else findCrossing g buf c thr (lo + 1) n

/-- `SubSpanPeak(c, lo, lo + n, run)` (R101). -/
def subSpanPeak (g : GlobalCfg) (buf : List Byte) (c : Nat) : Nat → Nat → Nat → Nat
  | _, 0, run => run
  | lo, n + 1, run => subSpanPeak g buf c (lo + 1) n (max run (mag g buf c lo))

/-- `BufferPeak(c)`: the largest magnitude over the whole buffer (R99). Magnitudes are at least 0, so the
running maximum may start there. -/
def bufferPeak (g : GlobalCfg) (buf : List Byte) (c : Nat) : Nat :=
  subSpanPeak g buf c 0 g.bufFrames.toNat 0

end Sys2Proof.Machine
end

