-- ==== Sys2Proof/Machine/Scheduler.lean ====
section
/-! DEFINITION. The note scheduler (43_scheduler.md R150 to R155) and the messages it forms (30_encoding.md
R81, R82). What the rules of one channel do in one buffer is written over a `Lane`: that channel's state
record and the messages it has emitted in this buffer so far. "Channels are independent. No rule processing
channel c reads or writes cfg[d] or st[d] for d != c" (10_state.md R49). -/

namespace Sys2Proof.Machine

/-- One channel inside a BUFFER command: its record, and its messages, oldest first. -/
structure Lane where
  st : ChanState
  msgs : List Msg
  deriving DecidableEq, Repr

/-- The three bytes of a message with wire channel `ch`, wire note `note` and wire velocity `vel`:
status `0x90 | ch`, bit 7 of the other two 0 (R81). -/
def voiceMsg (ch : BitVec 4) (note vel : BitVec 7) : Msg :=
  ⟨9#4 ++ ch, 0#1 ++ note, 0#1 ++ vel⟩

/-- `MIDI_CH & 0x0F` (R81). -/
def ChanCfg.wireCh (k : ChanCfg) : BitVec 4 := k.midiCh.setWidth 4

/-- `NOTE & 0x7F` (R81). -/
def ChanCfg.wireNote (k : ChanCfg) : BitVec 7 := k.note.setWidth 7

/-- The message of `noteOn(c, v)`; the wire velocity is `v mod 128` for every integer `v` (R81). -/
def noteOnMsg (k : ChanCfg) (v : Int) : Msg := voiceMsg k.wireCh k.wireNote (BitVec.ofInt 7 v)

/-- The message of `noteOff(c)` (R82). -/
def noteOffMsg (k : ChanCfg) : Msg := voiceMsg k.wireCh k.wireNote 0

/-- `noteOn(c, v)` (R150). -/
def noteOn (k : ChanCfg) (v : Int) (l : Lane) : Lane := { l with msgs := l.msgs ++ [noteOnMsg k v] }

/-- `noteOff(c)` (R151). -/
def noteOff (k : ChanCfg) (l : Lane) : Lane := { l with msgs := l.msgs ++ [noteOffMsg k] }

/-- `armNoteOff(c, d)` (R152). -/
def armNoteOff (d : BitVec 32) (l : Lane) : Lane := { l with st := { l.st with noff := d } }

/-- `tickNoteOff(c)`: fires exactly on the step from 1 to 0 (R153). -/
def tickNoteOff (k : ChanCfg) (l : Lane) : Lane :=
  if l.st.noff = 0 then l
  else if l.st.noff - 1 = 0 then noteOff k (armNoteOff (l.st.noff - 1) l)
  else armNoteOff (l.st.noff - 1) l

end Sys2Proof.Machine
end

