-- ==== Sys2Proof/Machine/EnvelopeDecay.lean ====
section
/-! DEFINITION. Strategy A, the envelope-decay detector (41_envelope_decay.md R110 to R122). -/

namespace Sys2Proof.Machine

/-- The fall-edge test (R117), with `p` the current buffer peak. -/
def fallEdge (k : ChanCfg) (st : ChanState) (p : Nat) : Bool :=
  decide (p < st.prev.toNat) && (k.fast || decide (st.prev.toNat < st.prev2.toNat))

/-- Strategy A's velocity, from the peak two buffers ago, truncating toward zero and not clamped
(R119). -/
def velocityA (fmt : BitVec 1) (k : ChanCfg) (st : ChanState) : Int :=
  1 + Int.tdiv (126 * ((st.prev2.toNat : Int) - k.trig.toNat)) ((maxMag fmt : Int) - k.trig.toNat)

/-- The rising count, "saturating at `2^32 - 1`" (R116). -/
def countRise (n : BitVec 32) : BitVec 32 := if n = BitVec.allOnes 32 then n else n + 1

/-- The envelope a fall edge sets: (peak two buffers ago - trigger level) x guard factor (R118).
The product may overflow to an infinity, and a decay of 0 then makes a NaN: R10 is followed as written
(DEDUCED, unsafe, notes/assumptions/5.md). -/
def fallEnvelope (k : ChanCfg) (st : ChanState) : F64 :=
  fmul (f64 ((st.prev2.toNat : Int) - k.trig.toNat)) (F64.ofBits k.guardF)

/-- The fields a fall edge writes (R118, steps 1 to 3). -/
def fallState (k : ChanCfg) (st : ChanState) : ChanState :=
  { st with rising := false, wait := k.aWaitBufs, env := fallEnvelope k st }

/-- The forced note-off before a retrigger (R118, step 4). -/
def forceNoteOff (k : ChanCfg) (l : Lane) : Lane :=
  if k.force && l.st.noff != 0 then noteOff k l else l

/-- A fall edge (R118): its six steps in order. -/
def envFall (fmt : BitVec 1) (k : ChanCfg) (l : Lane) : Lane :=
  armNoteOff k.noffDelay
    (noteOn k (velocityA fmt k l.st) (forceNoteOff k { l with st := fallState k l.st }))

/-- The RISING branch (R116, R117). -/
def envRising (fmt : BitVec 1) (k : ChanCfg) (p : Nat) (l : Lane) : Lane :=
  let l := { l with st := { l.st with riseCount := countRise l.st.riseCount } }
  if fallEdge k l.st p then envFall fmt k l else l

/-- The WAITING branch (R120). -/
def envWaiting (l : Lane) : Lane := { l with st := { l.st with wait := l.st.wait - 1 } }

/-- The IDLE threshold test, in binary64 (R114). -/
def exceedsEnvelope (k : ChanCfg) (st : ChanState) (p : Nat) : Bool :=
  flt (fadd (f64 k.trig.toNat) st.env) (f64 p)

/-- One idle decay of the envelope: every product below 1.0 snaps to +0.0 (R115). -/
def decayEnvelope (k : ChanCfg) (env : F64) : F64 :=
  if flt (fmul env (F64.ofBits k.decay)) F64.one then F64.posZero
  else fmul env (F64.ofBits k.decay)

/-- The IDLE branch: the comparison first, then the decay, in every IDLE step (R114, R115). -/
def envIdle (k : ChanCfg) (p : Nat) (l : Lane) : Lane :=
  let st := if exceedsEnvelope k l.st p then { l.st with rising := true, riseCount := 0 } else l.st
  { l with st := { st with env := decayEnvelope k st.env } }

/-- The history shift that ends every step: `prev2 <- prev`, then `prev <- P` (R121). -/
def shiftHistory (p : Nat) (l : Lane) : Lane :=
  { l with st := { l.st with prev2 := l.st.prev, prev := BitVec.ofNat 24 p } }

/-- The branch of the phase at the start of the step (R113). -/
def envBranch (fmt : BitVec 1) (k : ChanCfg) (p : Nat) (l : Lane) : Lane :=
  if l.st.rising then envRising fmt k p l
  else if l.st.isWaiting then envWaiting l
  else envIdle k p l

/-- `EnvStep(c)` with buffer peak `p` (R111, R112). -/
def envStepWith (fmt : BitVec 1) (k : ChanCfg) (p : Nat) (l : Lane) : Lane :=
  shiftHistory p (envBranch fmt k p l)

/-- `EnvStep(c)` (R111). -/
def envStep (g : GlobalCfg) (k : ChanCfg) (buf : List Byte) (c : Nat) (l : Lane) : Lane :=
  envStepWith g.format k (bufferPeak g buf c) l

end Sys2Proof.Machine
end

