-- ==== Sys2Proof/Machine/PeakWindow.lean ====
section
/-! DEFINITION. Strategy B, the peak-window state machine (42_peak_window.md R130 to R137). -/

namespace Sys2Proof.Machine

/-- A lane with strategy B's transient cursor `pos`, the first frame not yet consumed (R131). -/
structure Scan where
  lane : Lane
  pos : Nat
  deriving DecidableEq, Repr

/-- Strategy B's velocity; `div` is floor division (R134, 00_scope.md R9). -/
def velocityB (fmt : BitVec 1) (k : ChanCfg) (acc : BitVec 24) : Int :=
  1 + Int.fdiv (126 * ((acc.toNat : Int) - k.trig.toNat)) ((maxMag fmt : Int) - k.trig.toNat)

/-- Handler `PwIdle(c)` (R132), with the crossing frame folded into the accumulator (R133). -/
def pwIdle (g : GlobalCfg) (k : ChanCfg) (buf : List Byte) (c : Nat) (x : Scan) : Scan :=
  match findCrossing g buf c k.trig.toNat x.pos (g.bufFrames.toNat - x.pos) with
  | none => { x with pos := g.bufFrames.toNat }
  | some f =>
    { lane := { x.lane with
        st := { x.lane.st with
          phase := .peak, acc := BitVec.ofNat 24 (max k.trig.toNat (mag g buf c f)), cd := k.peakLen } }
      pos := f + 1 }

/-- `min(cd, N - pos)`, the frames one PEAK pass scans (R134). `cd` is not negative in PEAK (10_state.md
R45); a negative one, in a state no run reaches, scans none (DESIGN CHOICE,
safe in every run, notes/assumptions/6.md). -/
def peakSpan (g : GlobalCfg) (x : Scan) : Nat :=
  min x.lane.st.cd.toInt.toNat (g.bufFrames.toNat - x.pos)

/-- The end of a PEAK window: note-on, WAIT, arm (R134). -/
def peakDone (fmt : BitVec 1) (k : ChanCfg) (l : Lane) : Lane :=
  let l := noteOn k (velocityB fmt k l.st.acc) l
  armNoteOff k.noffDelay { l with st := { l.st with phase := .wait, cd := k.waitLen } }

/-- The scan of a PEAK pass: the span is folded, consumed and counted down (R134). -/
def peakScan (g : GlobalCfg) (buf : List Byte) (c : Nat) (x : Scan) : Scan :=
  { lane := { x.lane with
      st := { x.lane.st with
        acc := BitVec.ofNat 24 (subSpanPeak g buf c x.pos (peakSpan g x) x.lane.st.acc.toNat)
        cd := x.lane.st.cd - BitVec.ofNat 32 (peakSpan g x) } }
    pos := x.pos + peakSpan g x }

/-- Handler `PwPeak(c)` (R134). -/
def pwPeak (g : GlobalCfg) (k : ChanCfg) (buf : List Byte) (c : Nat) (x : Scan) : Scan :=
  let x := peakScan g buf c x
  if x.lane.st.cd = 0 then { x with lane := peakDone g.format k x.lane } else x

/-- Handler `PwWait(c)`: a whole buffer's frames off the countdown; at zero or below, back to IDLE on the
frames that overshot, never before `pos` (R135). -/
def pwWait (g : GlobalCfg) (x : Scan) : Scan :=
  let cd := x.lane.st.cd - g.bufFrames
  if cd.toInt ≤ 0 then
    { lane := { x.lane with st := { x.lane.st with phase := .idle, cd := 0 } }
      pos := max x.pos ((g.bufFrames.toNat : Int) + cd.toInt).toNat }
  else
    { lane := { x.lane with st := { x.lane.st with cd := cd } }
      pos := g.bufFrames.toNat }

/-- One pass of the dispatch loop: the handler of the phase at its start (R131). -/
def pwPass (g : GlobalCfg) (k : ChanCfg) (buf : List Byte) (c : Nat) (x : Scan) : Scan :=
  match x.lane.st.phase with
  | .idle => pwIdle g k buf c x
  | .peak => pwPeak g k buf c x
  | .wait => pwWait g x

/-- `while pos < N`, for at most `fuel` passes (R131). -/
def pwLoop (g : GlobalCfg) (k : ChanCfg) (buf : List Byte) (c : Nat) : Nat → Scan → Scan
  | 0, x => x
  | fuel + 1, x =>
    if x.pos < g.bufFrames.toNat then pwLoop g k buf c fuel (pwPass g k buf c x) else x

/-- The passes R136 allows: "within at most `3N + 3` handler passes per channel per buffer". -/
def pwPasses (g : GlobalCfg) : Nat := 3 * g.bufFrames.toNat + 3

/-- `PwStep(c)` (R131). -/
def pwStep (g : GlobalCfg) (k : ChanCfg) (buf : List Byte) (c : Nat) (l : Lane) : Lane :=
  (pwLoop g k buf c (pwPasses g) ⟨l, 0⟩).lane

end Sys2Proof.Machine
end

