-- ==== Sys2Proof/Machine/BufferStep.lean ====
section
/-! DEFINITION. The per-buffer sequencer (44_buffer_step.md R165 to R169) and the BUFFER command
(45_host_commands.md R181). -/

namespace Sys2Proof.Machine

/-- The detector of the run on one channel: `EnvStep(c)` or `PwStep(c)` (R165, 10_state.md R23). -/
def detect (g : GlobalCfg) (k : ChanCfg) (buf : List Byte) (c : Nat) (l : Lane) : Lane :=
  if g.strategy = 0 then envStep g k buf c l else pwStep g k buf c l

/-- One channel's whole work in one buffer: "the note-off tick comes first, then the detector step"
(R166). -/
def channelStep (g : GlobalCfg) (k : ChanCfg) (buf : List Byte) (c : Nat) (st : ChanState) : Lane :=
  detect g k buf c (tickNoteOff k ⟨st, []⟩)

/-- Channel `c`'s turn: its record is written and its messages go out (R166). -/
def stepChannel (buf : List Byte) (s : State) (c : Nat) : State :=
  let l := channelStep s.glob (s.chanCfg c) buf c (s.chanState c)
  (s.setChanState c l.st).emit l.msgs

/-- `BufferStep`: `for c in 0, 1, ..., NCH - 1` (R165). -/
def bufferStep (buf : List Byte) (s : State) : State :=
  (List.range s.glob.nch.toNat).foldl (stepChannel buf) s

/-- BUFFER (R181): ignored in ERROR (60_exceptions.md R207), then the mode check, then the length check,
both before any work (R206). -/
def execBuffer (payload : List Byte) (s : State) : Host.Outcome State Fault Refusal :=
  if s.mode = .error then .next s
  else if s.mode ≠ .running then .next (s.raise 5)
  else if payload.length ≠ bufferBytes s.glob then .next (s.raise 7)
  else .next (bufferStep payload s)

end Sys2Proof.Machine
end

