-- ==== Sys2Proof/Machine/Operands.lean ====
section
/-! DEFINITION. The operand forms: the configuration address of CFG_WRITE (30_encoding.md R74, R77), the
register it names, and the write of its low bits (R72). -/

namespace Sys2Proof.Machine

/-- The channel register at offset `k` of a channel block; offsets 10 to 15 are reserved (R74). -/
def cregOfOffset (k : Nat) : Option CReg :=
  [CReg.trig, .decay, .guardF, .peakLen, .waitLen, .aWaitBufs, .noffDelay, .midiCh, .note, .flags][k]?

/-- The global register at an address below 0x100; `0x004` to `0x0FF` are reserved (R74, R77). -/
def gregOfAddr (a : Nat) : Option GReg :=
  [GReg.strategy, .format, .nch, .bufFrames][a]?

/-- The register a configuration address selects, `none` for a reserved address (R74, R77). -/
def regOfAddr (cmax : Nat) (addr : BitVec 12) : Option Reg :=
  if addr.toNat < 0x100 then (gregOfAddr addr.toNat).map Reg.glob
  else if (addr.toNat - 0x100) / 16 < cmax then
    (cregOfOffset (addr.toNat % 16)).map (Reg.chan ((addr.toNat - 0x100) / 16))
  else none

/-- A global register takes `DATA[w-1:0]` (R72). -/
def GlobalCfg.write (g : GlobalCfg) (r : GReg) (d : BitVec 64) : GlobalCfg :=
  match r with
  | .strategy => { g with strategy := d.setWidth 1 }
  | .format => { g with format := d.setWidth 1 }
  | .nch => { g with nch := d.setWidth 8 }
  | .bufFrames => { g with bufFrames := d.setWidth 32 }

/-- A channel register takes `DATA[w-1:0]` (R72). -/
def ChanCfg.write (k : ChanCfg) (r : CReg) (d : BitVec 64) : ChanCfg :=
  match r with
  | .trig => { k with trig := d.setWidth 24 }
  | .decay => { k with decay := d }
  | .guardF => { k with guardF := d }
  | .peakLen => { k with peakLen := d.setWidth 32 }
  | .waitLen => { k with waitLen := d.setWidth 32 }
  | .aWaitBufs => { k with aWaitBufs := d.setWidth 32 }
  | .noffDelay => { k with noffDelay := d.setWidth 32 }
  | .midiCh => { k with midiCh := d.setWidth 8 }
  | .note => { k with note := d.setWidth 8 }
  | .flags => { k with flags := d.setWidth 2 }

/-- `reg(ADDR) <- DATA[w-1:0]` (45_host_commands.md R178). -/
def State.writeReg (s : State) (r : Reg) (d : BitVec 64) : State :=
  match r with
  | .glob g => s.setGlob (s.glob.write g d)
  | .chan c k => s.setChanCfg c ((s.chanCfg c).write k d)

/-- What a global register holds, as the block reads it, zero-extended to 64 bits. -/
def GlobalCfg.read (g : GlobalCfg) : GReg → BitVec 64
  | .strategy => g.strategy.setWidth 64
  | .format => g.format.setWidth 64
  | .nch => g.nch.setWidth 64
  | .bufFrames => g.bufFrames.setWidth 64

/-- What a channel register holds, as the block reads it, zero-extended to 64 bits. -/
def ChanCfg.read (k : ChanCfg) : CReg → BitVec 64
  | .trig => k.trig.setWidth 64
  | .decay => k.decay
  | .guardF => k.guardF
  | .peakLen => k.peakLen.setWidth 64
  | .waitLen => k.waitLen.setWidth 64
  | .aWaitBufs => k.aWaitBufs.setWidth 64
  | .noffDelay => k.noffDelay.setWidth 64
  | .midiCh => k.midiCh.setWidth 64
  | .note => k.note.setWidth 64
  | .flags => k.flags.setWidth 64

/-- What a configuration register holds. The host cannot read it back (10_state.md R22): this is the
block's own reading, in which claims about a write are stated. -/
def State.readReg (s : State) : Reg → BitVec 64
  | .glob g => s.glob.read g
  | .chan c k => (s.chanCfg c).read k

/-- The width in bits of a register (10_state.md R22). -/
def Reg.width : Reg → Nat
  | .glob .strategy => 1
  | .glob .format => 1
  | .glob .nch => 8
  | .glob .bufFrames => 32
  | .chan _ .trig => 24
  | .chan _ .decay => 64
  | .chan _ .guardF => 64
  | .chan _ .peakLen => 32
  | .chan _ .waitLen => 32
  | .chan _ .aWaitBufs => 32
  | .chan _ .noffDelay => 32
  | .chan _ .midiCh => 8
  | .chan _ .note => 8
  | .chan _ .flags => 2

end Sys2Proof.Machine
end

