-- ==== Sys2Proof/Machine/Commands.lean ====
section
/-! DEFINITION. The commands but BUFFER (45_host_commands.md R175 to R185). Each carries the first check of
the common prologue itself: in ERROR it is ignored, but for RESET and STATUS_READ (60_exceptions.md R207).
A fault is a next state (R205). -/

namespace Sys2Proof.Machine

/-- RESET (R176), "legal in every mode, including ERROR". -/
def execReset (s : State) : Host.Outcome State Fault Refusal := .next s.clear

/-- CFG_WRITE (R178): the mode check (code 3), the address check (code 2), the write. -/
def execCfgWrite (addr : BitVec 12) (data : BitVec 64) (s : State) : Host.Outcome State Fault Refusal :=
  if s.mode = .error then .next s
  else if s.mode ≠ .config then .next (s.raise 3)
  else
    match regOfAddr s.cmax addr with
    | none => .next (s.raise 2)
    | some r => .next (s.writeReg r data)

/-- A length register's legal values: at most `2^31 - 1` (R180, item 4). -/
def legalLength (v : BitVec 32) : Bool := decide (v.toNat ≤ 2 ^ 31 - 1)

/-- A binary64 register's legal values under strategy A: finite and `>= 0` (R180, item 5). -/
def legalFactor (b : BitVec 64) : Bool := (F64.ofBits b).isFinite && !flt (F64.ofBits b) F64.posZero

/-- Items 3 to 5 of `LegalConfig()` for one channel (R180). -/
def legalChannel (g : GlobalCfg) (k : ChanCfg) : Bool :=
  decide (0 < k.trig.toNat) && decide (k.trig.toNat < maxMag g.format)
    && legalLength k.peakLen && legalLength k.waitLen && legalLength k.aWaitBufs
    && legalLength k.noffDelay
    && (g.strategy != 0 || (legalFactor k.decay && legalFactor k.guardF))

/-- `LegalConfig()` (R180). -/
def State.legalConfig (s : State) : Bool :=
  decide (1 ≤ s.glob.nch.toNat) && decide (s.glob.nch.toNat ≤ s.cmax)
    && decide (1 ≤ s.glob.bufFrames.toNat) && decide (s.glob.bufFrames.toNat ≤ s.nmax)
    && (List.range s.glob.nch.toNat).all (fun c => legalChannel s.glob (s.chanCfg c))

/-- START (R179): the mode check (code 5), the configuration check (code 4), the baseline, RUNNING. -/
def execStart (s : State) : Host.Outcome State Fault Refusal :=
  if s.mode = .error then .next s
  else if s.mode ≠ .config then .next (s.raise 5)
  else if s.legalConfig then .next (s.baselineAll.setMode .running)
  else .next (s.raise 4)

/-- STOP (R182). -/
def execStop (s : State) : Host.Outcome State Fault Refusal :=
  if s.mode = .error then .next s else .next (s.setMode .stopped)

/-- SOURCE_FAIL (R184): its effect is fault 6. -/
def execSourceFail (s : State) : Host.Outcome State Fault Refusal :=
  if s.mode = .error then .next s else .next (s.raise 6)

/-- STATUS_READ (R183): answers the status word and changes no state. -/
def execStatusRead (s : State) : Host.Outcome State Fault Refusal := .next (s.respond s.status)

end Sys2Proof.Machine
end

