-- ==== Sys2Proof/Machine/Messages.lean ====
section
/-! DEFINITION. The two message rows of the opcode table. A message is no command (00_scope.md R2); the
effect its rule gives it is `Emit(b0, b1, b2)`: it is appended whole to the output stream (20_memory.md
R57). No mode is checked: the scheduler raises no fault (43_scheduler.md R150, R151). -/

namespace Sys2Proof.Machine

/-- NON: the message of `noteOn` (R150). -/
def execNon (ch : BitVec 4) (note vel : BitVec 7) (s : State) : Host.Outcome State Fault Refusal :=
  .next (s.emit [voiceMsg ch note vel])

/-- NOFF: "the same message shape with velocity 0" (R151). -/
def execNoff (ch : BitVec 4) (note : BitVec 7) (s : State) : Host.Outcome State Fault Refusal :=
  .next (s.emit [voiceMsg ch note 0])

end Sys2Proof.Machine
end

