-- ==== Sys2Proof/Machine/Dispatch.lean ====
section
/-! DEFINITION. One arm per constructor of Instr: a direct call of its meaning. -/

namespace Sys2Proof.Machine

def exec (i : Instr) (s : State) : Host.Outcome State Fault Refusal :=
  match i with
  | .reset => Sys2Proof.Machine.execReset s
  | .cfgWrite addr data => Sys2Proof.Machine.execCfgWrite addr data s
  | .start => Sys2Proof.Machine.execStart s
  | .buffer payload => Sys2Proof.Machine.execBuffer payload s
  | .stop => Sys2Proof.Machine.execStop s
  | .sourceFail => Sys2Proof.Machine.execSourceFail s
  | .statusRead => Sys2Proof.Machine.execStatusRead s
  | .non ch note vel => Sys2Proof.Machine.execNon ch note vel s
  | .noff ch note => Sys2Proof.Machine.execNoff ch note s

end Sys2Proof.Machine
end

