-- ==== Sys2Proof/Machine/Execute.lean ====
section
/-! DEFINITION. The prologue every command goes through (45_host_commands.md R175), and a message offered to
the output stream by itself. -/

namespace Sys2Proof.Machine

/-- The opcodes ERROR mode does not ignore: 0x1 RESET and 0x7 STATUS_READ (R175). -/
def heardInError (w : Word) : Bool := opField w == 1 || opField w == 7

/-- `Execute(W, payload)` (R175): ignored in ERROR, else illegal with code 1, else executed. -/
def executeCommand (c : Command) (s : State) : Host.Outcome State Fault Refusal :=
  if s.mode = .error ∧ heardInError c.word = false then .next s
  else
    match decodeCommand c with
    | .error _ => .next (s.raise 1)
    | .ok i => exec i s

/-- A 24-bit message value: one of the two shapes is executed; any other is no value the block forms
(30_encoding.md R82). -/
def executeMessage (w : BitVec 24) (s : State) : Host.Outcome State Fault Refusal :=
  match decodeMessage w with
  | .error _ => .fault .notAMessage
  | .ok i => exec i s

end Sys2Proof.Machine
end

