-- ==== Sys2Proof/Machine/Step.lean ====
section
/-! DEFINITION. One step: the next form that stands before the block is taken and processed to completion
(20_memory.md R59). With nothing before it the block does nothing and all state holds (60_exceptions.md
R215). -/

namespace Sys2Proof.Machine

/-- One step of the machine. -/
def step (s : State) : Host.Outcome State Fault Refusal :=
  match s.fetch with
  | none => .next s
  | some (.message w) => executeMessage w s.takeMessage
  | some (.command c) => executeCommand c s.popCommand

/-- The state whose next step takes the instruction with these bits (numbered as the opcode table numbers
them): a command word with its payload at the head of the command port, a message in `emitSlot`. A number
of bits that is no row's leaves the state as it is. -/
def State.withFetchWord (s : State) (nbits w : Nat) : State :=
  match encodedOfTableWord nbits w with
  | .ok x => s.offer x
  | .error _ => s

end Sys2Proof.Machine
end

