-- ==== Sys2Proof/Safety.lean ====
section
/-! DEFINITION. The terms claims are stated in: the value of a binary64 datum, the data-model invariants of
10_state.md R50, and several buffers of one channel in a row. Nothing here is used by the machine. -/

namespace Sys2Proof

/-- The number a finite datum stands for; none for an infinity or a NaN. -/
def F64.value : F64 → Option ℚ
  | .fin n e f => some ((F64.signed n (F64.units e f) : ℚ) / 2 ^ 1074)
  | .inf _ => none
  | .nan => none

/-- The significand of a finite datum is even: the lowest bit of its fraction field is 0. -/
def F64.evenSignificand : F64 → Prop
  | .fin _ _ f => f.getLsbD 0 = false
  | .inf _ => False
  | .nan => False

/-- The sign of a datum that is not a NaN; that of -0.0 is negative. -/
def F64.negative : F64 → Bool
  | .fin n _ _ => n
  | .inf n => n
  | .nan => false

/-- A binary64 pattern is finite and `>= 0`, read off its fields: the exponent field is not all ones, and
the sign bit is clear or the pattern is that of -0.0. -/
def FiniteNonneg (b : BitVec 64) : Prop :=
  b.toNat / 2 ^ 52 % 2 ^ 11 ≠ 2047 ∧ b.toNat ≤ 2 ^ 63

end Sys2Proof

namespace Sys2Proof.Machine

/-- The configuration registers and the parameters are those of `s`. -/
def State.SameRegs (s t : State) : Prop :=
  t.glob = s.glob ∧ t.cmax = s.cmax ∧ t.nmax = s.nmax ∧ ∀ c, t.chanCfg c = s.chanCfg c

/-- Every channel record is that of `s`. -/
def State.SameRecords (s t : State) : Prop := ∀ c, t.chanState c = s.chanState c

/-- The command port and the message slot are those of `s`. -/
def State.SameInputs (s t : State) : Prop := t.port = s.port ∧ t.emitSlot = s.emitSlot

/-- The output stream and the response port are those of `s`. -/
def State.SameOutputs (s t : State) : Prop := t.out = s.out ∧ t.resp = s.resp

/-- The claims of R23, R40, R42, R45, R46 and R50 about an active channel's record, at a command boundary
of a run. -/
def ChanOk (g : GlobalCfg) (k : ChanCfg) (st : ChanState) : Prop :=
  st.prev.toNat ≤ maxMag g.format + 1 ∧ st.prev2.toNat ≤ maxMag g.format + 1 ∧
  st.acc.toNat ≤ maxMag g.format + 1 ∧
  0 ≤ st.cd.toInt ∧ (st.phase = .idle → st.cd = 0) ∧
  st.noff.toNat ≤ k.noffDelay.toNat ∧ st.wait.toNat ≤ k.aWaitBufs.toNat ∧
  (st.rising = true → st.wait = 0) ∧
  (st.acc = 0 ∨ k.trig.toNat ≤ st.acc.toNat) ∧ (st.phase ≠ .idle → k.trig.toNat < st.acc.toNat) ∧
  (g.strategy = 0 → st.phase = .idle ∧ st.cd = 0 ∧ st.acc = 0) ∧
  (g.strategy = 1 → st.rising = false ∧ st.riseCount = 0 ∧ st.wait = 0 ∧ st.env = F64.posZero ∧
    st.prev = 0 ∧ st.prev2 = 0)

/-- A run in progress (R50): the configuration passed START's check, every active channel's record is
sound, and the others are at the baseline. -/
def State.RunOk (s : State) : Prop :=
  s.legalConfig = true ∧ (∀ c < s.glob.nch.toNat, ChanOk s.glob (s.chanCfg c) (s.chanState c)) ∧
  ∀ c, s.glob.nch.toNat ≤ c → s.chanState c = ChanState.baseline

/-- The invariant of the block: legal parameters; `ERR` a code of 60_exceptions.md R201, nonzero exactly in
ERROR; every record at the baseline in CONFIG; a sound run in RUNNING. -/
def State.Inv (s : State) : Prop :=
  Config.legalParams s.cmax s.nmax ∧ s.err.toNat ≤ 7 ∧ (s.mode = .error ↔ s.err ≠ 0) ∧
  (s.mode = .config → ∀ c, s.chanState c = ChanState.baseline) ∧
  (s.mode = .running → s.RunOk)

/-- Channel `c` through several buffers in a row: its record after the last, and all its messages. -/
def channelRun (g : GlobalCfg) (k : ChanCfg) (c : Nat) : List (List Byte) → ChanState → Lane
  | [], st => ⟨st, []⟩
  | buf :: rest, st =>
    let l := channelStep g k buf c st
    let r := channelRun g k c rest l.st
    ⟨r.st, l.msgs ++ r.msgs⟩

/-- The detector emits nothing for channel `c` in a buffer, given its record before the tick. -/
def DetectorQuiet (g : GlobalCfg) (k : ChanCfg) (c : Nat) (buf : List Byte) (st : ChanState) : Prop :=
  (channelStep g k buf c st).msgs = (tickNoteOff k ⟨st, []⟩).msgs

/-- The detector emits nothing for channel `c` in any of several buffers in a row. -/
def AllQuiet (g : GlobalCfg) (k : ChanCfg) (c : Nat) : List (List Byte) → ChanState → Prop
  | [], _ => True
  | buf :: rest, st =>
    DetectorQuiet g k c buf st ∧ AllQuiet g k c rest (channelStep g k buf c st).st

end Sys2Proof.Machine
end

