-- ==== Sys2Proof/Certificates/Slice0/Obligations.lean ====
section
/-! DEFINITION. The statements about the model, one `def Obligations.<Name> : Prop` each; OBLIGATIONS.json
lists them. A docstring names the rule a statement formalises. -/

open Sys2Proof Sys2Proof.Machine

/-! ### Encoding -/

/-- Words and payloads written out from 30_encoding.md R70 to R74, R81 and R82 decode to the instructions
they stand for. The last value matches both message rows (R83, R87); that it is read as NOFF is the model's
choice, log entry 3. -/
def Obligations.WrittenWordsDecode : Prop :=
  decode (.command ⟨0x10000000, []⟩) = .ok .reset ∧
  decode (.command ⟨0x20000100, [0xE8, 0x03, 0, 0, 0, 0, 0, 0]⟩) = .ok (.cfgWrite 0x100 1000) ∧
  decode (.command ⟨0x30000000, []⟩) = .ok .start ∧
  decode (.command ⟨0x40000000, [0x00, 0x00, 0x88, 0x13]⟩) = .ok (.buffer [0x00, 0x00, 0x88, 0x13]) ∧
  decode (.command ⟨0x50000000, []⟩) = .ok .stop ∧
  decode (.command ⟨0x60000000, []⟩) = .ok .sourceFail ∧
  decode (.command ⟨0x70000000, []⟩) = .ok .statusRead ∧
  decode (.message 0x992610) = .ok (.non 9 38 16) ∧
  decode (.message 0x992600) = .ok (.noff 9 38)

/-- Decoding the encoding of a well-formed instruction gives it back, with every operand at every value. -/
def Obligations.DecodeOfEncodeIsIdentity : Prop :=
  ∀ i : Instr, WellFormed i = true → decode (encode i) = .ok i

/-- An encoded form that decodes at all is the encoding of what it decodes to, which is well-formed: no bit of
it is dropped. A message with velocity 0 matches both message rows (R83, R87); that it has the one reading
NOFF, so that a NON with velocity 0 is not well-formed, is the model's choice, log entry 3. -/
def Obligations.EncodeOfDecodeIsIdentity : Prop :=
  ∀ (x : Encoded) (i : Instr), decode x = .ok i → encode i = x ∧ WellFormed i = true

/-- R76: which commands are illegal, and that an illegal command faults with code 1 and has no other effect,
but is ignored under `MODE = ERROR`. `W[31:28]`, `W[27:12]` and `W[11:0]` are written as quotients and
remainders. -/
def Obligations.IllegalCommandsFaultWithCodeOne : Prop :=
  ∀ (c : Command) (s : State),
    let op := c.word.toNat / 2 ^ 28
    let illegal :=
      (op = 0 ∨ 8 ≤ op) ∨ c.word.toNat / 2 ^ 12 % 2 ^ 16 ≠ 0 ∨ (op ≠ 2 ∧ c.word.toNat % 2 ^ 12 ≠ 0) ∨
        (op = 2 ∧ c.payload.length ≠ 8) ∨ (op ≠ 2 ∧ op ≠ 4 ∧ c.payload ≠ [])
    ((∃ e, decodeCommand c = .error e) ↔ illegal) ∧
      (illegal → s.mode ≠ .error →
        executeCommand c s = .next { s with mode := .error, err := 1 }) ∧
      (illegal → s.mode = .error → executeCommand c s = .next s)

/-- R87, R83: a 24-bit value is a NOFF where it matches the NOFF row, and a NON where it matches the NON row
and not the NOFF row; the fields are those of R81. That a value of both rows is read as NOFF is the model's
choice, log entry 3. -/
def Obligations.MessageRowsDecode : Prop :=
  ∀ w : BitVec 24,
    (w &&& 0xF080FF = 0x900000 →
      decode (.message w) =
        .ok (.noff (BitVec.ofNat 4 (w.toNat / 2 ^ 16)) (BitVec.ofNat 7 (w.toNat / 2 ^ 8)))) ∧
    (w &&& 0xF08080 = 0x900000 → w &&& 0xF080FF ≠ 0x900000 →
      decode (.message w) =
        .ok (.non (BitVec.ofNat 4 (w.toNat / 2 ^ 16)) (BitVec.ofNat 7 (w.toNat / 2 ^ 8))
          (BitVec.ofNat 7 w.toNat))) ∧
    (w &&& 0xF08080 ≠ 0x900000 → decode (.message w) = .error .notAMessage)

/-- R72: CFG_WRITE's payload is one little-endian unsigned 64-bit integer, and the addressed register takes
its low bits, `DATA[63:w]` ignored, in CONFIG. -/
def Obligations.CfgWriteDataIsLittleEndian : Prop :=
  ∀ (a : BitVec 12) (p0 p1 p2 p3 p4 p5 p6 p7 : Byte),
    ∃ d : BitVec 64,
      d.toNat = p0.toNat + p1.toNat * 2 ^ 8 + p2.toNat * 2 ^ 16 + p3.toNat * 2 ^ 24 +
        p4.toNat * 2 ^ 32 + p5.toNat * 2 ^ 40 + p6.toNat * 2 ^ 48 + p7.toNat * 2 ^ 56 ∧
      decodeCommand ⟨0x20000000#32 ||| a.setWidth 32, [p0, p1, p2, p3, p4, p5, p6, p7]⟩ =
        .ok (.cfgWrite a d) ∧
      ∀ (s : State) (r : Reg), s.mode = .config → regOfAddr s.cmax a = some r →
        ∃ t, exec (.cfgWrite a d) s = .next t ∧
          (t.readReg r).toNat = d.toNat % 2 ^ r.width

/-- R74 and R77: the register each configuration address selects, for any `CMAX` the map has room for. -/
def Obligations.ConfigurationAddressMap : Prop :=
  ∀ (cmax : Nat) (a : BitVec 12), cmax ≤ 240 →
    (∀ r, [GReg.strategy, .format, .nch, .bufFrames][a.toNat]? = some r →
      regOfAddr cmax a = some (.glob r)) ∧
    (∀ c k r, c < cmax → a.toNat = 0x100 + 16 * c + k →
      [CReg.trig, .decay, .guardF, .peakLen, .waitLen, .aWaitBufs, .noffDelay, .midiCh, .note,
        .flags][k]? = some r → regOfAddr cmax a = some (.chan c r)) ∧
    ((4 ≤ a.toNat ∧ a.toNat ≤ 0x0FF) ∨
        (0x100 ≤ a.toNat ∧ (10 ≤ a.toNat % 16 ∨ cmax ≤ (a.toNat - 0x100) / 16)) →
      regOfAddr cmax a = none)

/-! ### The step -/

/-- A step runs the decoded instruction: where the oldest command of the port decodes to `i`, the step is
`exec i` on the state with that command taken off the port. The port as a list in State is the model's choice,
log entry 2. -/
def Obligations.StepRunsDecodedCommand : Prop :=
  ∀ (s : State) (c : Command) (rest : List Command) (i : Instr),
    s.emitSlot = none → s.port = c :: rest → decode (.command c) = .ok i →
      step s = exec i { s with port := rest }

/-- A step runs the decoded message: where a message is offered, the step is `exec` of it on the state with
the offer taken. The offer (`emitSlot`) and its coming before the port are the model's choice, log entry 2. -/
def Obligations.StepRunsOfferedMessage : Prop :=
  ∀ (s : State) (w : BitVec 24) (i : Instr),
    s.emitSlot = some w → decode (.message w) = .ok i → step s = exec i { s with emitSlot := none }

/-- 60_exceptions.md R200 and 20_memory.md R59: from every state with no message offered by itself, every
command (legal, illegal or faulting, in every mode) has a next state; the machine never stops. At most one
command is taken, and none is put back. R215: with no command to take, "it does nothing, and all state
holds". The port and the offered message are the model's choice, log entry 2. -/
def Obligations.EveryCommandCompletes : Prop :=
  ∀ s : State, s.emitSlot = none →
    (∃ t, step s = .next t ∧ t.emitSlot = none ∧ t.port = s.port.tail) ∧
    (s.port = [] → step s = .next s)

/-! ### Commands -/

/-- R176: RESET in every mode, with every register and record written out. -/
def Obligations.ResetRestoresEverything : Prop :=
  decodeCommand ⟨0x10000000, []⟩ = .ok .reset ∧
  ∀ s : State, ∃ t, exec .reset s = .next t ∧ t.mode = .config ∧ t.err = 0 ∧
    t.glob = { strategy := 0, format := 0, nch := 0, bufFrames := 0 } ∧
    (∀ c, t.chanCfg c =
      { trig := 0, decay := 0, guardF := 0, peakLen := 0, waitLen := 0, aWaitBufs := 0,
        noffDelay := 0, midiCh := 0, note := 0, flags := 0 }) ∧
    (∀ c, t.chanState c =
      { noff := 0, rising := false, riseCount := 0, wait := 0, env := .fin false 0 0, prev := 0,
        prev2 := 0, phase := .idle, cd := 0, acc := 0 }) ∧
    t.status = 0 ∧ t.cmax = s.cmax ∧ t.nmax = s.nmax ∧ s.SameOutputs t ∧ s.SameInputs t

/-- R226 and R227: the power-on state for any `CMAX` and `NMAX`, on which START faults with code 4; RESET on
any state of the same parameters leaves the same architectural state. -/
def Obligations.PowerOnStateIsResetState : Prop :=
  ∀ cmax nmax : Nat,
    (State.resetWith cmax nmax).mode = .config ∧ (State.resetWith cmax nmax).err = 0 ∧
    (State.resetWith cmax nmax).status = 0 ∧ (State.resetWith cmax nmax).cmax = cmax ∧
    (State.resetWith cmax nmax).out = [] ∧ (State.resetWith cmax nmax).resp = [] ∧
    (∀ r, (State.resetWith cmax nmax).readReg r = 0) ∧
    (∀ c, (State.resetWith cmax nmax).chanState c = ChanState.baseline) ∧
    (State.resetWith cmax nmax).legalConfig = false ∧
    exec .start (State.resetWith cmax nmax) =
      .next { State.resetWith cmax nmax with mode := .error, err := 4 } ∧
    ∀ s : State, s.cmax = cmax → s.nmax = nmax →
      exec .reset s = .next { State.resetWith cmax nmax with
        out := s.out, resp := s.resp, port := s.port, emitSlot := s.emitSlot }

/-- R178: CFG_WRITE's checks in order and its effect: the addressed register takes `DATA[w-1:0]`, and every
other register, every channel record, the mode and the ports are unchanged. -/
def Obligations.CfgWriteEffect : Prop :=
  ∀ (a : BitVec 12) (d : BitVec 64) (s : State),
    decodeCommand ⟨0x20000000#32 ||| a.setWidth 32, dataBytes d⟩ = .ok (.cfgWrite a d) ∧
    (s.mode = .running ∨ s.mode = .stopped →
      exec (.cfgWrite a d) s = .next { s with mode := .error, err := 3 }) ∧
    (s.mode = .config → regOfAddr s.cmax a = none →
      exec (.cfgWrite a d) s = .next { s with mode := .error, err := 2 }) ∧
    (∀ r, s.mode = .config → regOfAddr s.cmax a = some r →
      ∃ t, exec (.cfgWrite a d) s = .next t ∧
        (t.readReg r).toNat = d.toNat % 2 ^ r.width ∧
        (∀ r', r' ≠ r → t.readReg r' = s.readReg r') ∧
        t.mode = .config ∧ t.err = s.err ∧ t.cmax = s.cmax ∧ t.nmax = s.nmax ∧
        s.SameRecords t ∧ s.SameOutputs t ∧ s.SameInputs t)

/-- R180: `LegalConfig()` is exactly its five items. -/
def Obligations.LegalConfigConditions : Prop :=
  ∀ s : State, s.legalConfig = true ↔
    (1 ≤ s.glob.nch.toNat ∧ s.glob.nch.toNat ≤ s.cmax) ∧
    (1 ≤ s.glob.bufFrames.toNat ∧ s.glob.bufFrames.toNat ≤ s.nmax) ∧
    (∀ c < s.glob.nch.toNat, 0 < (s.chanCfg c).trig.toNat ∧
      (s.chanCfg c).trig.toNat < (if s.glob.format = 0 then 0x7FFF else 0x7FFFFF)) ∧
    (∀ c < s.glob.nch.toNat,
      (s.chanCfg c).peakLen.toNat ≤ 2 ^ 31 - 1 ∧ (s.chanCfg c).waitLen.toNat ≤ 2 ^ 31 - 1 ∧
      (s.chanCfg c).aWaitBufs.toNat ≤ 2 ^ 31 - 1 ∧ (s.chanCfg c).noffDelay.toNat ≤ 2 ^ 31 - 1) ∧
    (s.glob.strategy = 0 → ∀ c < s.glob.nch.toNat,
      FiniteNonneg (s.chanCfg c).decay ∧ FiniteNonneg (s.chanCfg c).guardF)

/-- R179: START's checks in order and its effect, and that START is the only way into RUNNING: any step that
enters it was START, in CONFIG, on a legal configuration. -/
def Obligations.StartEffect : Prop :=
  decodeCommand ⟨0x30000000, []⟩ = .ok .start ∧
  ∀ s : State,
    (s.mode = .running ∨ s.mode = .stopped →
      exec .start s = .next { s with mode := .error, err := 5 }) ∧
    (s.mode = .config → s.legalConfig = false →
      exec .start s = .next { s with mode := .error, err := 4 }) ∧
    (s.mode = .config → s.legalConfig = true →
      ∃ t, exec .start s = .next t ∧ t.mode = .running ∧ t.err = s.err ∧
        (∀ c, t.chanState c =
          { noff := 0, rising := false, riseCount := 0, wait := 0, env := .fin false 0 0, prev := 0,
            prev2 := 0, phase := .idle, cd := 0, acc := 0 }) ∧
        s.SameRegs t ∧ s.SameOutputs t ∧ s.SameInputs t) ∧
    ∀ t : State, step s = .next t → s.mode ≠ .running → t.mode = .running →
      s.port.head? = some ⟨0x30000000, []⟩ ∧ s.mode = .config ∧ s.legalConfig = true

/-- R181 and R206: BUFFER's checks, in order, made before any work: a BUFFER outside RUNNING and one of the
wrong length record their code and change nothing else, neither a record nor the output stream. -/
def Obligations.BufferFaultsHaveNoEffect : Prop :=
  ∀ (p : List Byte) (s : State),
    (s.mode = .config ∨ s.mode = .stopped →
      exec (.buffer p) s = .next { s with mode := .error, err := 5 }) ∧
    (s.mode = .running →
      p.length ≠ s.glob.bufFrames.toNat * s.glob.nch.toNat * (if s.glob.format = 0 then 2 else 3) →
      exec (.buffer p) s = .next { s with mode := .error, err := 7 })

/-- R165, R166, R23 and R112: a BUFFER of the right length in RUNNING completes. Every active channel's record
is what its tick and then the run's detector make of it: strategy A's step on the channel's buffer peak where
`STRATEGY = 0`, strategy B's dispatch loop where it is 1. The other records are untouched, and the messages go
out channel by channel in ascending order, each channel's in the order emitted. Nothing else changes. -/
def Obligations.BufferStepsEveryChannel : Prop :=
  ∀ (p : List Byte) (s : State),
    s.mode = .running → s.glob.nch.toNat ≤ s.cmax →
    p.length = s.glob.bufFrames.toNat * s.glob.nch.toNat * (if s.glob.format = 0 then 2 else 3) →
    let lane (c : Nat) : Lane :=
      let ticked := tickNoteOff (s.chanCfg c) ⟨s.chanState c, []⟩
      if s.glob.strategy = 0 then
        envStepWith s.glob.format (s.chanCfg c) (bufferPeak s.glob p c) ticked
      else pwStep s.glob (s.chanCfg c) p c ticked
    ∃ t, exec (.buffer p) s = .next t ∧
      (∀ c < s.glob.nch.toNat, t.chanState c = (lane c).st) ∧
      (∀ c, s.glob.nch.toNat ≤ c → t.chanState c = s.chanState c) ∧
      t.out = s.out ++ (List.range s.glob.nch.toNat).flatMap (fun c => (lane c).msgs) ∧
      t.resp = s.resp ∧ t.mode = .running ∧ t.err = s.err ∧ s.SameRegs t ∧ s.SameInputs t

/-- R182: STOP in CONFIG, RUNNING and STOPPED: `MODE <- STOPPED` and nothing else. -/
def Obligations.StopEffect : Prop :=
  decodeCommand ⟨0x50000000, []⟩ = .ok .stop ∧
  ∀ s : State, s.mode ≠ .error → exec .stop s = .next { s with mode := .stopped } ∧
    (s.mode = .stopped → exec .stop s = .next s)

/-- R184: SOURCE_FAIL in CONFIG, RUNNING and STOPPED: ERROR with code 6 and nothing else. -/
def Obligations.SourceFailEffect : Prop :=
  decodeCommand ⟨0x60000000, []⟩ = .ok .sourceFail ∧
  ∀ s : State, s.mode ≠ .error → exec .sourceFail s = .next { s with mode := .error, err := 6 }

/-- R183 with R21: STATUS_READ in every mode answers one word, whose fields are those of R21, and changes no
state; the word is 0 after reset. -/
def Obligations.StatusReadAnswersStatus : Prop :=
  decodeCommand ⟨0x70000000, []⟩ = .ok .statusRead ∧ State.reset.status = 0 ∧
  ∀ s : State, exec .statusRead s = .next { s with resp := s.resp ++ [s.status] } ∧
    s.status.toNat = s.err.toNat * 2 ^ 8 +
      (match s.mode with | .config => 0 | .running => 1 | .stopped => 2 | .error => 3)

/-- R81, R82, R150, R151 and R57: the two message rows append the three bytes of their shape, whole, and
change nothing else. Executing a message row at all is the model's choice, log entry 2. -/
def Obligations.MessagesAreAppendedWhole : Prop :=
  ∀ (ch : BitVec 4) (note vel : BitVec 7) (s : State),
    exec (.non ch note vel) s = .next { s with out := s.out ++
      [⟨0x90 ||| ch.setWidth 8, note.setWidth 8, vel.setWidth 8⟩] } ∧
    exec (.noff ch note) s = .next { s with out := s.out ++
      [⟨0x90 ||| ch.setWidth 8, note.setWidth 8, 0⟩] }

/-- R150 and R151: what `noteOn(c, v)` and `noteOff(c)` emit, for every integer `v` and every register value,
and that no record changes. -/
def Obligations.SchedulerMessageBytes : Prop :=
  ∀ (k : ChanCfg) (v : Int) (l : Lane),
    (∃ b2 : Byte, (b2.toNat : Int) = v % 128 ∧
      noteOn k v l = ⟨l.st, l.msgs ++ [⟨0x90 ||| (k.midiCh &&& 0x0F), k.note &&& 0x7F, b2⟩]⟩) ∧
    noteOff k l = ⟨l.st, l.msgs ++ [⟨0x90 ||| (k.midiCh &&& 0x0F), k.note &&& 0x7F, 0x00⟩]⟩

/-- R185: the mode and the error code after each command, in every mode; "fault n" is ERROR with code `n`,
and an ignored command leaves both. -/
def Obligations.ModeCommandTable : Prop :=
  ∀ (s : State) (a : BitVec 12) (d : BitVec 64) (p : List Byte) (c : Command),
    let after (o : Host.Outcome State Fault Refusal) (m : Mode) (e : BitVec 8) : Prop :=
      ∃ t, o = .next t ∧ t.mode = m ∧ t.err = e
    (after (exec .reset s) .config 0) ∧
    (s.mode = .config →
      (after (exec (.cfgWrite a d) s) .config s.err ∨ after (exec (.cfgWrite a d) s) .error 2) ∧
      (after (exec .start s) .running s.err ∨ after (exec .start s) .error 4) ∧
      after (exec (.buffer p) s) .error 5 ∧ after (exec .stop s) .stopped s.err ∧
      after (exec .sourceFail s) .error 6) ∧
    (s.mode = .running →
      after (exec (.cfgWrite a d) s) .error 3 ∧ after (exec .start s) .error 5 ∧
      (after (exec (.buffer p) s) .running s.err ∨ after (exec (.buffer p) s) .error 7) ∧
      after (exec .stop s) .stopped s.err ∧ after (exec .sourceFail s) .error 6) ∧
    (s.mode = .stopped →
      after (exec (.cfgWrite a d) s) .error 3 ∧ after (exec .start s) .error 5 ∧
      after (exec (.buffer p) s) .error 5 ∧ exec .stop s = .next s ∧
      after (exec .sourceFail s) .error 6) ∧
    (s.mode = .error →
      exec (.cfgWrite a d) s = .next s ∧ exec .start s = .next s ∧ exec (.buffer p) s = .next s ∧
      exec .stop s = .next s ∧ exec .sourceFail s = .next s) ∧
    after (exec .statusRead s) s.mode s.err ∧
    ((∃ e, decodeCommand c = .error e) → s.mode ≠ .error → after (executeCommand c s) .error 1) ∧
    ((∃ e, decodeCommand c = .error e) → s.mode = .error → executeCommand c s = .next s)

/-! ### Faults and modes, over every command -/

/-- R205, R67: a step that enters ERROR has recorded one of the codes 1 to 7 of R201 and has changed nothing
else: no register, no record, no message, no answer. -/
def Obligations.FaultsArePrecise : Prop :=
  ∀ s t : State, s.mode ≠ .error → step s = .next t → t.mode = .error →
    1 ≤ t.err.toNat ∧ t.err.toNat ≤ 7 ∧
      t = { s with mode := .error, err := t.err, port := s.port.tail }

/-- R207: while `MODE = ERROR`, a command other than RESET and STATUS_READ is ignored, a RESET or STATUS_READ
word whose own encoding is illegal is without effect too, and STATUS_READ answers mode 3 with the first
fault's code. -/
def Obligations.ErrorModeIsSticky : Prop :=
  ∀ (s : State) (c : Command) (rest : List Command),
    s.mode = .error → s.emitSlot = none → s.port = c :: rest →
      ((c.word.toNat / 2 ^ 28 ≠ 1 ∧ c.word.toNat / 2 ^ 28 ≠ 7) ∨ (∃ e, decodeCommand c = .error e) →
        step s = .next { s with port := rest }) ∧
      (decodeCommand c = .ok .statusRead →
        step s = .next { s with
          port := rest, resp := s.resp ++ [BitVec.ofNat 32 (s.err.toNat * 2 ^ 8 + 3)] })

/-- R208: the only way out of ERROR is RESET, and out of STOPPED only RESET leads to CONFIG or RUNNING; it
leads to CONFIG with every register and every record at its reset value. -/
def Obligations.OnlyResetLeavesErrorAndStopped : Prop :=
  ∀ s t : State, step s = .next t → s.emitSlot = none →
    (s.mode = .error ∧ t.mode ≠ .error) ∨
      (s.mode = .stopped ∧ (t.mode = .config ∨ t.mode = .running)) →
    s.port.head? = some ⟨0x10000000, []⟩ ∧ t.mode = .config ∧ t.err = 0 ∧
      (∀ r, t.readReg r = 0) ∧ ∀ c, t.chanState c = ChanState.baseline

/-- R37: outside CONFIG no configuration register changes but by RESET, and a CFG_WRITE outside CONFIG and
ERROR is fault 3. -/
def Obligations.ConfigurationIsImmutableOutsideConfig : Prop :=
  ∀ s t : State, step s = .next t → s.mode ≠ .config →
    (s.port.head? ≠ some ⟨0x10000000, []⟩ → s.SameRegs t) ∧
    (∀ c a d, s.mode ≠ .error → s.emitSlot = none → s.port.head? = some c →
      decodeCommand c = .ok (.cfgWrite a d) → t.mode = .error ∧ t.err = 3)

/-- R57, R75, R155: every step only appends to the output stream and to the response port; a command appends
messages only if it is BUFFER in RUNNING, and an answer only if it is STATUS_READ, and then one. -/
def Obligations.OutputsAreAppendOnly : Prop :=
  ∀ s t : State, step s = .next t →
    (∃ ms, t.out = s.out ++ ms ∧
      (s.emitSlot = none → ms ≠ [] →
        s.mode = .running ∧ ∃ p, s.port.head? = some ⟨0x40000000, p⟩)) ∧
    (∃ ws, t.resp = s.resp ++ ws ∧
      (ws ≠ [] → ws = [s.status] ∧ s.port.head? = some ⟨0x70000000, []⟩))

/-- R82 ("The block never emits status 0x8n or any other status") and the zero bits of R81: every message a
step appends has status `0x9n` and bit 7 of its other two bytes clear. -/
def Obligations.EveryMessageIsAVoiceMessage : Prop :=
  ∀ s t : State, step s = .next t →
    ∀ m ∈ t.out.drop s.out.length,
      m.b0.toNat / 16 = 9 ∧ m.b1.toNat < 128 ∧ m.b2.toNat < 128

/-! ### The decoder -/

/-- R96: the S16_LE magnitude of every pair of bytes, and its corner cases. -/
def Obligations.Mag16IsAbsoluteValue : Prop :=
  (∀ b0 b1 : Byte,
    (b0.toNat + 256 * b1.toNat < 0x8000 → mag16 b0 b1 = b0.toNat + 256 * b1.toNat) ∧
    (0x8000 ≤ b0.toNat + 256 * b1.toNat → mag16 b0 b1 = 0x10000 - (b0.toNat + 256 * b1.toNat))) ∧
  mag16 0x00 0x00 = 0 ∧ mag16 0xFF 0x7F = 0x7FFF ∧ mag16 0xFF 0xFF = 1 ∧ mag16 0x01 0x80 = 0x7FFF ∧
  mag16 0x00 0x80 = 0x8000

/-- R97: the S24_3LE magnitude of every three bytes. -/
def Obligations.Mag24IsManualNegation : Prop :=
  ∀ b0 b1 b2 : Byte,
    let u := b0.toNat + 256 * b1.toNat + 65536 * b2.toNat
    mag24 b0 b1 b2 = if u > 0x7FFFFF then 0x1000000 - u else u

/-- R95: every magnitude is at most `M + 1`, in either format, for every buffer, channel and frame, and the
most negative sample of either format has that magnitude. -/
def Obligations.MagnitudesAreBounded : Prop :=
  mag16 0x00 0x80 = 0x7FFF + 1 ∧ mag24 0x00 0x00 0x80 = 0x7FFFFF + 1 ∧
  ∀ (g : GlobalCfg) (buf : List Byte) (c f : Nat),
    mag g buf c f ≤ (if g.format = 0 then 0x7FFF else 0x7FFFFF) + 1

/-- R52 and R98: the sample of channel `c` in frame `f` lies at byte offset `(f * NCH + c) * S`, inside the
buffer, and its magnitude is that of those bytes. -/
def Obligations.SampleLayout : Prop :=
  ∀ (g : GlobalCfg) (buf : List Byte) (c f : Nat),
    c < g.nch.toNat → f < g.bufFrames.toNat →
    buf.length = g.bufFrames.toNat * g.nch.toNat * (if g.format = 0 then 2 else 3) →
    (g.format = 0 → ∃ b0 b1,
      buf[(f * g.nch.toNat + c) * 2]? = some b0 ∧ buf[(f * g.nch.toNat + c) * 2 + 1]? = some b1 ∧
      mag g buf c f = mag16 b0 b1) ∧
    (g.format = 1 → ∃ b0 b1 b2,
      buf[(f * g.nch.toNat + c) * 3]? = some b0 ∧ buf[(f * g.nch.toNat + c) * 3 + 1]? = some b1 ∧
      buf[(f * g.nch.toNat + c) * 3 + 2]? = some b2 ∧ mag g buf c f = mag24 b0 b1 b2)

/-- R99: `BufferPeak(c)` is the largest magnitude over the `N >= 1` frames of the buffer. -/
def Obligations.BufferPeakIsTheMaximum : Prop :=
  ∀ (g : GlobalCfg) (buf : List Byte) (c : Nat), 1 ≤ g.bufFrames.toNat →
    (∃ f < g.bufFrames.toNat, mag g buf c f = bufferPeak g buf c) ∧
    ∀ f < g.bufFrames.toNat, mag g buf c f ≤ bufferPeak g buf c

/-- R100: `FindCrossing(c, lo, lo + n, thr)` is the first frame of the range whose magnitude strictly exceeds
the threshold, and NONE exactly where no frame of it does. -/
def Obligations.FindCrossingIsTheFirst : Prop :=
  ∀ (g : GlobalCfg) (buf : List Byte) (c thr lo n : Nat),
    (∀ f, findCrossing g buf c thr lo n = some f ↔
      lo ≤ f ∧ f < lo + n ∧ thr < mag g buf c f ∧
        ∀ j, lo ≤ j → j < f → mag g buf c j ≤ thr) ∧
    (findCrossing g buf c thr lo n = none ↔ ∀ j, lo ≤ j → j < lo + n → mag g buf c j ≤ thr)

/-- R101: `SubSpanPeak(c, lo, lo + n, run)` is the maximum of the running peak and the magnitudes of the
range; an empty range returns the running peak. -/
def Obligations.SubSpanPeakFoldsTheMaximum : Prop :=
  ∀ (g : GlobalCfg) (buf : List Byte) (c lo n run : Nat),
    subSpanPeak g buf c lo 0 run = run ∧ run ≤ subSpanPeak g buf c lo n run ∧
    (∀ f, lo ≤ f → f < lo + n → mag g buf c f ≤ subSpanPeak g buf c lo n run) ∧
    (subSpanPeak g buf c lo n run = run ∨
      ∃ f, lo ≤ f ∧ f < lo + n ∧ mag g buf c f = subSpanPeak g buf c lo n run)

/-! ### Binary64 -/

/-- R10, R114 and R115: `fmul` and `fadd` of finite operands round the exact product and sum to the nearest
binary64, a tie to the even significand, where the exact value is less than half an ulp beyond the largest
finite one, and are the infinity of its sign otherwise. With an infinite operand they are that infinity (a
product with the sign of the other operand, opposite infinities and a product with zero NaN), and NaN with a
NaN. The sign of a product is that of its operands, and an exact zero sum is negative only where both are. -/
def Obligations.FloatsRoundToNearestEven : Prop :=
  (∀ (a b : F64) (x y : ℚ), a.value = some x → b.value = some y →
    let rounds (r : F64) (q : ℚ) : Prop :=
      (|q| < 2 ^ 1024 - 2 ^ 970 → ∃ z, r.value = some z ∧
        ∀ (d : F64) (w : ℚ), d.value = some w →
          |q - z| ≤ |q - w| ∧ (|q - z| = |q - w| → w ≠ z → r.evenSignificand)) ∧
      (2 ^ 1024 - 2 ^ 970 ≤ |q| → r = .inf (decide (q < 0)))
    rounds (fmul a b) (x * y) ∧ rounds (fadd a b) (x + y) ∧
      (x + y = 0 → (fadd a b).negative = (a.negative && b.negative))) ∧
  (∀ a b : F64, fmul a b ≠ .nan → (fmul a b).negative = (a.negative != b.negative)) ∧
  (∀ (a : F64) (x : ℚ) (n : Bool), a.value = some x →
    (x = 0 → fmul a (.inf n) = .nan ∧ fmul (.inf n) a = .nan) ∧
    (x ≠ 0 → fmul a (.inf n) = .inf (decide (x < 0) != n) ∧
      fmul (.inf n) a = .inf (decide (x < 0) != n)) ∧
    fadd a (.inf n) = .inf n ∧ fadd (.inf n) a = .inf n) ∧
  (∀ m n : Bool, fmul (.inf m) (.inf n) = .inf (m != n) ∧
    fadd (.inf m) (.inf n) = if m = n then .inf m else .nan) ∧
  ∀ a : F64, fmul a .nan = .nan ∧ fmul .nan a = .nan ∧ fadd a .nan = .nan ∧ fadd .nan a = .nan

/-- R10 and R73: `f64` is exact for every integer with `|n| < 2^25`; `0x3FF0000000000000` is 1.0, and it and
`+0.0` are the constants of R115. `BitPatternsReadAsBinary64` says what every other pattern reads as. -/
def Obligations.IntegersConvertExactly : Prop :=
  (∀ n : Int, n.natAbs < 2 ^ 25 → (f64 n).value = some (n : ℚ)) ∧
  F64.one = F64.ofBits 0x3FF0000000000000 ∧ F64.one.value = some 1 ∧
  F64.posZero = F64.ofBits 0 ∧ F64.posZero.value = some 0

/-- R73: what every 64-bit pattern, as DECAY and GUARD hold one, reads as: "sign in bit 63, biased exponent in
bits 62 to 52, fraction in bits 51 to 0". An exponent field of 0 is zero or subnormal, and one of 2047 an
infinity or NaN. -/
def Obligations.BitPatternsReadAsBinary64 : Prop :=
  ∀ b : BitVec 64,
    let sign : ℕ := b.toNat / 2 ^ 63
    let exp : ℕ := b.toNat / 2 ^ 52 % 2 ^ 11
    let frac : ℕ := b.toNat % 2 ^ 52
    (exp = 0 → (F64.ofBits b).value = some ((-1) ^ sign * (frac : ℚ) / 2 ^ 1074)) ∧
    (0 < exp → exp < 2047 →
      (F64.ofBits b).value = some ((-1) ^ sign * ((2 ^ 52 + frac : ℕ) : ℚ) * 2 ^ exp / 2 ^ 1075)) ∧
    (exp < 2047 → (F64.ofBits b).negative = decide (sign = 1)) ∧
    (exp = 2047 → F64.ofBits b = if frac = 0 then .inf (decide (sign = 1)) else .nan)

/-- R10: a comparison is false if either side is NaN, compares the numbers of two finite sides (so +0.0
equals -0.0), and puts the infinities beyond every finite value. -/
def Obligations.ComparisonsAreIeee : Prop :=
  (∀ a : F64, flt a .nan = false ∧ flt .nan a = false) ∧
  (∀ (a b : F64) (x y : ℚ), a.value = some x → b.value = some y → (flt a b = true ↔ x < y)) ∧
  (∀ (a : F64) (x : ℚ), a.value = some x →
    flt a (.inf false) = true ∧ flt (.inf true) a = true ∧
    flt (.inf false) a = false ∧ flt a (.inf true) = false) ∧
  flt (.inf true) (.inf false) = true ∧ flt (.inf false) (.inf true) = false ∧
  ∀ n, flt (.inf n) (.inf n) = false

/-! ### Strategy A -/

/-- R114, R115 and R121: the IDLE step compares in binary64, then decays in every case, then shifts the
history; no message. -/
def Obligations.EnvIdleStep : Prop :=
  ∀ (fmt : BitVec 1) (k : ChanCfg) (p : Nat) (l : Lane),
    l.st.rising = false → l.st.wait = 0 →
    let enters := flt (fadd (f64 k.trig.toNat) l.st.env) (f64 p)
    let e := fmul l.st.env (F64.ofBits k.decay)
    envStepWith fmt k p l =
      ⟨{ l.st with
          rising := enters
          riseCount := if enters then 0 else l.st.riseCount
          env := if flt e F64.one then F64.posZero else e
          prev2 := l.st.prev
          prev := BitVec.ofNat 24 p }, l.msgs⟩

/-- R120 and R121: the WAITING step takes one off the wait counter and shifts the history, whatever the
buffer peak; no message. -/
def Obligations.EnvWaitingStep : Prop :=
  ∀ (fmt : BitVec 1) (k : ChanCfg) (p : Nat) (l : Lane),
    l.st.rising = false → l.st.wait ≠ 0 →
    ∃ w : BitVec 32, w.toNat + 1 = l.st.wait.toNat ∧
      envStepWith fmt k p l =
        ⟨{ l.st with wait := w, prev2 := l.st.prev, prev := BitVec.ofNat 24 p }, l.msgs⟩

/-- R116, R117 and R121: a RISING step that is no fall edge counts (saturating at 2^32 - 1) and shifts the
history; no message. Equal peaks are no fall. -/
def Obligations.EnvRisingStep : Prop :=
  ∀ (fmt : BitVec 1) (k : ChanCfg) (p : Nat) (l : Lane),
    l.st.rising = true →
    ¬(p < l.st.prev.toNat ∧ (k.flags.getLsbD 0 = true ∨ l.st.prev.toNat < l.st.prev2.toNat)) →
    ∃ n : BitVec 32, n.toNat = min (l.st.riseCount.toNat + 1) (2 ^ 32 - 1) ∧
      envStepWith fmt k p l =
        ⟨{ l.st with riseCount := n, prev2 := l.st.prev, prev := BitVec.ofNat 24 p }, l.msgs⟩

/-- R117, R118, R119 and R121: a fall edge leaves rising, starts the wait, sets the envelope, sends the
forced note-off where FORCE is set and a note-off is pending, then the note-on with the velocity of R119,
arms the note-off timer, and shifts the history. -/
def Obligations.EnvFallEdgeStep : Prop :=
  ∀ (fmt : BitVec 1) (k : ChanCfg) (p : Nat) (l : Lane),
    l.st.rising = true → p < l.st.prev.toNat →
    (k.flags.getLsbD 0 = true ∨ l.st.prev.toNat < l.st.prev2.toNat) →
    ∃ n : BitVec 32, n.toNat = min (l.st.riseCount.toNat + 1) (2 ^ 32 - 1) ∧
      envStepWith fmt k p l =
        ⟨{ l.st with
            rising := false
            riseCount := n
            wait := k.aWaitBufs
            env := fmul (f64 ((l.st.prev2.toNat : Int) - k.trig.toNat)) (F64.ofBits k.guardF)
            noff := k.noffDelay
            prev2 := l.st.prev
            prev := BitVec.ofNat 24 p },
          l.msgs ++ (if k.flags.getLsbD 1 = true ∧ l.st.noff ≠ 0 then [noteOffMsg k] else []) ++
            [noteOnMsg k (1 + Int.tdiv (126 * ((l.st.prev2.toNat : Int) - k.trig.toNat))
              ((if fmt = 0 then 0x7FFF else 0x7FFFFF) - k.trig.toNat))]⟩

/-- R119 and 00_scope.md R7: with `0 < T < M` and `prev2 <= M + 1`, strategy A's velocity lies in the range
R119 gives, is 1 at `prev2 = T` and 127 at `prev2 = M`, and its product fits a signed 32-bit value. -/
def Obligations.VelocityARange : Prop :=
  ∀ (fmt : BitVec 1) (k : ChanCfg) (st : ChanState),
    let M : Int := if fmt = 0 then 0x7FFF else 0x7FFFFF
    let T : Int := k.trig.toNat
    0 < T → T < M → (st.prev2.toNat : Int) ≤ M + 1 →
    (1 + Int.tdiv (-126 * T) (M - T) ≤ velocityA fmt k st ∧
      velocityA fmt k st ≤ 1 + Int.tdiv (126 * (M + 1 - T)) (M - T)) ∧
    ((st.prev2.toNat : Int) = T → velocityA fmt k st = 1) ∧
    ((st.prev2.toNat : Int) = M → velocityA fmt k st = 127) ∧
    -126 * M ≤ 126 * ((st.prev2.toNat : Int) - T) ∧
    126 * ((st.prev2.toNat : Int) - T) ≤ 126 * (M + 1) ∧ 126 * (M + 1) < 2 ^ 31

/-- R229: in the first buffer of a run strategy A emits nothing, and with `FAST = 0` nothing in the second
either. -/
def Obligations.FirstFallEdgeIsNotEarly : Prop :=
  ∀ (g : GlobalCfg) (k : ChanCfg) (c : Nat) (b1 b2 : List Byte), g.strategy = 0 →
    (channelRun g k c [b1] ChanState.baseline).msgs = [] ∧
    (k.flags.getLsbD 0 = false → (channelRun g k c [b1, b2] ChanState.baseline).msgs = [])

/-! ### Strategy B -/

/-- R132 and R133: the IDLE handler consumes the rest of the buffer where no frame crosses; else it consumes
through the first crossing frame `f` and enters PEAK with that frame's magnitude and the countdown
`PEAK_LEN`. -/
def Obligations.PwIdleHandler : Prop :=
  ∀ (g : GlobalCfg) (k : ChanCfg) (buf : List Byte) (c : Nat) (x : Scan),
    x.lane.st.phase = .idle → x.pos < g.bufFrames.toNat →
    ((∀ f, x.pos ≤ f → f < g.bufFrames.toNat → mag g buf c f ≤ k.trig.toNat) →
      pwPass g k buf c x = { x with pos := g.bufFrames.toNat }) ∧
    (∀ f, x.pos ≤ f → f < g.bufFrames.toNat → k.trig.toNat < mag g buf c f →
      (∀ j, x.pos ≤ j → j < f → mag g buf c j ≤ k.trig.toNat) →
      ∃ a : BitVec 24, a.toNat = mag g buf c f ∧
        pwPass g k buf c x =
          ⟨⟨{ x.lane.st with phase := .peak, acc := a, cd := k.peakLen }, x.lane.msgs⟩, f + 1⟩)

/-- R134: the PEAK handler scans `n = min(cd, N - pos)` frames; where the countdown is then above 0 it only
folds and counts, else it emits the note-on, enters WAIT with `WAIT_LEN` and arms the timer. The premises on
`acc` and `cd` are those 10_state.md R45 and R46 give in a run. -/
def Obligations.PwPeakHandler : Prop :=
  ∀ (g : GlobalCfg) (k : ChanCfg) (buf : List Byte) (c : Nat) (x : Scan),
    x.lane.st.phase = .peak → x.pos < g.bufFrames.toNat → x.lane.st.cd.toNat < 2 ^ 31 →
    let n := min x.lane.st.cd.toNat (g.bufFrames.toNat - x.pos)
    ∃ a d : BitVec 32, a.toNat = subSpanPeak g buf c x.pos n x.lane.st.acc.toNat ∧
      d.toNat + n = x.lane.st.cd.toNat ∧
      (d ≠ 0 → pwPass g k buf c x =
        ⟨⟨{ x.lane.st with acc := a.setWidth 24, cd := d }, x.lane.msgs⟩, x.pos + n⟩) ∧
      (d = 0 → pwPass g k buf c x =
        ⟨⟨{ x.lane.st with
              acc := a.setWidth 24, phase := .wait, cd := k.waitLen, noff := k.noffDelay },
          x.lane.msgs ++ [noteOnMsg k (1 + Int.fdiv (126 * ((a.toNat : Int) - k.trig.toNat))
            ((if g.format = 0 then 0x7FFF else 0x7FFFFF) - k.trig.toNat))]⟩, x.pos + n⟩)

/-- R135: the WAIT handler takes a whole buffer's frames off the countdown. Above zero it consumes the
buffer; at zero or below it returns to IDLE at `max(pos, N + cd)` with the countdown cleared. No message. -/
def Obligations.PwWaitHandler : Prop :=
  ∀ (g : GlobalCfg) (k : ChanCfg) (buf : List Byte) (c : Nat) (x : Scan),
    x.lane.st.phase = .wait → x.pos < g.bufFrames.toNat → x.lane.st.cd.toNat < 2 ^ 31 →
    g.bufFrames.toNat ≤ 2 ^ 24 →
    (g.bufFrames.toNat < x.lane.st.cd.toNat →
      ∃ d : BitVec 32, d.toNat + g.bufFrames.toNat = x.lane.st.cd.toNat ∧
        pwPass g k buf c x = ⟨⟨{ x.lane.st with cd := d }, x.lane.msgs⟩, g.bufFrames.toNat⟩) ∧
    (x.lane.st.cd.toNat ≤ g.bufFrames.toNat →
      pwPass g k buf c x =
        ⟨⟨{ x.lane.st with phase := .idle, cd := 0 }, x.lane.msgs⟩, max x.pos x.lane.st.cd.toNat⟩)

/-- R131 and R136: from a countdown that is not negative, the dispatch loop reaches `pos = N` within
`3N + 3` passes, each the handler of the phase at its start, and its result is the lane there. -/
def Obligations.DispatchLoopTerminates : Prop :=
  ∀ (g : GlobalCfg) (k : ChanCfg) (buf : List Byte) (c : Nat) (l : Lane),
    0 ≤ l.st.cd.toInt → 0 ≤ k.peakLen.toInt → 0 ≤ k.waitLen.toInt → g.bufFrames.toNat ≤ 2 ^ 24 →
    ∃ m, m ≤ 3 * g.bufFrames.toNat + 3 ∧
      (∀ j < m, ((pwPass g k buf c)^[j] ⟨l, 0⟩).pos < g.bufFrames.toNat) ∧
      ((pwPass g k buf c)^[m] ⟨l, 0⟩).pos = g.bufFrames.toNat ∧
      pwStep g k buf c l = ((pwPass g k buf c)^[m] ⟨l, 0⟩).lane

/-- R134: strategy B's velocity is in `1 .. 127` for a peak in `T .. M`; at `M + 1` it is 127 where
`M - T > 126` and at least 128 otherwise. -/
def Obligations.VelocityBRange : Prop :=
  ∀ (fmt : BitVec 1) (k : ChanCfg) (acc : BitVec 24),
    let M : Int := if fmt = 0 then 0x7FFF else 0x7FFFFF
    let T : Int := k.trig.toNat
    0 < T → T < M → T ≤ acc.toNat →
    ((acc.toNat : Int) ≤ M → 1 ≤ velocityB fmt k acc ∧ velocityB fmt k acc ≤ 127) ∧
    ((acc.toNat : Int) = M + 1 →
      (126 < M - T → velocityB fmt k acc = 127) ∧ (M - T ≤ 126 → 128 ≤ velocityB fmt k acc))

/-- R137, 2: while the wait window covers the whole buffer, no note-on is emitted whatever the samples; only
the countdown moves. -/
def Obligations.NoNoteOnInsideWaitWindow : Prop :=
  ∀ (g : GlobalCfg) (k : ChanCfg) (buf : List Byte) (c : Nat) (l : Lane),
    l.st.phase = .wait → 1 ≤ g.bufFrames.toNat → g.bufFrames.toNat ≤ 2 ^ 24 →
    g.bufFrames.toNat < l.st.cd.toNat → l.st.cd.toNat < 2 ^ 31 →
    ∃ d : BitVec 32, d.toNat + g.bufFrames.toNat = l.st.cd.toNat ∧
      pwStep g k buf c l = ⟨{ l.st with cd := d }, l.msgs⟩

/-! ### Scheduler, sequencer, and whole-channel rules -/

/-- R152 and R153: arming overwrites the count and emits nothing; the tick takes one off a pending count,
fires the note-off exactly on the step from 1 to 0, and does nothing at 0. -/
def Obligations.NoteOffTimerOperations : Prop :=
  ∀ (k : ChanCfg) (d : BitVec 32) (l : Lane),
    armNoteOff d l = ⟨{ l.st with noff := d }, l.msgs⟩ ∧
    (l.st.noff.toNat = 0 → tickNoteOff k l = l) ∧
    (l.st.noff.toNat = 1 →
      tickNoteOff k l = ⟨{ l.st with noff := 0 }, l.msgs ++ [noteOffMsg k]⟩) ∧
    (2 ≤ l.st.noff.toNat → ∃ n : BitVec 32, n.toNat + 1 = l.st.noff.toNat ∧
      tickNoteOff k l = ⟨{ l.st with noff := n }, l.msgs⟩)

/-- R154, the timer law: a channel with a count of `d >= 1`, not re-armed before its `d`-th buffer, emits
nothing in the first `d - 1` buffers, and a note-off as its first message in the `d`-th. -/
def Obligations.NoteOffFiresOncePerArm : Prop :=
  ∀ (g : GlobalCfg) (k : ChanCfg) (c : Nat) (st : ChanState) (early : List (List Byte))
    (last : List Byte),
    st.noff.toNat = early.length + 1 → AllQuiet g k c early st →
    (channelRun g k c early st).msgs = [] ∧
    (channelRun g k c early st).st.noff = 1 ∧
    ∃ more, (channelStep g k last c (channelRun g k c early st).st).msgs = noteOffMsg k :: more ∧
      (DetectorQuiet g k c last (channelRun g k c early st).st →
        more = [] ∧ (channelStep g k last c (channelRun g k c early st).st).st.noff = 0)

/-- R168: under strategy A a channel emits at most three messages per buffer; under strategy B at most one
note-off and at most `N` note-ons. -/
def Obligations.MessagesPerBufferAreBounded : Prop :=
  ∀ (g : GlobalCfg) (k : ChanCfg) (buf : List Byte) (c : Nat) (st : ChanState),
    (g.strategy = 0 → (channelStep g k buf c st).msgs.length ≤ 3) ∧
    (g.strategy = 1 → (channelStep g k buf c st).msgs.length ≤
      (tickNoteOff k ⟨st, []⟩).msgs.length + g.bufFrames.toNat ∧
      (tickNoteOff k ⟨st, []⟩).msgs.length ≤ 1)

/-- R122, 4, R137, 4 and R153: silence. On an all-zero buffer an idle channel (strategy A: with `env = +0.0`
and a decay factor START accepts) emits nothing but the timer's note-off, where the count goes from 1 to 0. Of
its record only `noff` counts down and, under strategy A, the peak history takes a 0. -/
def Obligations.SilenceChangesNothing : Prop :=
  ∀ (g : GlobalCfg) (k : ChanCfg) (buf : List Byte) (c : Nat) (st : ChanState), (∀ b ∈ buf, b = 0) →
    ∃ n : BitVec 32, n.toNat = st.noff.toNat - 1 ∧
      let timer : List Msg := if st.noff.toNat = 1 then [noteOffMsg k] else []
      (g.strategy = 0 → st.rising = false → st.wait = 0 → st.env = F64.posZero → FiniteNonneg k.decay →
        channelStep g k buf c st = ⟨{ st with noff := n, prev2 := st.prev, prev := 0 }, timer⟩) ∧
      (g.strategy = 1 → st.phase = .idle → channelStep g k buf c st = ⟨{ st with noff := n }, timer⟩)

/-- R49 and R103: what a BUFFER does to channel `c` depends on nothing but the global registers, that
channel's registers and record, and that channel's samples. -/
def Obligations.ChannelsAreIndependent : Prop :=
  ∀ (s s' : State) (p p' : List Byte) (c : Nat) (t t' : State),
    s.mode = .running → s'.mode = .running →
    s.glob.nch.toNat ≤ s.cmax → s.glob.nch.toNat ≤ s'.cmax → c < s.glob.nch.toNat →
    s'.glob = s.glob → s'.chanCfg c = s.chanCfg c → s'.chanState c = s.chanState c →
    p.length = bufferBytes s.glob → p'.length = bufferBytes s.glob →
    (∀ f < s.glob.bufFrames.toNat, ∀ j < sampleBytes s.glob.format,
      p'[sampleOffset s.glob c f + j]? = p[sampleOffset s.glob c f + j]?) →
    exec (.buffer p) s = .next t → exec (.buffer p') s' = .next t' →
    t'.chanState c = t.chanState c ∧
      (channelStep s'.glob (s'.chanCfg c) p' c (s'.chanState c)).msgs =
        (channelStep s.glob (s.chanCfg c) p c (s.chanState c)).msgs

/-! ### Invariants -/

/-- The invariant holds after reset, for every legal `CMAX` and `NMAX`. -/
def Obligations.ResetMeetsInvariant : Prop :=
  (∀ cmax nmax, Config.legalParams cmax nmax → (State.resetWith cmax nmax).Inv) ∧ State.reset.Inv

/-- R50, with R20, R23, R40, R42, R45, R46 and R201: every step of every command, and every offered message,
keeps the invariant, from every state that has it. -/
def Obligations.EveryStepKeepsInvariant : Prop :=
  ∀ s t : State, s.Inv → step s = .next t → t.Inv

/-- 00_scope.md R7 and R3: no step changes `CMAX` or `NMAX`, and while a run goes on no step changes its
strategy or its format. -/
def Obligations.ParametersAndOptionsAreFixed : Prop :=
  ∀ s t : State, step s = .next t →
    t.cmax = s.cmax ∧ t.nmax = s.nmax ∧
    (s.mode = .running → t.mode = .running →
      t.glob.strategy = s.glob.strategy ∧ t.glob.format = s.glob.format)
end

