-- ==== Sys2Proof/Laws/Decode.lean ====
section
/-! SUPPORT. What the fields of a command word are, and everything the command decoder can answer: proofs
cite these lemmas and do not unfold the decoder. -/

namespace Sys2Proof

@[simp] theorem opField_mkWord (op : BitVec 4) (a : BitVec 12) : opField (mkWord op a) = op := by
  unfold opField mkWord
  ext i hi
  simp; grind

@[simp] theorem rsvField_mkWord (op : BitVec 4) (a : BitVec 12) : rsvField (mkWord op a) = 0 := by
  unfold rsvField mkWord
  ext i hi
  simp; grind

@[simp] theorem addrField_mkWord (op : BitVec 4) (a : BitVec 12) : addrField (mkWord op a) = a := by
  unfold addrField mkWord
  ext i hi
  simp; grind

/-- A word with `RSV` 0 is made of its opcode and address. -/
theorem mkWord_fields (w : Word) (h : rsvField w = 0) : mkWord (opField w) (addrField w) = w := by
  have h' : ∀ i, 12 ≤ i → i < 28 → w[i]? = some false := by
    intro i h1 h2
    have := congrArg (fun v : BitVec 16 => v.getLsbD (i - 12)) h
    simp [rsvField] at this
    grind
  unfold mkWord opField addrField
  ext i hi
  simp; grind

theorem opField_toNat (w : Word) : (opField w).toNat = w.toNat / 2 ^ 28 := by
  unfold opField
  have := w.isLt
  simp [BitVec.extractLsb'_toNat, Nat.shiftRight_eq_div_pow]
  omega

theorem rsvField_toNat (w : Word) : (rsvField w).toNat = w.toNat / 2 ^ 12 % 2 ^ 16 := by
  unfold rsvField
  simp [BitVec.extractLsb'_toNat, Nat.shiftRight_eq_div_pow]

theorem addrField_toNat (w : Word) : (addrField w).toNat = w.toNat % 2 ^ 12 := by
  unfold addrField
  simp [BitVec.extractLsb'_toNat]

/-- Putting the eight bytes of a datum together gives it back. -/
theorem append_dataBytes (d : BitVec 64) :
    d.extractLsb' 56 8 ++ d.extractLsb' 48 8 ++ d.extractLsb' 40 8 ++ d.extractLsb' 32 8 ++
      d.extractLsb' 24 8 ++ d.extractLsb' 16 8 ++ d.extractLsb' 8 8 ++ d.extractLsb' 0 8 = d := by
  ext i hi
  simp; grind

/-- The bytes of a datum put together from eight bytes are those. -/
theorem dataBytes_append (p0 p1 p2 p3 p4 p5 p6 p7 : Byte) :
    dataBytes (p7 ++ p6 ++ p5 ++ p4 ++ p3 ++ p2 ++ p1 ++ p0) = [p0, p1, p2, p3, p4, p5, p6, p7] := by
  simp only [dataBytes, List.cons.injEq, and_true]
  refine ⟨?_, ?_, ?_, ?_, ?_, ?_, ?_, ?_⟩ <;> (ext i hi; simp; grind)

theorem decodeBare_ok {c : Command} {i j : Instr} (h : decodeBare c j = .ok i) :
    i = j ∧ addrField c.word = 0 ∧ c.payload = [] := by
  unfold decodeBare at h
  split at h
  · cases h
  · split at h
    · cases h
    · simp_all

theorem decodeCfgWrite_ok {c : Command} {i : Instr} (h : decodeCfgWrite c = .ok i) :
    ∃ p0 p1 p2 p3 p4 p5 p6 p7, c.payload = [p0, p1, p2, p3, p4, p5, p6, p7] ∧
      i = .cfgWrite (addrField c.word) (p7 ++ p6 ++ p5 ++ p4 ++ p3 ++ p2 ++ p1 ++ p0) := by
  unfold decodeCfgWrite at h
  split at h
  · rename_i p0 p1 p2 p3 p4 p5 p6 p7 hp
    injection h with h
    exact ⟨p0, p1, p2, p3, p4, p5, p6, p7, hp, h.symm⟩
  · cases h

/-- Everything the command decoder can accept. -/
theorem decodeCommand_ok {c : Command} {i : Instr} (h : decodeCommand c = .ok i) :
    rsvField c.word = 0 ∧
    ((i = .reset ∧ opField c.word = 1 ∧ addrField c.word = 0 ∧ c.payload = []) ∨
     (opField c.word = 2 ∧ decodeCfgWrite c = .ok i) ∨
     (i = .start ∧ opField c.word = 3 ∧ addrField c.word = 0 ∧ c.payload = []) ∨
     (i = .buffer c.payload ∧ opField c.word = 4 ∧ addrField c.word = 0) ∨
     (i = .stop ∧ opField c.word = 5 ∧ addrField c.word = 0 ∧ c.payload = []) ∨
     (i = .sourceFail ∧ opField c.word = 6 ∧ addrField c.word = 0 ∧ c.payload = []) ∨
     (i = .statusRead ∧ opField c.word = 7 ∧ addrField c.word = 0 ∧ c.payload = [])) := by
  unfold decodeCommand at h
  split at h
  · cases h
  · rename_i hr
    refine ⟨by simpa using hr, ?_⟩
    have key : ∀ n : BitVec 4, (opField c.word).toNat = n.toNat → opField c.word = n :=
      fun n hn => BitVec.eq_of_toNat_eq hn
    split at h <;> rename_i ho
    · have := decodeBare_ok h; simp [key 1 ho, this]
    · simp [key 2 ho, h]
    · have := decodeBare_ok h; simp [key 3 ho, this]
    · have := key 4 ho
      unfold decodeBuffer at h
      split at h
      · cases h
      · simp_all
    · have := decodeBare_ok h; simp [key 5 ho, this]
    · have := decodeBare_ok h; simp [key 6 ho, this]
    · have := decodeBare_ok h; simp [key 7 ho, this]
    · cases h

/-- No command decodes to a message. -/
theorem decodeCommand_not_message {c : Command} {i : Instr} (h : decodeCommand c = .ok i) :
    (∀ ch n v, i ≠ .non ch n v) ∧ ∀ ch n, i ≠ .noff ch n := by
  obtain ⟨_, h⟩ := decodeCommand_ok h
  rcases h with ⟨rfl, _⟩ | ⟨_, h⟩ | ⟨rfl, _⟩ | ⟨rfl, _⟩ | ⟨rfl, _⟩ | ⟨rfl, _⟩ | ⟨rfl, _⟩ <;>
    try simp
  obtain ⟨p0, p1, p2, p3, p4, p5, p6, p7, _, rfl⟩ := decodeCfgWrite_ok h
  simp

/-- What the encoder writes for CFG_WRITE decodes to it. -/
theorem decodeCommand_cfgWrite (a : BitVec 12) (d : BitVec 64) :
    decodeCommand ⟨mkWord 2 a, dataBytes d⟩ = .ok (.cfgWrite a d) := by
  simp [decodeCommand, decodeCfgWrite, dataBytes, append_dataBytes]

end Sys2Proof
end

