-- ==== Sys2Proof/Laws/State.lean ====
section
/-! SUPPORT. One lemma per field per named update of the state, true by `rfl`, so that no later proof unfolds
a record update; and what the reads of the channel bank give after each update of it. -/

namespace Sys2Proof.Machine

@[simp] theorem State.setMode_mode (s : State) (m : Mode) :
    (s.setMode m).mode = m := rfl
@[simp] theorem State.setMode_err (s : State) (m : Mode) :
    (s.setMode m).err = s.err := rfl
@[simp] theorem State.setMode_glob (s : State) (m : Mode) :
    (s.setMode m).glob = s.glob := rfl
@[simp] theorem State.setMode_bank (s : State) (m : Mode) :
    (s.setMode m).bank = s.bank := rfl
@[simp] theorem State.setMode_nmax (s : State) (m : Mode) :
    (s.setMode m).nmax = s.nmax := rfl
@[simp] theorem State.setMode_out (s : State) (m : Mode) :
    (s.setMode m).out = s.out := rfl
@[simp] theorem State.setMode_resp (s : State) (m : Mode) :
    (s.setMode m).resp = s.resp := rfl
@[simp] theorem State.setMode_port (s : State) (m : Mode) :
    (s.setMode m).port = s.port := rfl
@[simp] theorem State.setMode_emitSlot (s : State) (m : Mode) :
    (s.setMode m).emitSlot = s.emitSlot := rfl

@[simp] theorem State.setGlob_mode (s : State) (g : GlobalCfg) :
    (s.setGlob g).mode = s.mode := rfl
@[simp] theorem State.setGlob_err (s : State) (g : GlobalCfg) :
    (s.setGlob g).err = s.err := rfl
@[simp] theorem State.setGlob_glob (s : State) (g : GlobalCfg) :
    (s.setGlob g).glob = g := rfl
@[simp] theorem State.setGlob_bank (s : State) (g : GlobalCfg) :
    (s.setGlob g).bank = s.bank := rfl
@[simp] theorem State.setGlob_nmax (s : State) (g : GlobalCfg) :
    (s.setGlob g).nmax = s.nmax := rfl
@[simp] theorem State.setGlob_out (s : State) (g : GlobalCfg) :
    (s.setGlob g).out = s.out := rfl
@[simp] theorem State.setGlob_resp (s : State) (g : GlobalCfg) :
    (s.setGlob g).resp = s.resp := rfl
@[simp] theorem State.setGlob_port (s : State) (g : GlobalCfg) :
    (s.setGlob g).port = s.port := rfl
@[simp] theorem State.setGlob_emitSlot (s : State) (g : GlobalCfg) :
    (s.setGlob g).emitSlot = s.emitSlot := rfl

@[simp] theorem State.setChanCfg_mode (s : State) (c : Nat) (k : ChanCfg) :
    (s.setChanCfg c k).mode = s.mode := rfl
@[simp] theorem State.setChanCfg_err (s : State) (c : Nat) (k : ChanCfg) :
    (s.setChanCfg c k).err = s.err := rfl
@[simp] theorem State.setChanCfg_glob (s : State) (c : Nat) (k : ChanCfg) :
    (s.setChanCfg c k).glob = s.glob := rfl
@[simp] theorem State.setChanCfg_bank (s : State) (c : Nat) (k : ChanCfg) :
    (s.setChanCfg c k).bank = s.bank.modify c (fun ch => { ch with cfg := k }) := rfl
@[simp] theorem State.setChanCfg_nmax (s : State) (c : Nat) (k : ChanCfg) :
    (s.setChanCfg c k).nmax = s.nmax := rfl
@[simp] theorem State.setChanCfg_out (s : State) (c : Nat) (k : ChanCfg) :
    (s.setChanCfg c k).out = s.out := rfl
@[simp] theorem State.setChanCfg_resp (s : State) (c : Nat) (k : ChanCfg) :
    (s.setChanCfg c k).resp = s.resp := rfl
@[simp] theorem State.setChanCfg_port (s : State) (c : Nat) (k : ChanCfg) :
    (s.setChanCfg c k).port = s.port := rfl
@[simp] theorem State.setChanCfg_emitSlot (s : State) (c : Nat) (k : ChanCfg) :
    (s.setChanCfg c k).emitSlot = s.emitSlot := rfl

@[simp] theorem State.setChanState_mode (s : State) (c : Nat) (r : ChanState) :
    (s.setChanState c r).mode = s.mode := rfl
@[simp] theorem State.setChanState_err (s : State) (c : Nat) (r : ChanState) :
    (s.setChanState c r).err = s.err := rfl
@[simp] theorem State.setChanState_glob (s : State) (c : Nat) (r : ChanState) :
    (s.setChanState c r).glob = s.glob := rfl
@[simp] theorem State.setChanState_bank (s : State) (c : Nat) (r : ChanState) :
    (s.setChanState c r).bank = s.bank.modify c (fun ch => { ch with st := r }) := rfl
@[simp] theorem State.setChanState_nmax (s : State) (c : Nat) (r : ChanState) :
    (s.setChanState c r).nmax = s.nmax := rfl
@[simp] theorem State.setChanState_out (s : State) (c : Nat) (r : ChanState) :
    (s.setChanState c r).out = s.out := rfl
@[simp] theorem State.setChanState_resp (s : State) (c : Nat) (r : ChanState) :
    (s.setChanState c r).resp = s.resp := rfl
@[simp] theorem State.setChanState_port (s : State) (c : Nat) (r : ChanState) :
    (s.setChanState c r).port = s.port := rfl
@[simp] theorem State.setChanState_emitSlot (s : State) (c : Nat) (r : ChanState) :
    (s.setChanState c r).emitSlot = s.emitSlot := rfl

@[simp] theorem State.emit_mode (s : State) (ms : List Msg) :
    (s.emit ms).mode = s.mode := rfl
@[simp] theorem State.emit_err (s : State) (ms : List Msg) :
    (s.emit ms).err = s.err := rfl
@[simp] theorem State.emit_glob (s : State) (ms : List Msg) :
    (s.emit ms).glob = s.glob := rfl
@[simp] theorem State.emit_bank (s : State) (ms : List Msg) :
    (s.emit ms).bank = s.bank := rfl
@[simp] theorem State.emit_nmax (s : State) (ms : List Msg) :
    (s.emit ms).nmax = s.nmax := rfl
@[simp] theorem State.emit_out (s : State) (ms : List Msg) :
    (s.emit ms).out = s.out ++ ms := rfl
@[simp] theorem State.emit_resp (s : State) (ms : List Msg) :
    (s.emit ms).resp = s.resp := rfl
@[simp] theorem State.emit_port (s : State) (ms : List Msg) :
    (s.emit ms).port = s.port := rfl
@[simp] theorem State.emit_emitSlot (s : State) (ms : List Msg) :
    (s.emit ms).emitSlot = s.emitSlot := rfl

@[simp] theorem State.respond_mode (s : State) (w : Word) :
    (s.respond w).mode = s.mode := rfl
@[simp] theorem State.respond_err (s : State) (w : Word) :
    (s.respond w).err = s.err := rfl
@[simp] theorem State.respond_glob (s : State) (w : Word) :
    (s.respond w).glob = s.glob := rfl
@[simp] theorem State.respond_bank (s : State) (w : Word) :
    (s.respond w).bank = s.bank := rfl
@[simp] theorem State.respond_nmax (s : State) (w : Word) :
    (s.respond w).nmax = s.nmax := rfl
@[simp] theorem State.respond_out (s : State) (w : Word) :
    (s.respond w).out = s.out := rfl
@[simp] theorem State.respond_resp (s : State) (w : Word) :
    (s.respond w).resp = s.resp ++ [w] := rfl
@[simp] theorem State.respond_port (s : State) (w : Word) :
    (s.respond w).port = s.port := rfl
@[simp] theorem State.respond_emitSlot (s : State) (w : Word) :
    (s.respond w).emitSlot = s.emitSlot := rfl

@[simp] theorem State.baselineAll_mode (s : State) :
    (s.baselineAll).mode = s.mode := rfl
@[simp] theorem State.baselineAll_err (s : State) :
    (s.baselineAll).err = s.err := rfl
@[simp] theorem State.baselineAll_glob (s : State) :
    (s.baselineAll).glob = s.glob := rfl
@[simp] theorem State.baselineAll_bank (s : State) :
    (s.baselineAll).bank = s.bank.map (fun ch => { ch with st := ChanState.baseline }) := rfl
@[simp] theorem State.baselineAll_nmax (s : State) :
    (s.baselineAll).nmax = s.nmax := rfl
@[simp] theorem State.baselineAll_out (s : State) :
    (s.baselineAll).out = s.out := rfl
@[simp] theorem State.baselineAll_resp (s : State) :
    (s.baselineAll).resp = s.resp := rfl
@[simp] theorem State.baselineAll_port (s : State) :
    (s.baselineAll).port = s.port := rfl
@[simp] theorem State.baselineAll_emitSlot (s : State) :
    (s.baselineAll).emitSlot = s.emitSlot := rfl

@[simp] theorem State.clear_mode (s : State) :
    (s.clear).mode = .config := rfl
@[simp] theorem State.clear_err (s : State) :
    (s.clear).err = 0 := rfl
@[simp] theorem State.clear_glob (s : State) :
    (s.clear).glob = GlobalCfg.zero := rfl
@[simp] theorem State.clear_bank (s : State) :
    (s.clear).bank = s.bank.map (fun _ => Channel.zero) := rfl
@[simp] theorem State.clear_nmax (s : State) :
    (s.clear).nmax = s.nmax := rfl
@[simp] theorem State.clear_out (s : State) :
    (s.clear).out = s.out := rfl
@[simp] theorem State.clear_resp (s : State) :
    (s.clear).resp = s.resp := rfl
@[simp] theorem State.clear_port (s : State) :
    (s.clear).port = s.port := rfl
@[simp] theorem State.clear_emitSlot (s : State) :
    (s.clear).emitSlot = s.emitSlot := rfl

@[simp] theorem State.popCommand_mode (s : State) :
    (s.popCommand).mode = s.mode := rfl
@[simp] theorem State.popCommand_err (s : State) :
    (s.popCommand).err = s.err := rfl
@[simp] theorem State.popCommand_glob (s : State) :
    (s.popCommand).glob = s.glob := rfl
@[simp] theorem State.popCommand_bank (s : State) :
    (s.popCommand).bank = s.bank := rfl
@[simp] theorem State.popCommand_nmax (s : State) :
    (s.popCommand).nmax = s.nmax := rfl
@[simp] theorem State.popCommand_out (s : State) :
    (s.popCommand).out = s.out := rfl
@[simp] theorem State.popCommand_resp (s : State) :
    (s.popCommand).resp = s.resp := rfl
@[simp] theorem State.popCommand_port (s : State) :
    (s.popCommand).port = s.port.tail := rfl
@[simp] theorem State.popCommand_emitSlot (s : State) :
    (s.popCommand).emitSlot = s.emitSlot := rfl

@[simp] theorem State.takeMessage_mode (s : State) :
    (s.takeMessage).mode = s.mode := rfl
@[simp] theorem State.takeMessage_err (s : State) :
    (s.takeMessage).err = s.err := rfl
@[simp] theorem State.takeMessage_glob (s : State) :
    (s.takeMessage).glob = s.glob := rfl
@[simp] theorem State.takeMessage_bank (s : State) :
    (s.takeMessage).bank = s.bank := rfl
@[simp] theorem State.takeMessage_nmax (s : State) :
    (s.takeMessage).nmax = s.nmax := rfl
@[simp] theorem State.takeMessage_out (s : State) :
    (s.takeMessage).out = s.out := rfl
@[simp] theorem State.takeMessage_resp (s : State) :
    (s.takeMessage).resp = s.resp := rfl
@[simp] theorem State.takeMessage_port (s : State) :
    (s.takeMessage).port = s.port := rfl
@[simp] theorem State.takeMessage_emitSlot (s : State) :
    (s.takeMessage).emitSlot = none := rfl

theorem State.raise_of_error {s : State} (n : BitVec 8) (h : s.mode = .error) : s.raise n = s := by
  simp [State.raise, h]

theorem State.raise_of_not_error {s : State} (n : BitVec 8) (h : s.mode ≠ .error) :
    s.raise n = { s with mode := .error, err := n } := by
  simp [State.raise, h]

@[simp] theorem State.raise_mode (s : State) (n : BitVec 8) : (s.raise n).mode = .error := by
  by_cases h : s.mode = .error <;> simp [State.raise, h]

@[simp] theorem State.raise_glob (s : State) (n : BitVec 8) : (s.raise n).glob = s.glob := by
  by_cases h : s.mode = .error <;> simp [State.raise, h]
@[simp] theorem State.raise_bank (s : State) (n : BitVec 8) : (s.raise n).bank = s.bank := by
  by_cases h : s.mode = .error <;> simp [State.raise, h]
@[simp] theorem State.raise_nmax (s : State) (n : BitVec 8) : (s.raise n).nmax = s.nmax := by
  by_cases h : s.mode = .error <;> simp [State.raise, h]
@[simp] theorem State.raise_out (s : State) (n : BitVec 8) : (s.raise n).out = s.out := by
  by_cases h : s.mode = .error <;> simp [State.raise, h]
@[simp] theorem State.raise_resp (s : State) (n : BitVec 8) : (s.raise n).resp = s.resp := by
  by_cases h : s.mode = .error <;> simp [State.raise, h]
@[simp] theorem State.raise_port (s : State) (n : BitVec 8) : (s.raise n).port = s.port := by
  by_cases h : s.mode = .error <;> simp [State.raise, h]
@[simp] theorem State.raise_emitSlot (s : State) (n : BitVec 8) : (s.raise n).emitSlot = s.emitSlot := by
  by_cases h : s.mode = .error <;> simp [State.raise, h]

/-! ### The channel bank -/

/-- Two states with the same bank have the same registers, records and number of channels. -/
theorem State.reads_of_bank {s t : State} (h : t.bank = s.bank) :
    t.cmax = s.cmax ∧ (∀ c, t.chanCfg c = s.chanCfg c) ∧ ∀ c, t.chanState c = s.chanState c := by
  simp [State.cmax, State.chanCfg, State.chanState, h]

@[simp] theorem State.setChanState_cmax (s : State) (c : Nat) (r : ChanState) :
    (s.setChanState c r).cmax = s.cmax := by simp [State.cmax]

@[simp] theorem State.setChanCfg_cmax (s : State) (c : Nat) (k : ChanCfg) :
    (s.setChanCfg c k).cmax = s.cmax := by simp [State.cmax]

@[simp] theorem State.baselineAll_cmax (s : State) : s.baselineAll.cmax = s.cmax := by
  simp [State.cmax]

@[simp] theorem State.clear_cmax (s : State) : s.clear.cmax = s.cmax := by simp [State.cmax]

@[simp] theorem State.emit_cmax (s : State) (ms : List Msg) : (s.emit ms).cmax = s.cmax := rfl

@[simp] theorem State.emit_chanCfg (s : State) (ms : List Msg) (c : Nat) :
    (s.emit ms).chanCfg c = s.chanCfg c := rfl

@[simp] theorem State.emit_chanState (s : State) (ms : List Msg) (c : Nat) :
    (s.emit ms).chanState c = s.chanState c := rfl

@[simp] theorem State.setMode_cmax (s : State) (m : Mode) : (s.setMode m).cmax = s.cmax := rfl

@[simp] theorem State.setMode_chanCfg (s : State) (m : Mode) (c : Nat) :
    (s.setMode m).chanCfg c = s.chanCfg c := rfl

@[simp] theorem State.setMode_chanState (s : State) (m : Mode) (c : Nat) :
    (s.setMode m).chanState c = s.chanState c := rfl

@[simp] theorem State.setGlob_cmax (s : State) (g : GlobalCfg) : (s.setGlob g).cmax = s.cmax := rfl

@[simp] theorem State.setGlob_chanCfg (s : State) (g : GlobalCfg) (c : Nat) :
    (s.setGlob g).chanCfg c = s.chanCfg c := rfl

@[simp] theorem State.setGlob_chanState (s : State) (g : GlobalCfg) (c : Nat) :
    (s.setGlob g).chanState c = s.chanState c := rfl

@[simp] theorem State.popCommand_cmax (s : State) : s.popCommand.cmax = s.cmax := rfl

@[simp] theorem State.popCommand_chanCfg (s : State) (c : Nat) :
    s.popCommand.chanCfg c = s.chanCfg c := rfl

@[simp] theorem State.popCommand_chanState (s : State) (c : Nat) :
    s.popCommand.chanState c = s.chanState c := rfl

@[simp] theorem State.takeMessage_cmax (s : State) : s.takeMessage.cmax = s.cmax := rfl

@[simp] theorem State.takeMessage_chanCfg (s : State) (c : Nat) :
    s.takeMessage.chanCfg c = s.chanCfg c := rfl

@[simp] theorem State.takeMessage_chanState (s : State) (c : Nat) :
    s.takeMessage.chanState c = s.chanState c := rfl

@[simp] theorem State.raise_cmax (s : State) (n : BitVec 8) : (s.raise n).cmax = s.cmax := by
  simp [State.cmax]

@[simp] theorem State.raise_chanCfg (s : State) (n : BitVec 8) (c : Nat) :
    (s.raise n).chanCfg c = s.chanCfg c := by simp [State.chanCfg]

@[simp] theorem State.raise_chanState (s : State) (n : BitVec 8) (c : Nat) :
    (s.raise n).chanState c = s.chanState c := by simp [State.chanState]

@[simp] theorem State.setChanState_chanCfg (s : State) (c : Nat) (r : ChanState) (d : Nat) :
    (s.setChanState c r).chanCfg d = s.chanCfg d := by
  simp only [State.chanCfg, State.setChanState_bank, List.getD_eq_getElem?_getD, List.getElem?_modify]
  by_cases h : c = d
  · cases hd : s.bank[d]? <;> simp [h]
  · cases hd : s.bank[d]? <;> simp [h]

theorem State.setChanState_chanState_self (s : State) (c : Nat) (r : ChanState) (h : c < s.cmax) :
    (s.setChanState c r).chanState c = r := by
  have h' : c < s.bank.length := h
  simp [State.chanState, List.getD_eq_getElem?_getD, h']

theorem State.setChanState_chanState_other (s : State) {c d : Nat} (r : ChanState) (h : c ≠ d) :
    (s.setChanState c r).chanState d = s.chanState d := by
  simp only [State.chanState, State.setChanState_bank, List.getD_eq_getElem?_getD,
    List.getElem?_modify]
  cases hd : s.bank[d]? <;> simp [h]

@[simp] theorem State.setChanCfg_chanState (s : State) (c : Nat) (k : ChanCfg) (d : Nat) :
    (s.setChanCfg c k).chanState d = s.chanState d := by
  simp only [State.chanState, State.setChanCfg_bank, List.getD_eq_getElem?_getD, List.getElem?_modify]
  by_cases h : c = d
  · cases hd : s.bank[d]? <;> simp [h]
  · cases hd : s.bank[d]? <;> simp [h]

theorem State.setChanCfg_chanCfg_self (s : State) (c : Nat) (k : ChanCfg) (h : c < s.cmax) :
    (s.setChanCfg c k).chanCfg c = k := by
  have h' : c < s.bank.length := h
  simp [State.chanCfg, List.getD_eq_getElem?_getD, h']

theorem State.setChanCfg_chanCfg_other (s : State) {c d : Nat} (k : ChanCfg) (h : c ≠ d) :
    (s.setChanCfg c k).chanCfg d = s.chanCfg d := by
  simp only [State.chanCfg, State.setChanCfg_bank, List.getD_eq_getElem?_getD, List.getElem?_modify]
  cases hd : s.bank[d]? <;> simp [h]

@[simp] theorem State.baselineAll_chanCfg (s : State) (c : Nat) :
    s.baselineAll.chanCfg c = s.chanCfg c := by
  simp only [State.chanCfg, State.baselineAll_bank, List.getD_eq_getElem?_getD, List.getElem?_map]
  cases hd : s.bank[c]? <;> simp

@[simp] theorem State.baselineAll_chanState (s : State) (c : Nat) :
    s.baselineAll.chanState c = ChanState.baseline := by
  simp only [State.chanState, State.baselineAll_bank, List.getD_eq_getElem?_getD, List.getElem?_map]
  cases hd : s.bank[c]? <;> simp [Channel.zero]

@[simp] theorem State.clear_chanCfg (s : State) (c : Nat) : s.clear.chanCfg c = ChanCfg.zero := by
  simp only [State.chanCfg, State.clear_bank, List.getD_eq_getElem?_getD, List.getElem?_map]
  cases hd : s.bank[c]? <;> simp [Channel.zero]

@[simp] theorem State.clear_chanState (s : State) (c : Nat) :
    s.clear.chanState c = ChanState.baseline := by
  simp only [State.chanState, State.clear_bank, List.getD_eq_getElem?_getD, List.getElem?_map]
  cases hd : s.bank[c]? <;> simp [Channel.zero]

end Sys2Proof.Machine
end

