-- ==== Sys2Proof/Laws/Ops.lean ====
section
/-! SUPPORT. What the shared operations over the registers, the messages and the note-off timer do, each
said once. -/

namespace Sys2Proof.Machine

/-- A channel register is selected only for a channel the block has. -/
theorem regOfAddr_chan {cmax c : Nat} {a : BitVec 12} {k : CReg}
    (h : regOfAddr cmax a = some (.chan c k)) : c < cmax := by
  unfold regOfAddr at h
  split at h
  · simp at h
  · split at h
    · simp at h; obtain ⟨_, _, h, _⟩ := h; omega
    · cases h

/-- A global register reads as what was written to it, cut to its width; the others keep their value. -/
theorem GlobalCfg.read_write (g : GlobalCfg) (r : GReg) (d : BitVec 64) :
    ((g.write r d).read r).toNat = d.toNat % 2 ^ (Reg.glob r).width ∧
      ∀ r', r' ≠ r → (g.write r d).read r' = g.read r' := by
  constructor
  · cases r <;> simp [GlobalCfg.write, GlobalCfg.read, Reg.width] <;> omega
  · intro r' h; cases r <;> cases r' <;> simp_all [GlobalCfg.write, GlobalCfg.read]

/-- A channel register reads as what was written to it, cut to its width; the others keep their value. -/
theorem ChanCfg.read_write (k : ChanCfg) (c : Nat) (r : CReg) (d : BitVec 64) :
    ((k.write r d).read r).toNat = d.toNat % 2 ^ (Reg.chan c r).width ∧
      ∀ r', r' ≠ r → (k.write r d).read r' = k.read r' := by
  have := d.isLt
  constructor
  · cases r <;> simp [ChanCfg.write, ChanCfg.read, Reg.width] <;> omega
  · intro r' h; cases r <;> cases r' <;> simp_all [ChanCfg.write, ChanCfg.read]

/-- Read after write, over all registers of the block. -/
theorem State.readReg_writeReg (s : State) (r : Reg) (d : BitVec 64)
    (h : ∀ c k, r = .chan c k → c < s.cmax) :
    ((s.writeReg r d).readReg r).toNat = d.toNat % 2 ^ r.width ∧
      ∀ r', r' ≠ r → (s.writeReg r d).readReg r' = s.readReg r' := by
  rcases r with ⟨r⟩ | ⟨c, r⟩
  · refine ⟨by simp [State.writeReg, State.readReg, GlobalCfg.read_write], ?_⟩
    intro r' h'
    rcases r' with ⟨r'⟩ | ⟨c', r'⟩
    · simp [State.writeReg, State.readReg]
      exact (GlobalCfg.read_write _ _ _).2 _ (by simpa using h')
    · simp [State.writeReg, State.readReg]
  · have hc := h c r rfl
    refine ⟨by simp only [State.writeReg, State.readReg, State.setChanCfg_chanCfg_self _ _ _ hc,
      ChanCfg.read_write _ c], ?_⟩
    intro r' h'
    rcases r' with ⟨r'⟩ | ⟨c', r'⟩
    · simp [State.writeReg, State.readReg]
    · by_cases hcc : c = c'
      · subst hcc
        simp only [State.writeReg, State.readReg, State.setChanCfg_chanCfg_self _ _ _ hc]
        exact (ChanCfg.read_write _ 0 _ _).2 _ (by simpa using h')
      · simp only [State.writeReg, State.readReg, State.setChanCfg_chanCfg_other _ _ hcc]

@[simp] theorem State.writeReg_mode (s : State) (r : Reg) (d : BitVec 64) :
    (s.writeReg r d).mode = s.mode := by cases r <;> simp [State.writeReg]
@[simp] theorem State.writeReg_err (s : State) (r : Reg) (d : BitVec 64) :
    (s.writeReg r d).err = s.err := by cases r <;> simp [State.writeReg]
@[simp] theorem State.writeReg_cmax (s : State) (r : Reg) (d : BitVec 64) :
    (s.writeReg r d).cmax = s.cmax := by cases r <;> simp [State.writeReg]
@[simp] theorem State.writeReg_nmax (s : State) (r : Reg) (d : BitVec 64) :
    (s.writeReg r d).nmax = s.nmax := by cases r <;> simp [State.writeReg]
@[simp] theorem State.writeReg_chanState (s : State) (r : Reg) (d : BitVec 64) (c : Nat) :
    (s.writeReg r d).chanState c = s.chanState c := by cases r <;> simp [State.writeReg]
@[simp] theorem State.writeReg_out (s : State) (r : Reg) (d : BitVec 64) :
    (s.writeReg r d).out = s.out := by cases r <;> simp [State.writeReg]
@[simp] theorem State.writeReg_resp (s : State) (r : Reg) (d : BitVec 64) :
    (s.writeReg r d).resp = s.resp := by cases r <;> simp [State.writeReg]
@[simp] theorem State.writeReg_port (s : State) (r : Reg) (d : BitVec 64) :
    (s.writeReg r d).port = s.port := by cases r <;> simp [State.writeReg]
@[simp] theorem State.writeReg_emitSlot (s : State) (r : Reg) (d : BitVec 64) :
    (s.writeReg r d).emitSlot = s.emitSlot := by cases r <;> simp [State.writeReg]

/-- An appended pair of bit vectors as a number. -/
theorem toNat_append_eq {m n : Nat} (x : BitVec m) (y : BitVec n) :
    (x ++ y).toNat = x.toNat * 2 ^ n + y.toNat := by
  rw [BitVec.toNat_append, ← Nat.shiftLeft_add_eq_or_of_lt y.isLt, Nat.shiftLeft_eq]

/-- The bytes of a message, written with the bitwise `|` of the rule. -/
theorem voiceMsg_eq (ch : BitVec 4) (note vel : BitVec 7) :
    voiceMsg ch note vel = ⟨0x90 ||| ch.setWidth 8, note.setWidth 8, vel.setWidth 8⟩ := by
  have e1 : ∀ ch : BitVec 4, (9#4 ++ ch : BitVec 8) = 0x90 ||| ch.setWidth 8 := by decide +kernel
  have e2 : ∀ x : BitVec 7, (0#1 ++ x : BitVec 8) = x.setWidth 8 := by decide +kernel
  unfold voiceMsg
  rw [e1, e2, e2]

/-- The three cases of one tick of the note-off timer. -/
theorem tickNoteOff_cases (k : ChanCfg) (l : Lane) :
    (l.st.noff.toNat = 0 ∧ tickNoteOff k l = l) ∨
    (l.st.noff.toNat = 1 ∧ tickNoteOff k l = ⟨{ l.st with noff := 0 }, l.msgs ++ [noteOffMsg k]⟩) ∨
    (2 ≤ l.st.noff.toNat ∧ (l.st.noff - 1).toNat + 1 = l.st.noff.toNat ∧
      tickNoteOff k l = ⟨{ l.st with noff := l.st.noff - 1 }, l.msgs⟩) := by
  have hlt := l.st.noff.isLt
  have hs : l.st.noff.toNat ≠ 0 → (l.st.noff - 1).toNat + 1 = l.st.noff.toNat := by
    intro h; rw [BitVec.toNat_sub]; simp; omega
  unfold tickNoteOff
  split
  · rename_i h; left; simp [h]
  · rename_i h
    have h0 : l.st.noff.toNat ≠ 0 := fun hh => h (BitVec.eq_of_toNat_eq hh)
    split
    · rename_i h1
      right; left
      have : (l.st.noff - 1).toNat = 0 := by rw [h1]; rfl
      refine ⟨by have := hs h0; omega, by rw [h1]; rfl⟩
    · rename_i h1
      right; right
      have : (l.st.noff - 1).toNat ≠ 0 := fun hh => h1 (BitVec.eq_of_toNat_eq hh)
      refine ⟨by have := hs h0; omega, hs h0, rfl⟩

end Sys2Proof.Machine
end

