-- ==== Sys2Proof/Laws/Detector.lean ====
section
/-! SUPPORT. What the parts of the two detectors and the per-buffer sequencer do, each said once. -/

namespace Sys2Proof.Machine

/-- The saturating rising count as a number. -/
theorem countRise_toNat (n : BitVec 32) : (countRise n).toNat = min (n.toNat + 1) (2 ^ 32 - 1) := by
  unfold countRise
  have := n.isLt
  split
  · rename_i h; subst h; simp
  · rename_i h
    have : n.toNat ≠ 2 ^ 32 - 1 := fun hh => h (BitVec.eq_of_toNat_eq (by simp [hh]))
    rw [BitVec.toNat_add]; simp; omega

/-- When the fall-edge test holds. -/
theorem fallEdge_iff (k : ChanCfg) (st : ChanState) (p : Nat) :
    fallEdge k st p = true ↔
      p < st.prev.toNat ∧ (k.flags.getLsbD 0 = true ∨ st.prev.toNat < st.prev2.toNat) := by
  simp [fallEdge, ChanCfg.fast]

/-- The forced note-off is sent where FORCE is set and a note-off is pending; no record changes. -/
theorem forceNoteOff_eq (k : ChanCfg) (l : Lane) :
    forceNoteOff k l =
      ⟨l.st, l.msgs ++ (if k.force = true ∧ l.st.noff ≠ 0 then [noteOffMsg k] else [])⟩ := by
  unfold forceNoteOff
  by_cases h : l.st.noff = 0 <;> by_cases h' : k.force = true <;> simp [h, h', noteOff]
  rw [BitVec.ofNat_eq_ofNat] at h
  rw [if_neg h, if_neg h]

/-- Everything a fall edge does. -/
theorem envFall_eq (fmt : BitVec 1) (k : ChanCfg) (l : Lane) :
    envFall fmt k l =
      ⟨{ l.st with
          rising := false, wait := k.aWaitBufs, env := fallEnvelope k l.st, noff := k.noffDelay },
        l.msgs ++ (if k.force = true ∧ l.st.noff ≠ 0 then [noteOffMsg k] else []) ++
          [noteOnMsg k (velocityA fmt k l.st)]⟩ := by
  simp only [envFall, armNoteOff, noteOn, forceNoteOff_eq]
  rfl

@[simp] theorem shiftHistory_msgs (p : Nat) (l : Lane) : (shiftHistory p l).msgs = l.msgs := rfl
@[simp] theorem shiftHistory_noff (p : Nat) (l : Lane) :
    (shiftHistory p l).st.noff = l.st.noff := rfl
@[simp] theorem shiftHistory_rising (p : Nat) (l : Lane) :
    (shiftHistory p l).st.rising = l.st.rising := rfl
@[simp] theorem shiftHistory_wait (p : Nat) (l : Lane) :
    (shiftHistory p l).st.wait = l.st.wait := rfl
@[simp] theorem shiftHistory_env (p : Nat) (l : Lane) : (shiftHistory p l).st.env = l.st.env := rfl
@[simp] theorem shiftHistory_prev2 (p : Nat) (l : Lane) :
    (shiftHistory p l).st.prev2 = l.st.prev := rfl
@[simp] theorem shiftHistory_prev (p : Nat) (l : Lane) :
    (shiftHistory p l).st.prev = BitVec.ofNat 24 p := rfl
@[simp] theorem shiftHistory_phase (p : Nat) (l : Lane) :
    (shiftHistory p l).st.phase = l.st.phase := rfl
@[simp] theorem shiftHistory_cd (p : Nat) (l : Lane) : (shiftHistory p l).st.cd = l.st.cd := rfl
@[simp] theorem shiftHistory_acc (p : Nat) (l : Lane) : (shiftHistory p l).st.acc = l.st.acc := rfl

/-- Everything the end of a PEAK window does. -/
theorem peakDone_eq (fmt : BitVec 1) (k : ChanCfg) (l : Lane) :
    peakDone fmt k l =
      ⟨{ l.st with phase := .wait, cd := k.waitLen, noff := k.noffDelay },
        l.msgs ++ [noteOnMsg k (velocityB fmt k l.st.acc)]⟩ := rfl

/-- A signed 32-bit countdown that is not negative, as a number. -/
theorem toInt_nonneg_iff {x : BitVec 32} : 0 ≤ x.toInt ↔ x.toNat < 2 ^ 31 := by
  rw [BitVec.toInt_eq_toNat_cond]; have := x.isLt; split <;> omega

theorem toInt_of_lt {x : BitVec 32} (h : x.toNat < 2 ^ 31) : x.toInt = x.toNat := by
  rw [BitVec.toInt_eq_toNat_cond, if_pos (by omega)]

theorem peakSpan_eq (g : GlobalCfg) (x : Scan) (h : x.lane.st.cd.toNat < 2 ^ 31) :
    peakSpan g x = min x.lane.st.cd.toNat (g.bufFrames.toNat - x.pos) := by
  unfold peakSpan; rw [toInt_of_lt h]; rfl

/-- A PEAK pass takes exactly the frames it scans off the countdown. -/
theorem peakScan_cd (g : GlobalCfg) (x : Scan) (h : x.lane.st.cd.toNat < 2 ^ 31) :
    (x.lane.st.cd - BitVec.ofNat 32 (peakSpan g x)).toNat + peakSpan g x = x.lane.st.cd.toNat := by
  have : peakSpan g x ≤ x.lane.st.cd.toNat := by have := peakSpan_eq g x h; omega
  generalize peakSpan g x = n at *
  rw [BitVec.toNat_sub, BitVec.toNat_ofNat]; omega

/-- The signed difference a WAIT pass computes is exact. -/
theorem waitCount_toInt (cd n : BitVec 32) (h : cd.toNat < 2 ^ 31) (hn : n.toNat ≤ 2 ^ 24) :
    (cd - n).toInt = (cd.toNat : Int) - n.toNat := by
  rw [BitVec.toInt_sub, toInt_of_lt h, toInt_of_lt (by omega)]
  rw [Int.bmod_eq_of_le] <;> omega

/-- One channel's turn: that channel's record and the output stream, nothing else. -/
theorem stepChannel_frame (p : List Byte) (s : State) (c : Nat) :
    (stepChannel p s c).mode = s.mode ∧ (stepChannel p s c).err = s.err ∧
    (stepChannel p s c).glob = s.glob ∧ (stepChannel p s c).cmax = s.cmax ∧
    (stepChannel p s c).nmax = s.nmax ∧ (stepChannel p s c).resp = s.resp ∧
    (stepChannel p s c).port = s.port ∧ (stepChannel p s c).emitSlot = s.emitSlot ∧
    (∀ d, (stepChannel p s c).chanCfg d = s.chanCfg d) ∧
    (stepChannel p s c).out =
      s.out ++ (channelStep s.glob (s.chanCfg c) p c (s.chanState c)).msgs := by
  simp [stepChannel]

/-- Everything the turns of the channels `0 .. n-1` do. -/
theorem stepChannels_eq (p : List Byte) (s : State) (n : Nat) (hn : n ≤ s.cmax) :
    let t := (List.range n).foldl (stepChannel p) s
    t.mode = s.mode ∧ t.err = s.err ∧ t.glob = s.glob ∧ t.cmax = s.cmax ∧ t.nmax = s.nmax ∧
    t.resp = s.resp ∧ t.port = s.port ∧ t.emitSlot = s.emitSlot ∧
    (∀ d, t.chanCfg d = s.chanCfg d) ∧
    (∀ c < n, t.chanState c = (channelStep s.glob (s.chanCfg c) p c (s.chanState c)).st) ∧
    (∀ c, n ≤ c → t.chanState c = s.chanState c) ∧
    t.out = s.out ++ (List.range n).flatMap
      (fun c => (channelStep s.glob (s.chanCfg c) p c (s.chanState c)).msgs) := by
  induction n with
  | zero => simp
  | succ n ih =>
    obtain ⟨h1, h2, h3, h4, h5, h6, h7, h8, h9, h10, h11, h12⟩ := ih (by omega)
    rw [List.range_succ, List.foldl_append]
    simp only [List.foldl_cons, List.foldl_nil]
    generalize (List.range n).foldl (stepChannel p) s = u at *
    obtain ⟨g1, g2, g3, g4, g5, g6, g7, g8, g9, g10⟩ := stepChannel_frame p u n
    have hn' : n < u.cmax := by omega
    refine ⟨g1.trans h1, g2.trans h2, g3.trans h3, g4.trans h4, g5.trans h5, g6.trans h6,
      g7.trans h7, g8.trans h8, fun d => (g9 d).trans (h9 d), ?_, ?_, ?_⟩
    · intro c hc
      by_cases hcn : c = n
      · subst hcn
        simp [stepChannel, State.setChanState_chanState_self _ _ _ hn', h3, h9, h11 c le_rfl]
      · simp only [stepChannel, State.emit_chanState]
        rw [State.setChanState_chanState_other _ _ (Ne.symm hcn), h10 c (by omega)]
    · intro c hc
      simp only [stepChannel, State.emit_chanState]
      rw [State.setChanState_chanState_other _ _ (by omega), h11 c (by omega)]
    · rw [g10, h12, h3, h9, h11 n le_rfl]
      simp [List.flatMap_append]

/-- What a buffer leaves alone, and that it only appends messages, for every channel count. -/
theorem bufferStep_frame (p : List Byte) (s : State) :
    (bufferStep p s).mode = s.mode ∧ (bufferStep p s).err = s.err ∧
    (bufferStep p s).glob = s.glob ∧ (bufferStep p s).cmax = s.cmax ∧
    (bufferStep p s).nmax = s.nmax ∧ (bufferStep p s).resp = s.resp ∧
    (bufferStep p s).port = s.port ∧ (bufferStep p s).emitSlot = s.emitSlot ∧
    (∀ d, (bufferStep p s).chanCfg d = s.chanCfg d) ∧ ∃ ms, (bufferStep p s).out = s.out ++ ms := by
  unfold bufferStep
  generalize List.range s.glob.nch.toNat = cs
  induction cs generalizing s with
  | nil => simp
  | cons c cs ih =>
    obtain ⟨g1, g2, g3, g4, g5, g6, g7, g8, g9, g10⟩ := stepChannel_frame p s c
    obtain ⟨h1, h2, h3, h4, h5, h6, h7, h8, h9, ms, h10⟩ := ih (stepChannel p s c)
    simp only [List.foldl_cons]
    refine ⟨h1.trans g1, h2.trans g2, h3.trans g3, h4.trans g4, h5.trans g5, h6.trans g6,
      h7.trans g7, h8.trans g8, fun d => (h9 d).trans (g9 d), ?_⟩
    rw [h10, g10]; simp [List.append_assoc]

end Sys2Proof.Machine
end

