-- ==== Sys2Proof/Laws/Float64.lean ====
section
/-! SUPPORT. The one rounding all binary64 operations share: what `F64.nearestEven` picks, that `F64.round`
encodes it without a second error, and exactly when it overflows. -/

namespace Sys2Proof

/-- `nearestEven n d` is within half a step of `n / 2^d`, and even where the two neighbours tie. -/
theorem F64.nearestEven_spec (n d : Nat) :
    2 * n ≤ 2 * F64.nearestEven n d * 2 ^ d + 2 ^ d ∧
    2 * F64.nearestEven n d * 2 ^ d ≤ 2 * n + 2 ^ d ∧
    (2 * n = 2 * F64.nearestEven n d * 2 ^ d + 2 ^ d ∨
        2 * F64.nearestEven n d * 2 ^ d = 2 * n + 2 ^ d →
      F64.nearestEven n d % 2 = 0) := by
  have hp : 0 < 2 ^ d := Nat.two_pow_pos d
  have hdm : 2 ^ d * (n / 2 ^ d) + n % 2 ^ d = n := Nat.div_add_mod n (2 ^ d)
  have hlt : n % 2 ^ d < 2 ^ d := Nat.mod_lt _ hp
  unfold F64.nearestEven
  generalize hq : n / 2 ^ d = q at *
  generalize n % 2 ^ d = r at *
  generalize 2 ^ d = D at *
  have e1 : 2 * q * D = 2 * (D * q) := by ring
  have e2 : 2 * (q + 1) * D = 2 * (D * q) + 2 * D := by ring
  split
  · rename_i h
    rw [e1]
    refine ⟨by omega, by omega, fun hh => ?_⟩
    rcases h with h | h
    · omega
    · exact h.2
  · rename_i h
    rw [e2]
    refine ⟨by omega, by omega, fun hh => ?_⟩
    have : ¬(2 * r = D ∧ q % 2 = 0) := fun h' => h (.inr h')
    have : ¬(2 * r < D) := fun h' => h (.inl h')
    omega

/-- The significand `F64.round` picks has at most 53 bits, or is 2^53; and 53 bits where low bits were
dropped. -/
theorem F64.nearestEven_range (n d : Nat) :
    F64.nearestEven n (d + F64.dropped n d) ≤ 2 ^ 53 ∧
    (0 < F64.dropped n d → 2 ^ 52 ≤ F64.nearestEven n (d + F64.dropped n d)) := by
  have hle : n / 2 ^ (d + F64.dropped n d) ≤ F64.nearestEven n (d + F64.dropped n d) ∧
      F64.nearestEven n (d + F64.dropped n d) ≤ n / 2 ^ (d + F64.dropped n d) + 1 := by
    unfold F64.nearestEven; split <;> omega
  have hhi : n / 2 ^ (d + F64.dropped n d) < 2 ^ 53 := by
    rw [Nat.div_lt_iff_lt_mul (Nat.two_pow_pos _), ← pow_add]
    exact Nat.lt_of_lt_of_le (Nat.lt_log2_self (n := n))
      (Nat.pow_le_pow_right (by decide) (by unfold F64.dropped; omega))
  refine ⟨by omega, fun h => ?_⟩
  refine le_trans ?_ hle.1
  rw [Nat.le_div_iff_mul_le (Nat.two_pow_pos _), ← pow_add]
  have hd : 52 + (d + F64.dropped n d) = Nat.log2 n := by unfold F64.dropped at h ⊢; omega
  rw [hd]
  apply Nat.log2_self_le
  rintro rfl
  simp [F64.dropped] at h

/-- The datum with the fields `2^52 * k + m` has the magnitude `m * 2^k`, for a significand `m` of the range
`F64.nearestEven_range` gives; the lowest bit of its fraction is that of `m`. -/
theorem F64.ofFields_eq_fin {neg s : Bool} {k m : Nat} {e : Fin 2047} {f : BitVec 52}
    (h1 : m ≤ 2 ^ 53) (h2 : 0 < k → 2 ^ 52 ≤ m)
    (h : F64.ofFields neg (2 ^ 52 * k + m) = .fin s e f) :
    s = neg ∧ F64.units e f = m * 2 ^ k ∧ f.getLsbD 0 = decide (m % 2 = 1) := by
  unfold F64.ofFields at h
  split at h
  · rename_i hlt
    injection h with hs he hf
    subst hs he hf
    have hdiv : (2 ^ 52 * k + m) / 2 ^ 52 = k + m / 2 ^ 52 := by
      rw [Nat.mul_add_div (by decide)]
    refine ⟨rfl, ?_, ?_⟩
    · unfold F64.units
      simp only [hdiv, BitVec.toNat_ofNat, Nat.mul_add_mod]
      rcases (by omega : m < 2 ^ 52 ∨ (2 ^ 52 ≤ m ∧ m < 2 ^ 53) ∨ m = 2 ^ 53) with hm | ⟨hm, hm'⟩ | hm
      · have hk : k = 0 := by omega
        subst hk
        rw [if_pos (by omega), Nat.mod_eq_of_lt hm]; simp
      · rw [if_neg (by omega), show m / 2 ^ 52 = 1 by omega,
          show m % 2 ^ 52 = m - 2 ^ 52 by omega, show 2 ^ 52 + (m - 2 ^ 52) = m by omega]
        simp
      · subst hm
        rw [if_neg (by omega)]
        rw [show k + 2 ^ 53 / 2 ^ 52 - 1 = k + 1 by omega, show 2 ^ 53 % 2 ^ 52 = 0 by decide, pow_succ]
        ring
    · have : (2 ^ 52 * k + m) % 2 = m % 2 := by omega
      rw [BitVec.getLsbD_ofNat, Nat.testBit_zero, this]; rfl
  · cases h

/-- What `F64.round` answers where it does not overflow: the sign asked for, and the significand
`nearestEven` picks at the scale it picks. -/
theorem F64.round_eq_fin {neg s : Bool} {n d : Nat} {e : Fin 2047} {f : BitVec 52}
    (h : F64.round neg n d = .fin s e f) :
    s = neg ∧
    F64.units e f = F64.nearestEven n (d + F64.dropped n d) * 2 ^ F64.dropped n d ∧
    f.getLsbD 0 = decide (F64.nearestEven n (d + F64.dropped n d) % 2 = 1) :=
  F64.ofFields_eq_fin (F64.nearestEven_range n d).1 (F64.nearestEven_range n d).2 h

/-- Rounding never answers a NaN, and answers an infinity only of the sign asked for and where the
significand and its scale are beyond the largest finite value. -/
theorem F64.round_overflow (neg : Bool) (n d : Nat) :
    F64.round neg n d ≠ .nan ∧
    ∀ s, F64.round neg n d = .inf s → s = neg ∧
      2047 ≤ F64.dropped n d + F64.nearestEven n (d + F64.dropped n d) / 2 ^ 52 := by
  unfold F64.round F64.ofFields
  rw [Nat.mul_add_div (by decide)]
  split
  · exact ⟨by simp, by simp⟩
  · rename_i h
    refine ⟨by simp, fun s hs => ?_⟩
    injection hs with hs
    exact ⟨hs.symm, by omega⟩

/-- Where low bits are dropped, the quotient `n / 2^d` has more than 53 of them. -/
theorem F64.dropped_low {n d : Nat} (h : 0 < F64.dropped n d) : 2 ^ (52 + (d + F64.dropped n d)) ≤ n := by
  have hd : 52 + (d + F64.dropped n d) = Nat.log2 n := by unfold F64.dropped at h ⊢; omega
  rw [hd]
  apply Nat.log2_self_le
  rintro rfl
  simp [F64.dropped] at h

set_option exponentiation.threshold 3000 in
/-- The fields `F64.round` picks are beyond the largest finite datum exactly where `n / 2^d` is at least half
an ulp beyond it: `2^1024 - 2^970` in units of 2^-1074. -/
theorem F64.overflow_iff (n d : Nat) :
    2047 ≤ F64.dropped n d + F64.nearestEven n (d + F64.dropped n d) / 2 ^ 52 ↔
      (2 ^ 2098 - 2 ^ 2044) * 2 ^ d ≤ n := by
  obtain ⟨s1, s2, s3⟩ := F64.nearestEven_spec n (d + F64.dropped n d)
  obtain ⟨r1, r2⟩ := F64.nearestEven_range n d
  have low := F64.dropped_low (n := n) (d := d)
  have hk : F64.dropped n d = Nat.log2 n - d - 52 := rfl
  generalize F64.nearestEven n (d + F64.dropped n d) = m at *
  generalize F64.dropped n d = k at *
  have beyond (h : 2046 ≤ k) : (2 ^ 2098 - 2 ^ 2044) * 2 ^ d ≤ n := by
    refine le_trans (Nat.mul_le_mul_right _ (Nat.sub_le _ _)) (le_trans ?_ (low (by omega)))
    rw [← pow_add]
    exact Nat.pow_le_pow_right (by decide) (by omega)
  -- the scale just below: `G` is half a step of it
  have scale : 2 ^ (d + 2045) = 2 * (2 ^ 2044 * 2 ^ d) := by rw [pow_add]; ring
  have limit : (2 ^ 2098 - 2 ^ 2044) * 2 ^ d = (2 ^ 54 - 1) * (2 ^ 2044 * 2 ^ d) := by
    rw [← mul_assoc]; congr 1
  have hG : 0 < 2 ^ 2044 * 2 ^ d := by positivity
  rcases Nat.lt_or_ge k 2046 with hlt | hge
  · by_cases hk5 : k = 2045
    · subst hk5
      have double (x : Nat) : 2 * x * (2 * (2 ^ 2044 * 2 ^ d)) = x * (4 * (2 ^ 2044 * 2 ^ d)) := by ring
      rw [scale, double] at s1 s2 s3
      rw [limit]
      generalize 2 ^ 2044 * 2 ^ d = G at *
      constructor
      · intro h
        obtain rfl : m = 2 ^ 53 := by omega
        omega
      · intro h
        obtain rfl | rfl | hm : m = 2 ^ 53 ∨ m = 2 ^ 53 - 1 ∨ m ≤ 2 ^ 53 - 2 := by omega
        · omega
        · have := s3 (.inl (by omega)); omega
        · have : m * (4 * G) ≤ (2 ^ 53 - 2) * (4 * G) := Nat.mul_le_mul_right _ hm
          omega
    · refine ⟨fun h => by omega, fun h => ?_⟩
      have hn0 : n ≠ 0 := by
        rintro rfl
        have : 0 < (2 ^ 54 - 1) * (2 ^ 2044 * 2 ^ d) := by positivity
        omega
      have : 2097 + d ≤ Nat.log2 n := by
        rw [Nat.le_log2 hn0, pow_add]
        exact le_trans (Nat.mul_le_mul_right _ (by decide +kernel)) h
      omega
  · exact ⟨fun _ => beyond hge, fun _ => by have := r2 (by omega); omega⟩

/-- Rounding answers a finite datum of the sign asked for below that limit, and the infinity of that sign from
it on. -/
theorem F64.round_cases (neg : Bool) (n d : Nat) :
    (n < (2 ^ 2098 - 2 ^ 2044) * 2 ^ d ∧ ∃ e f, F64.round neg n d = .fin neg e f) ∨
    ((2 ^ 2098 - 2 ^ 2044) * 2 ^ d ≤ n ∧ F64.round neg n d = .inf neg) := by
  rw [← F64.overflow_iff, ← not_le, ← F64.overflow_iff]
  unfold F64.round F64.ofFields
  rw [Nat.mul_add_div (by decide)]
  split
  · exact .inl ⟨by omega, _, _, rfl⟩
  · exact .inr ⟨by omega, rfl⟩

end Sys2Proof
end

