-- ==== Sys2Proof/Laws/PerInstr.lean ====
section
/-! SUPPORT. The family `EncodeMatchesTable`, one lemma per instruction: what the encoder writes matches the
mask and pattern of the instruction's row in the opcode table (30_encoding.md R70, R81, R82, R87), with
every operand at every value. -/

namespace Sys2Proof.Laws.EncodeMatchesTable

/-- A command whose word matches a row of format CMD32. -/
def CommandRow (mask pattern : Word) : Encoded → Prop
  | .command c => c.word &&& mask = pattern
  | .message _ => False

/-- A 24-bit message value that matches a row of format MSG. -/
def MessageRow (mask pattern : BitVec 24) : Encoded → Prop
  | .command _ => False
  | .message w => w &&& mask = pattern

/-- The encoded form matches the instruction's row. -/
def Statement : Instr → Prop
  | .reset => CommandRow 0xFFFFFFFF 0x10000000 (encode .reset)
  | .cfgWrite addr data => CommandRow 0xFFFFF000 0x20000000 (encode (.cfgWrite addr data))
  | .start => CommandRow 0xFFFFFFFF 0x30000000 (encode .start)
  | .buffer payload => CommandRow 0xFFFFFFFF 0x40000000 (encode (.buffer payload))
  | .stop => CommandRow 0xFFFFFFFF 0x50000000 (encode .stop)
  | .sourceFail => CommandRow 0xFFFFFFFF 0x60000000 (encode .sourceFail)
  | .statusRead => CommandRow 0xFFFFFFFF 0x70000000 (encode .statusRead)
  | .non ch note vel => MessageRow 0xF08080 0x900000 (encode (.non ch note vel))
  | .noff ch note => MessageRow 0xF080FF 0x900000 (encode (.noff ch note))

theorem reset : Statement .reset := by
  simp only [Statement, encode, encodeBare, CommandRow]; decide

theorem cfgWrite (addr : BitVec 12) (data : BitVec 64) : Statement (.cfgWrite addr data) := by
  simp only [Statement, encode, CommandRow]
  revert addr; decide +kernel

theorem start : Statement .start := by
  simp only [Statement, encode, encodeBare, CommandRow]; decide

theorem buffer (payload : List Byte) : Statement (.buffer payload) := by
  simp only [Statement, encode, CommandRow]; decide

theorem stop : Statement .stop := by
  simp only [Statement, encode, encodeBare, CommandRow]; decide

theorem sourceFail : Statement .sourceFail := by
  simp only [Statement, encode, encodeBare, CommandRow]; decide

theorem statusRead : Statement .statusRead := by
  simp only [Statement, encode, encodeBare, CommandRow]; decide

theorem non (ch : BitVec 4) (note vel : BitVec 7) : Statement (.non ch note vel) := by
  show 9#4 ++ ch ++ 0#1 ++ note ++ 0#1 ++ vel &&& 15#4 ++ 0#4 ++ 1#1 ++ 0#7 ++ 1#1 ++ 0#7 = 0x900000#24
  simp only [BitVec.and_append, BitVec.and_zero]
  decide

theorem noff (ch : BitVec 4) (note : BitVec 7) : Statement (.noff ch note) := by
  show 9#4 ++ ch ++ 0#1 ++ note ++ 0#8 &&& 15#4 ++ 0#4 ++ 1#1 ++ 0#7 ++ 255#8 = 0x900000#24
  simp only [BitVec.and_append, BitVec.and_zero]
  decide

end Sys2Proof.Laws.EncodeMatchesTable
end

