-- ==== Sys2Proof/Laws/Step.lean ====
section
/-! SUPPORT. Everything an instruction and a step can do, said once: claims over all commands or all steps
are a case analysis on `exec_cases` and `step_cases`. -/

namespace Sys2Proof.Machine

/-- Everything `exec` can answer as a next state. -/
theorem exec_cases {i : Instr} {s t : State} (h : exec i s = .next t) :
    (i = .reset ∧ t = s.clear) ∨ (i = .statusRead ∧ t = s.respond s.status) ∨
    (∃ c n v, t = s.emit [voiceMsg c n v] ∧ (i = .non c n v ∨ (i = .noff c n ∧ v = 0))) ∨
    (s.mode = .error ∧ t = s) ∨
    (s.mode ≠ .error ∧ ∃ n : BitVec 8, 2 ≤ n.toNat ∧ n.toNat ≤ 7 ∧
      t = { s with mode := .error, err := n } ∧
      (∀ a d, i = .cfgWrite a d → s.mode ≠ .config → n = 3)) ∨
    (s.mode = .config ∧ ∃ a d r, i = .cfgWrite a d ∧ regOfAddr s.cmax a = some r ∧
      t = s.writeReg r d) ∨
    (s.mode = .config ∧ i = .start ∧ s.legalConfig = true ∧ t = s.baselineAll.setMode .running) ∨
    (s.mode = .running ∧ ∃ p, i = .buffer p ∧ p.length = bufferBytes s.glob ∧ t = bufferStep p s) ∨
    (s.mode ≠ .error ∧ i = .stop ∧ t = s.setMode .stopped) := by
  cases i with
  | reset => left; simp [exec, execReset] at h; simp [h]
  | statusRead => right; left; simp [exec, execStatusRead] at h; simp [h]
  | non c n v =>
    right; right; left; simp [exec, execNon] at h; exact ⟨c, n, v, h.symm, .inl rfl⟩
  | noff c n =>
    right; right; left; simp [exec, execNoff] at h; exact ⟨c, n, 0, h.symm, .inr ⟨rfl, rfl⟩⟩
  | cfgWrite a d =>
    right; right; right
    simp only [exec, execCfgWrite] at h
    split at h
    · injection h with h; exact .inl ⟨by assumption, h.symm⟩
    · rename_i he
      right
      split at h
      · injection h with h
        exact .inl ⟨he, 3, by decide, by decide, by rw [← h, State.raise_of_not_error _ he],
          by intros; rfl⟩
      · rename_i hc
        split at h
        · injection h with h
          exact .inl ⟨he, 2, by decide, by decide, by rw [← h, State.raise_of_not_error _ he],
            by intro _ _ _ hh; simp_all⟩
        · rename_i r hr
          injection h with h; right; left; exact ⟨by simpa using hc, a, d, r, rfl, hr, h.symm⟩
  | start =>
    right; right; right
    simp only [exec, execStart] at h
    split at h
    · injection h with h; exact .inl ⟨by assumption, h.symm⟩
    · rename_i he
      right
      split at h
      · injection h with h
        exact .inl ⟨he, 5, by decide, by decide, by rw [← h, State.raise_of_not_error _ he],
          by intros; simp_all⟩
      · rename_i hc
        split at h
        · rename_i hl
          injection h with h
          right; right; left; exact ⟨by simpa using hc, rfl, hl, h.symm⟩
        · injection h with h
          exact .inl ⟨he, 4, by decide, by decide, by rw [← h, State.raise_of_not_error _ he],
            by intros; simp_all⟩
  | buffer p =>
    right; right; right
    simp only [exec, execBuffer] at h
    split at h
    · injection h with h; exact .inl ⟨by assumption, h.symm⟩
    · rename_i he
      right
      split at h
      · injection h with h
        exact .inl ⟨he, 5, by decide, by decide, by rw [← h, State.raise_of_not_error _ he],
          by intros; simp_all⟩
      · rename_i hc
        split at h
        · injection h with h
          exact .inl ⟨he, 7, by decide, by decide, by rw [← h, State.raise_of_not_error _ he],
            by intros; simp_all⟩
        · rename_i hl
          injection h with h
          right; right; right; left; exact ⟨by simpa using hc, p, rfl, by simpa using hl, h.symm⟩
  | stop =>
    right; right; right
    simp only [exec, execStop] at h
    split at h
    · injection h with h; exact .inl ⟨by assumption, h.symm⟩
    · rename_i he
      injection h with h
      right; right; right; right; right; exact ⟨he, rfl, h.symm⟩
  | sourceFail =>
    right; right; right
    simp only [exec, execSourceFail] at h
    split at h
    · injection h with h; exact .inl ⟨by assumption, h.symm⟩
    · rename_i he
      injection h with h
      exact .inr (.inl ⟨he, 6, by decide, by decide, by rw [← h, State.raise_of_not_error _ he],
        by intros; simp_all⟩)

/-- Every instruction has a next state. -/
theorem exec_next (i : Instr) (s : State) : ∃ t, exec i s = .next t := by
  cases i <;> simp only [exec, execReset, execCfgWrite, execStart, execBuffer, execStop,
    execSourceFail, execStatusRead, execNon, execNoff] <;> (repeat' split) <;> exact ⟨_, rfl⟩

/-- In ERROR every command but RESET and STATUS_READ is ignored. -/
theorem exec_of_error {i : Instr} {s : State} (h : s.mode = .error) (h1 : i ≠ .reset)
    (h2 : i ≠ .statusRead) (h3 : ∀ c n v, i ≠ .non c n v) (h4 : ∀ c n, i ≠ .noff c n) :
    exec i s = .next s := by
  cases i <;> simp_all [exec, execCfgWrite, execStart, execBuffer, execStop, execSourceFail]

theorem heardInError_eq_false {w : Word} :
    heardInError w = false ↔ opField w ≠ 1 ∧ opField w ≠ 7 := by
  simp [heardInError]

/-- The prologue passes a command that decodes on to its meaning, in every mode: the meanings make the
ERROR check themselves. -/
theorem executeCommand_of_ok {c : Command} {i : Instr} (s : State) (h : decodeCommand c = .ok i) :
    executeCommand c s = exec i s := by
  unfold executeCommand
  split
  · rename_i hh
    obtain ⟨hm, hh⟩ := hh
    rw [heardInError_eq_false] at hh
    obtain ⟨m1, m2⟩ := decodeCommand_not_message h
    have key := (decodeCommand_ok h).2
    rw [exec_of_error hm ?_ ?_ m1 m2] <;>
    · rintro rfl
      simp_all
      obtain ⟨p0, p1, p2, p3, p4, p5, p6, p7, hp, h⟩ := decodeCfgWrite_ok key.2; cases h
  · simp [h]

/-- The prologue on a command that does not decode. -/
theorem executeCommand_of_error {c : Command} {e : Illegal} (s : State)
    (h : decodeCommand c = .error e) :
    executeCommand c s =
      .next (if s.mode = .error then s else { s with mode := .error, err := 1 }) := by
  unfold executeCommand
  by_cases hm : s.mode = .error <;> simp [hm, h, State.raise]

/-- What an offered message does, where the step has a next state. -/
theorem executeMessage_cases {w : BitVec 24} {s t : State} (h : executeMessage w s = .next t) :
    ∃ ch note vel, t = s.emit [voiceMsg ch note vel] := by
  unfold executeMessage decodeMessage at h
  split at h
  · cases h
  · rename_i i hi
    split at hi
    · cases hi
    · split at hi <;> injection hi with hi <;> subst hi <;> simp [exec, execNon, execNoff] at h <;>
        exact ⟨_, _, _, h.symm⟩

/-- Everything a step can answer as a next state. -/
theorem step_cases {s t : State} (h : step s = .next t) :
    (s.emitSlot = none ∧ s.port = [] ∧ t = s) ∨
    (∃ w c n v, s.emitSlot = some w ∧ t = s.takeMessage.emit [voiceMsg c n v]) ∨
    (∃ c rest i, s.emitSlot = none ∧ s.port = c :: rest ∧ decodeCommand c = .ok i ∧
      exec i s.popCommand = .next t) ∨
    (∃ c rest e, s.emitSlot = none ∧ s.port = c :: rest ∧ decodeCommand c = .error e ∧
      s.mode = .error ∧ t = s.popCommand) ∨
    (∃ c rest e, s.emitSlot = none ∧ s.port = c :: rest ∧ decodeCommand c = .error e ∧
      s.mode ≠ .error ∧ t = { s.popCommand with mode := .error, err := 1 }) := by
  rcases he : s.emitSlot with _ | w
  · rcases hp : s.port with _ | ⟨c, rest⟩
    · left
      simp [step, State.fetch, he, hp] at h
      exact ⟨rfl, rfl, h.symm⟩
    · have hs : step s = executeCommand c s.popCommand := by simp [step, State.fetch, he, hp]
      rw [hs] at h
      right; right
      rcases hd : decodeCommand c with e | i
      · rw [executeCommand_of_error _ hd] at h
        injection h with h
        right
        by_cases hm : s.mode = .error
        · left; exact ⟨c, rest, e, rfl, rfl, hd, hm, by rw [← h]; exact if_pos hm⟩
        · right; exact ⟨c, rest, e, rfl, rfl, hd, hm, by rw [← h]; exact if_neg hm⟩
      · rw [executeCommand_of_ok _ hd] at h
        left; exact ⟨c, rest, i, rfl, rfl, hd, h⟩
  · right; left
    have hs : step s = executeMessage w s.takeMessage := by simp [step, State.fetch, he]
    rw [hs] at h
    obtain ⟨ch, n, v, ht⟩ := executeMessage_cases h
    exact ⟨w, ch, n, v, rfl, ht⟩

end Sys2Proof.Machine
end

