-- ==== Sys2Proof/Tests/Slice0.lean ====
section
/-! SUPPORT. Tests on fixed values, each expected result taken from the spec (95_test_vectors.md unless the
comment says otherwise), and, for each obligation with hypotheses, a witness `wit_<obligation>`: a concrete
state and operands that meet them, at the boundary values of their ranges. -/

namespace Sys2Proof.Tests

open Sys2Proof Sys2Proof.Machine

-- One kernel evaluation at a time: dozens in flight at once exceed the memory limit of the check.
set_option Elab.async false

/-! ### Helpers -/

/-- The configuration of section 2.2 with `FLAGS = fl`. -/
def cfgA (fl : BitVec 2) : ChanCfg :=
  { trig := 1000, decay := 0x3FEF5C28F5C28F5C, guardF := 0x3FF0000000000000, peakLen := 0, waitLen := 0,
    aWaitBufs := 2, noffDelay := 3, midiCh := 0, note := 36, flags := fl }

/-- The configuration of section 2.3, with its two window lengths. -/
def cfgB (peak wait : BitVec 32) : ChanCfg :=
  { trig := 1000, decay := 0, guardF := 0, peakLen := peak, waitLen := wait, aWaitBufs := 0,
    noffDelay := 3, midiCh := 9, note := 38, flags := 0 }

/-- S16_LE, `n` channels, `frames` frames. -/
def glob (strategy : BitVec 1) (n : BitVec 8) (frames : BitVec 32) : GlobalCfg :=
  ⟨strategy, 0, n, frames⟩

/-- A state with two channels, `NMAX = 8`, nothing sent and nothing waiting. -/
def mk (m : Mode) (e : BitVec 8) (g : GlobalCfg) (a b : Channel) : State :=
  ⟨m, e, g, [a, b], 8, [], [], [], none⟩

/-- The two-channel state after reset. -/
def cleared (m : Mode) (e : BitVec 8) : State := mk m e GlobalCfg.zero Channel.zero Channel.zero

/-- A run of strategy A on one channel of one frame. -/
def runA (fl : BitVec 2) (st : ChanState) : State :=
  mk .running 0 (glob 0 1 1) ⟨cfgA fl, st⟩ Channel.zero

/-- A run of strategy B on one channel of eight frames. -/
def runB (peak wait : BitVec 32) (st : ChanState) : State :=
  mk .running 0 (glob 1 1 8) ⟨cfgB peak wait, st⟩ Channel.zero

/-- The state with one command on the port. -/
def sends (s : State) (w : Word) (p : List Byte) : State := { s with port := [⟨w, p⟩] }

/-- S16_LE samples as bytes. -/
def pcm (xs : List Int) : List Byte :=
  xs.flatMap fun x => [BitVec.ofInt 8 x, BitVec.ofInt 8 (x / 256)]

/-- The next state, where there is one. -/
def next? : Host.Outcome State Fault Refusal → Option State
  | .next t => some t
  | .fault _ => none
  | .refused _ => none

/-- `STATUS` after the step. -/
def statusAfter (s : State) : Option Word := (next? (step s)).map State.status

/-! ### Well-formedness, decoding, encoding -/

/-- The one ill-formed instruction: its words are the note-off's (30_encoding.md R83). -/
theorem test_wellFormed_refuses_velocity_zero :
    WellFormed (.non 9 38 0) = false ∧ WellFormed (.non 9 38 1) = true ∧
      encode (.non 9 38 0) = encode (.noff 9 38) := by decide

/-- 30_encoding.md R70, R72: each command's word, written out from its fields. -/
theorem test_decode_commands :
    decodeCommand ⟨0b0001_0000000000000000_000000000000, []⟩ = .ok .reset ∧
    decodeCommand ⟨0b0010_0000000000000000_000100000000, [0xE8, 3, 0, 0, 0, 0, 0, 0]⟩ =
      .ok (.cfgWrite 0x100 1000) ∧
    decodeCommand ⟨0b0010_0000000000000000_111111111001, [1, 2, 3, 4, 5, 6, 7, 0x80]⟩ =
      .ok (.cfgWrite 0xFF9 0x8007060504030201) ∧
    decodeCommand ⟨0b0011_0000000000000000_000000000000, []⟩ = .ok .start ∧
    decodeCommand ⟨0b0100_0000000000000000_000000000000, [0x88, 0x13, 0x78]⟩ =
      .ok (.buffer [0x88, 0x13, 0x78]) ∧
    decodeCommand ⟨0b0101_0000000000000000_000000000000, []⟩ = .ok .stop ∧
    decodeCommand ⟨0b0110_0000000000000000_000000000000, []⟩ = .ok .sourceFail ∧
    decodeCommand ⟨0b0111_0000000000000000_000000000000, []⟩ = .ok .statusRead := by decide +kernel

/-- 30_encoding.md R81, R82: the messages of S-6 and its note-off, byte by byte. -/
theorem test_decode_messages :
    decodeMessage 0b1001_1001_0_0100110_0_0010000 = .ok (.non 9 38 16) ∧
    decodeMessage 0b1001_1001_0_0100110_0_0000000 = .ok (.noff 9 38) ∧
    decodeMessage 0b1000_1001_0_0100110_0_0000000 = .error .notAMessage ∧
    decodeMessage 0b1001_1001_1_0100110_0_0010000 = .error .notAMessage ∧
    decodeMessage 0b1001_1001_0_0100110_1_0010000 = .error .notAMessage := by decide +kernel

/-- The encoder writes the same words. -/
theorem test_encode :
    encode .reset = .command ⟨0x10000000, []⟩ ∧
    encode (.cfgWrite 0x101 0x3FEF5C28F5C28F5C) =
      .command ⟨0x20000101, [0x5C, 0x8F, 0xC2, 0xF5, 0x28, 0x5C, 0xEF, 0x3F]⟩ ∧
    encode (.buffer [1, 2]) = .command ⟨0x40000000, [1, 2]⟩ ∧
    encode (.non 10 62 1) = .message 0x9A3E01 ∧ encode (.noff 10 62) = .message 0x9A3E00 := by
  decide +kernel

/-- K-7 and K-23 to K-27: each illegal command is rejected, by name. -/
theorem test_decode_rejects :
    decodeCommand ⟨0x20000100, [0, 0, 0, 0, 0, 0, 0]⟩ = .error .payloadLength ∧
    decodeCommand ⟨0x30000001, []⟩ = .error .addrNotZero ∧
    decodeCommand ⟨0x30001000, []⟩ = .error .reservedBits ∧
    decodeCommand ⟨0x00000000, []⟩ = .error .reservedOp ∧
    decodeCommand ⟨0x80000000, []⟩ = .error .reservedOp ∧
    decodeCommand ⟨0xF0000000, []⟩ = .error .reservedOp ∧
    decodeCommand ⟨0x40000800, []⟩ = .error .addrNotZero ∧
    decodeCommand ⟨0x70000000, [0]⟩ = .error .payloadLength := by decide +kernel

/-- The opcode table's rows as the host numbers them. -/
theorem test_table_words :
    decodeTableWord 32 0x10000000 = some .reset ∧
    decodeTableWord 32 0x20000102 = some (.cfgWrite 0x102 0) ∧
    decodeTableWord 96 (0x20000102 + 7 * 2 ^ 32) = some (.cfgWrite 0x102 7) ∧
    decodeTableWord 32 0x40000000 = some (.buffer []) ∧
    decodeTableWord 24 0x992610 = some (.non 9 38 16) ∧ decodeTableWord 24 0x992600 = some (.noff 9 38) ∧
    decodeTableWord 32 0x80000000 = none ∧
    statusAfter (State.reset.withFetchWord 32 0x30000000) = some 0x403 ∧
    (next? (step (State.reset.withFetchWord 24 0x992610))).map State.out =
      some [⟨0x99, 0x26, 0x10⟩] := by decide +kernel

/-! ### One step each -/

/-- K-28, K-1. -/
theorem test_reset :
    next? (step (sends (runA 2 { ChanState.baseline with noff := 2 }) 0x10000000 [])) =
      some (cleared .config 0) ∧
    next? (step (sends (cleared .error 7) 0x10000000 [])) = some (cleared .config 0) := by
  decide +kernel

/-- K-2, K-3, K-4: the written register, through the whole step. -/
theorem test_cfgWrite_values :
    (next? (step (sends (cleared .config 0) 0x20000100 [0xE8, 3, 0, 0, 0, 0, 0, 0]))).map
      (fun t => ((t.chanCfg 0).trig, (t.chanCfg 1).trig)) = some (1000, 0) ∧
    (next? (step (sends (cleared .config 0) 0x20000111 [0x5C, 0x8F, 0xC2, 0xF5, 0x28, 0x5C, 0xEF, 0x3F]))).map
      (fun t => (t.chanCfg 1).decay) = some 0x3FEF5C28F5C28F5C ∧
    (next? (step (sends (cleared .config 0) 0x20000002 [2, 1, 0, 0, 0, 0, 0, 0]))).map
      (fun t => t.glob.nch) = some 2 := by decide +kernel

/-- K-5, K-6, K-8. -/
theorem test_cfgWrite_faults :
    statusAfter (sends (cleared .config 0) 0x2000010A [1, 0, 0, 0, 0, 0, 0, 0]) = some 0x203 ∧
    statusAfter (sends (cleared .config 0) 0x20000004 [1, 0, 0, 0, 0, 0, 0, 0]) = some 0x203 ∧
    statusAfter (sends (cleared .config 0) 0x20000120 [1, 0, 0, 0, 0, 0, 0, 0]) = some 0x203 ∧
    statusAfter (sends (runA 0 ChanState.baseline) 0x20000100 [1, 0, 0, 0, 0, 0, 0, 0]) =
      some 0x303 := by decide +kernel

/-- A one-channel configuration, strategy `strategy`, with the given `TRIG` and `DECAY`. -/
def configured (strategy : BitVec 1) (trig : BitVec 24) (decay : BitVec 64) : State :=
  mk .config 0 (glob strategy 1 4) ⟨{ cfgA 0 with trig := trig, decay := decay }, ChanState.baseline⟩
    Channel.zero

/-- K-9 to K-12. -/
theorem test_start_checks :
    statusAfter (sends (cleared .config 0) 0x30000000 []) = some 0x403 ∧
    statusAfter (sends (configured 0 32767 0) 0x30000000 []) = some 0x403 ∧
    statusAfter (sends (configured 0 32766 0) 0x30000000 []) = some 1 ∧
    statusAfter (sends (configured 0 1000 0x7FF8000000000000) 0x30000000 []) = some 0x403 ∧
    statusAfter (sends (configured 1 1000 0x7FF8000000000000) 0x30000000 []) = some 1 ∧
    statusAfter (sends (runA 0 ChanState.baseline) 0x30000000 []) = some 0x503 := by decide +kernel

/-- P1's crossing buffer (B-1), then K-14, K-15, K-18. -/
theorem test_buffer :
    next? (step (sends (runB 10 20 ChanState.baseline) 0x40000000 (pcm [0, 0, 5000, 0, 0, 0, 0, 0]))) =
      some (runB 10 20 { ChanState.baseline with phase := .peak, cd := 5, acc := 5000 }) ∧
    statusAfter (sends (cleared .config 0) 0x40000000 []) = some 0x503 ∧
    statusAfter (sends (cleared .stopped 0) 0x40000000 []) = some 0x503 ∧
    next? (step (sends (runB 10 20 { ChanState.baseline with noff := 1 }) 0x40000000 [0, 0, 0])) =
      some { runB 10 20 { ChanState.baseline with noff := 1 } with mode := .error, err := 7 } := by
  decide +kernel

/-- Q-2 (tick, then no forced note-off, then the note-on), and P5's command 14 with a second channel that
does not move (Q-4). -/
theorem test_buffer_messages :
    (next? (step (sends (runA 2 { ChanState.baseline with
        rising := true, prev := 8000, prev2 := 9000, noff := 1 }) 0x40000000 (pcm [2000])))).map
      (fun t => (t.out, (t.chanState 0).noff, (t.chanState 0).wait, t.chanState 1)) =
      some ([⟨0x90, 0x24, 0x00⟩, ⟨0x90, 0x24, 0x20⟩], 3, 2, ChanState.baseline) ∧
    (next? (step (sends (mk .running 0 (glob 1 1 8)
        ⟨{ cfgB 1 0 with noffDelay := 1, midiCh := 15, note := 200 },
          { ChanState.baseline with noff := 1, phase := .peak, cd := 1, acc := 32768 }⟩ Channel.zero)
        0x40000000 (pcm [0, 0, 0, 0, 0, 0, 0, 0])))).map State.out =
      some [⟨0x9F, 0x48, 0x00⟩, ⟨0x9F, 0x48, 0x7F⟩] := by decide +kernel

/-- K-16, K-17, K-21: STOP sends nothing and keeps the record. -/
theorem test_stop :
    next? (step (sends (runA 0 { ChanState.baseline with noff := 2 }) 0x50000000 [])) =
      some { runA 0 { ChanState.baseline with noff := 2 } with mode := .stopped } ∧
    statusAfter (sends (cleared .stopped 0) 0x50000000 []) = some 2 ∧
    statusAfter (sends (cleared .error 7) 0x50000000 []) = some 0x703 := by decide +kernel

/-- K-19, K-20, K-21. -/
theorem test_sourceFail :
    statusAfter (sends (runA 0 ChanState.baseline) 0x60000000 []) = some 0x603 ∧
    statusAfter (sends (cleared .config 0) 0x60000000 []) = some 0x603 ∧
    statusAfter (sends (cleared .error 7) 0x60000000 []) = some 0x703 := by decide +kernel

/-- 45_host_commands.md R183, and K-27, K-22. -/
theorem test_statusRead :
    (next? (step (sends (cleared .error 3) 0x70000000 []))).map State.resp = some [0x303] ∧
    statusAfter (sends (cleared .config 0) 0x70000000 [0]) = some 0x103 ∧
    statusAfter (sends (cleared .error 7) 0x10000001 []) = some 0x703 ∧
    statusAfter (sends (cleared .error 7) 0x80000000 []) = some 0x703 := by decide +kernel

/-- S-7 and S-8 through the scheduler, and NON and NOFF as offered messages. -/
theorem test_messages :
    (noteOn { cfgB 0 0 with midiCh := 0x1A, note := 0xBE } 128 ⟨ChanState.baseline, []⟩).msgs =
      [⟨0x9A, 0x3E, 0x00⟩] ∧
    (noteOn (cfgA 0) (-1) ⟨ChanState.baseline, []⟩).msgs = [⟨0x90, 0x24, 0x7F⟩] ∧
    next? (exec (.non 9 38 16) (cleared .stopped 0)) =
      some { cleared .stopped 0 with out := [⟨0x99, 0x26, 0x10⟩] } ∧
    next? (exec (.noff 9 38) (cleared .config 0)) =
      some { cleared .config 0 with out := [⟨0x99, 0x26, 0x00⟩] } := by decide +kernel

/-- A value that is no message stops the step, by name. -/
theorem test_notAMessage :
    step { cleared .config 0 with emitSlot := some 0x800000 } = .fault .notAMessage := rfl

/-! ### Witnesses: decoding, the step -/

theorem wit_DecodeOfEncodeIsIdentity :
    WellFormed (.cfgWrite 0xFFF (BitVec.allOnes 64)) = true ∧ WellFormed (.non 15 127 1) = true ∧
      WellFormed (.non 0 0 127) = true := by decide

theorem wit_EncodeOfDecodeIsIdentity :
    decode (.command ⟨0x20000FFF, [0, 0, 0, 0, 0, 0, 0, 0]⟩) = .ok (.cfgWrite 0xFFF 0) ∧
      decode (.message 0x9F7F01) = .ok (.non 15 127 1) := by decide +kernel

/-- One illegal command for each item of R76, in CONFIG and in ERROR; and a legal one. -/
theorem wit_IllegalCommandsFaultWithCodeOne :
    (∃ e, decodeCommand ⟨0x00000000, []⟩ = .error e) ∧ (∃ e, decodeCommand ⟨0x80000000, []⟩ = .error e) ∧
    (∃ e, decodeCommand ⟨0x10001000, []⟩ = .error e) ∧ (∃ e, decodeCommand ⟨0x18000000, []⟩ = .error e) ∧
    (∃ e, decodeCommand ⟨0x10000001, []⟩ = .error e) ∧ (∃ e, decodeCommand ⟨0x20000000, []⟩ = .error e) ∧
    (∃ e, decodeCommand ⟨0x50000000, [0]⟩ = .error e) ∧
    decodeCommand ⟨0x40000000, [0]⟩ = .ok (.buffer [0]) ∧
    (cleared .config 0).mode ≠ .error ∧ (cleared .error 2).mode = .error :=
  ⟨⟨_, rfl⟩, ⟨_, rfl⟩, ⟨_, rfl⟩, ⟨_, rfl⟩, ⟨_, rfl⟩, ⟨_, rfl⟩, ⟨_, rfl⟩, by decide +kernel, by decide,
    by decide⟩

/-- A note-off value, a note-on value beside it, and a value that is neither, at the ends of the fields. -/
theorem wit_MessageRowsDecode :
    (0x900000#24 &&& 0xF080FF = 0x900000) ∧ (0x9F7F00#24 &&& 0xF080FF = 0x900000) ∧
    (0x9F7F01#24 &&& 0xF08080 = 0x900000 ∧ 0x9F7F01#24 &&& 0xF080FF ≠ 0x900000) ∧
    (0x9F7F7F#24 &&& 0xF08080 = 0x900000 ∧ 0x9F7F7F#24 &&& 0xF080FF ≠ 0x900000) ∧
    0x9F7F80#24 &&& 0xF08080 ≠ 0x900000 ∧ 0x808000#24 &&& 0xF08080 ≠ 0x900000 := by decide

/-- The first and last register of each block of the map. -/
theorem wit_CfgWriteDataIsLittleEndian :
    (cleared .config 0).mode = .config ∧
    regOfAddr (cleared .config 0).cmax 0x000 = some (.glob .strategy) ∧
    regOfAddr (cleared .config 0).cmax 0x003 = some (.glob .bufFrames) ∧
    regOfAddr (cleared .config 0).cmax 0x100 = some (.chan 0 .trig) ∧
    regOfAddr (cleared .config 0).cmax 0x119 = some (.chan 1 .flags) := by decide

/-- Each clause at the ends of its range, for the largest `CMAX`: no address is in two clauses. -/
theorem wit_ConfigurationAddressMap :
    regOfAddr 240 0x000 = some (.glob .strategy) ∧ regOfAddr 240 0x003 = some (.glob .bufFrames) ∧
    regOfAddr 240 0x004 = none ∧ regOfAddr 240 0x0FF = none ∧
    regOfAddr 240 0x100 = some (.chan 0 .trig) ∧ regOfAddr 240 0x109 = some (.chan 0 .flags) ∧
    regOfAddr 240 0x10A = none ∧ regOfAddr 240 0xFF9 = some (.chan 239 .flags) ∧
    regOfAddr 240 0xFFA = none ∧ regOfAddr 239 0xFF0 = none := by decide +kernel

theorem wit_StepRunsDecodedCommand :
    (sends (cleared .config 0) 0x30000000 []).emitSlot = none ∧
    (sends (cleared .config 0) 0x30000000 []).port = [⟨0x30000000, []⟩] ∧
    decode (.command ⟨0x30000000, []⟩) = .ok .start := by decide +kernel

theorem wit_StepRunsOfferedMessage :
    ({ cleared .config 0 with emitSlot := some 0x992610 } : State).emitSlot = some 0x992610 ∧
    decode (.message 0x992610) = .ok (.non 9 38 16) := by decide +kernel

theorem wit_EveryCommandCompletes :
    (cleared .config 0).emitSlot = none ∧ (cleared .config 0).port = [] ∧
    (sends (cleared .config 0) 0xFFFFFFFF [1]).emitSlot = none := by decide

/-! ### Witnesses: the commands -/

theorem wit_PowerOnStateIsResetState :
    (cleared .error 7).cmax = 2 ∧ (cleared .error 7).nmax = 8 := by decide

theorem wit_CfgWriteEffect :
    (cleared .running 0).mode = .running ∧ (cleared .stopped 0).mode = .stopped ∧
    (cleared .config 0).mode = .config ∧ regOfAddr (cleared .config 0).cmax 0x11A = none ∧
    regOfAddr (cleared .config 0).cmax 0x119 = some (.chan 1 .flags) := by decide

/-- A legal configuration at the ends of the ranges, and one outside each of them. -/
theorem wit_LegalConfigConditions :
    (configured 0 1 0).legalConfig = true ∧ (configured 0 32766 0x7FEFFFFFFFFFFFFF).legalConfig = true ∧
    (configured 0 1000 0x8000000000000000).legalConfig = true ∧
    (configured 0 0 0).legalConfig = false ∧ (configured 0 32767 0).legalConfig = false ∧
    (configured 0 1000 0x7FF0000000000000).legalConfig = false ∧
    (configured 0 1000 0x8000000000000001).legalConfig = false ∧
    (configured 1 1000 0x8000000000000001).legalConfig = true := by decide +kernel

theorem wit_StartEffect :
    (cleared .running 0).mode = .running ∧ (cleared .stopped 0).mode = .stopped ∧
    (cleared .config 0).mode = .config ∧ (cleared .config 0).legalConfig = false ∧
    (configured 0 1000 0).mode = .config ∧ (configured 0 1000 0).legalConfig = true ∧
    (next? (step (sends (configured 0 1000 0) 0x30000000 []))).map State.mode = some .running := by
  decide +kernel

theorem wit_BufferFaultsHaveNoEffect :
    (cleared .config 0).mode = .config ∧ (cleared .stopped 0).mode = .stopped ∧
    (runA 0 ChanState.baseline).mode = .running ∧
    [1].length ≠ (runA 0 ChanState.baseline).glob.bufFrames.toNat *
      (runA 0 ChanState.baseline).glob.nch.toNat * 2 := by decide

theorem wit_BufferStepsEveryChannel :
    (runA 0 ChanState.baseline).mode = .running ∧
    (runA 0 ChanState.baseline).glob.nch.toNat ≤ (runA 0 ChanState.baseline).cmax ∧
    (pcm [5]).length = (runA 0 ChanState.baseline).glob.bufFrames.toNat *
      (runA 0 ChanState.baseline).glob.nch.toNat * 2 ∧
    (runA 0 ChanState.baseline).glob.strategy = 0 ∧ (runB 2 4 ChanState.baseline).mode = .running ∧
    (runB 2 4 ChanState.baseline).glob.nch.toNat ≤ (runB 2 4 ChanState.baseline).cmax ∧
    (pcm [0, 0, 5, 0, 0, 0, 0, 0]).length = (runB 2 4 ChanState.baseline).glob.bufFrames.toNat *
      (runB 2 4 ChanState.baseline).glob.nch.toNat * 2 ∧
    (runB 2 4 ChanState.baseline).glob.strategy = 1 := by decide

theorem wit_StopEffect :
    (cleared .config 0).mode ≠ .error ∧ (cleared .stopped 0).mode = .stopped := by decide

theorem wit_SourceFailEffect :
    (cleared .config 0).mode ≠ .error ∧ (cleared .running 0).mode ≠ .error ∧
      (cleared .stopped 0).mode ≠ .error := by decide

theorem wit_ModeCommandTable :
    (cleared .config 0).mode = .config ∧ (cleared .running 0).mode = .running ∧
    (cleared .stopped 0).mode = .stopped ∧ (cleared .error 3).mode = .error ∧
    ∃ e, decodeCommand ⟨0xF0000000, []⟩ = .error e :=
  ⟨by decide, by decide, by decide, by decide, _, rfl⟩

theorem wit_FaultsArePrecise :
    (cleared .config 0).mode ≠ .error ∧
    ∃ t, step (sends (cleared .config 0) 0x60000000 []) = .next t ∧ t.mode = .error :=
  ⟨by decide, _, rfl, by decide⟩

theorem wit_ErrorModeIsSticky :
    (sends (cleared .error 7) 0x30000000 []).mode = .error ∧
    (sends (cleared .error 7) 0x30000000 []).emitSlot = none ∧
    (0x30000000 : Word).toNat / 2 ^ 28 ≠ 1 ∧ (0x30000000 : Word).toNat / 2 ^ 28 ≠ 7 ∧
    (∃ e, decodeCommand ⟨0x10000001, []⟩ = .error e) ∧
    decodeCommand ⟨0x70000000, []⟩ = .ok .statusRead :=
  ⟨by decide, by decide, by decide, by decide, ⟨_, rfl⟩, by decide +kernel⟩

theorem wit_OnlyResetLeavesErrorAndStopped :
    (∃ t, step (sends (cleared .error 7) 0x10000000 []) = .next t ∧ t.mode ≠ .error) ∧
    ∃ t, step (sends (cleared .stopped 0) 0x10000000 []) = .next t ∧ t.mode = .config :=
  ⟨⟨_, rfl, by decide⟩, _, rfl, by decide⟩

theorem wit_ConfigurationIsImmutableOutsideConfig :
    (∃ t, step (sends (runA 0 ChanState.baseline) 0x50000000 []) = .next t) ∧
    (runA 0 ChanState.baseline).mode ≠ .config ∧ (runA 0 ChanState.baseline).mode ≠ .error ∧
    decodeCommand ⟨0x20000100, [1, 0, 0, 0, 0, 0, 0, 0]⟩ = .ok (.cfgWrite 0x100 1) ∧
    ∃ t, step (sends (runA 0 ChanState.baseline) 0x20000100 [1, 0, 0, 0, 0, 0, 0, 0]) = .next t :=
  ⟨⟨_, rfl⟩, by decide, by decide, by decide +kernel, _, rfl⟩

/-- A buffer that appends a message and a status read that appends an answer. -/
theorem wit_OutputsAreAppendOnly :
    (∃ t, step (sends (runA 0 { ChanState.baseline with noff := 1 }) 0x40000000 (pcm [0])) = .next t ∧
      t.out = [⟨0x90, 0x24, 0x00⟩]) ∧
    ∃ t, step (sends (cleared .config 0) 0x70000000 []) = .next t ∧ t.resp = [0] :=
  ⟨⟨_, rfl, by decide +kernel⟩, _, rfl, by decide +kernel⟩

theorem wit_EveryMessageIsAVoiceMessage :
    ∃ t, step (sends (runA 0 { ChanState.baseline with noff := 1 }) 0x40000000 (pcm [0])) = .next t ∧
      t.out.drop 0 = [⟨0x90, 0x24, 0x00⟩] :=
  ⟨_, rfl, by decide +kernel⟩

/-! ### Witnesses: the decoder and binary64 -/

/-- D-1 to D-5 at the ends of the two ranges. -/
theorem wit_Mag16IsAbsoluteValue :
    (0xFF : Byte).toNat + 256 * (0x7F : Byte).toNat < 0x8000 ∧
    0x8000 ≤ (0x00 : Byte).toNat + 256 * (0x80 : Byte).toNat := by decide

/-- D-10, and an S16_LE sample. -/
theorem wit_SampleLayout :
    1 < (⟨0, 1, 2, 2⟩ : GlobalCfg).nch.toNat ∧ 1 < (⟨0, 1, 2, 2⟩ : GlobalCfg).bufFrames.toNat ∧
    (List.replicate 12 (0 : Byte)).length = 2 * 2 * 3 ∧ sampleOffset ⟨0, 1, 2, 2⟩ 1 1 = 9 ∧
    (pcm [1, 2]).length = 2 * 1 * 2 ∧ (⟨0, 0, 1, 2⟩ : GlobalCfg).format = 0 := by decide

/-- D-11 to D-13. -/
theorem wit_BufferPeakIsTheMaximum :
    1 ≤ (glob 0 1 4).bufFrames.toNat ∧ bufferPeak (glob 0 1 4) (pcm [0, 5000, -7000, 10]) 0 = 7000 ∧
    bufferPeak (glob 0 1 1) (pcm [0]) 0 = 0 ∧ bufferPeak (glob 0 1 1) (pcm [-32768]) 0 = 32768 := by
  decide +kernel

/-- D-14 to D-17. -/
theorem wit_FindCrossingIsTheFirst :
    findCrossing (glob 1 1 4) (pcm [0, 1000, 1001, 5000]) 0 1000 0 4 = some 2 ∧
    findCrossing (glob 1 1 4) (pcm [1000, 1000, 1000, 1000]) 0 1000 0 4 = none ∧
    findCrossing (glob 1 1 4) (pcm [5000, 0, 0, 3000]) 0 1000 1 3 = some 3 := by decide +kernel

/-- D-18 to D-20. -/
theorem wit_SubSpanPeakFoldsTheMaximum :
    subSpanPeak (glob 1 1 3) (pcm [300, 4000, 2500]) 0 0 3 1000 = 4000 ∧
    subSpanPeak (glob 1 1 3) (pcm [300, 4000, 2500]) 0 0 2 9000 = 9000 ∧
    subSpanPeak (glob 1 1 3) (pcm [300, 4000, 2500]) 0 1 0 5000 = 5000 := by decide +kernel

/-- Finite operands; a product and a sum that are not exact (0.98 x 0.98 and 1.0 + 2^-53, a tie), one that
overflows to either sign, a product that underflows to zero, an exact zero sum, and the infinite operands of
A-6i and A-6c. The patterns are those of IEEE 754 arithmetic. -/
theorem wit_FloatsRoundToNearestEven :
    (∃ x, (F64.ofBits 0x3FEF5C28F5C28F5C).value = some x) ∧
    (∃ x, (F64.ofBits 0x7FEFFFFFFFFFFFFF).value = some x) ∧
    fmul (F64.ofBits 0x3FEF5C28F5C28F5C) (F64.ofBits 0x3FEF5C28F5C28F5C) =
      F64.ofBits 0x3FEEBB98C7E28240 ∧
    fadd F64.one (F64.ofBits 0x3CA0000000000000) = F64.one ∧
    fmul (F64.ofBits 0x7FEFFFFFFFFFFFFF) (F64.ofBits 0x4000000000000000) = .inf false ∧
    fmul (F64.ofBits 0x7FEFFFFFFFFFFFFF) (F64.ofBits 0xC000000000000000) = .inf true ∧
    fadd (F64.ofBits 0x7FEFFFFFFFFFFFFF) (F64.ofBits 0x7C90000000000000) = .inf false ∧
    fmul (F64.ofBits 1) (F64.ofBits 0xBFE0000000000000) = .fin true 0 0 ∧
    fadd F64.one (F64.ofBits 0xBFF0000000000000) = F64.posZero ∧
    (∃ x, (F64.ofBits 0x4000000000000000).value = some x ∧ x ≠ 0) ∧ F64.posZero.value = some 0 ∧
    fmul (.inf false) (F64.ofBits 0x4000000000000000) = .inf false ∧
    fadd (f64 1000) (.inf false) = .inf false ∧ fmul (.inf false) F64.posZero = .nan := by
  refine ⟨⟨_, rfl⟩, ⟨_, rfl⟩, by decide +kernel, by decide +kernel, by decide +kernel, by decide +kernel,
    by decide +kernel, by decide +kernel, by decide +kernel, ⟨_, rfl, ?_⟩, ?_, by decide +kernel,
    by decide +kernel, by decide +kernel⟩
  · refine div_ne_zero (Int.cast_ne_zero.2 ?_) (by positivity)
    decide +kernel
  · simp [F64.value, F64.posZero, F64.signed, F64.units]

/-- The ends of each class of patterns: zeros, the largest subnormal, the smallest and the largest normal,
the infinities and NaNs. -/
theorem wit_BitPatternsReadAsBinary64 :
    F64.ofBits 0x8000000000000000 = .fin true 0 0 ∧
    F64.ofBits 0x000FFFFFFFFFFFFF = .fin false 0 0xFFFFFFFFFFFFF ∧
    F64.ofBits 0x0010000000000000 = .fin false 1 0 ∧
    F64.ofBits 0xFFEFFFFFFFFFFFFF = .fin true 2046 0xFFFFFFFFFFFFF ∧
    F64.ofBits 0x7FF0000000000000 = .inf false ∧ F64.ofBits 0xFFF0000000000000 = .inf true ∧
    F64.ofBits 0x7FF0000000000001 = .nan ∧ F64.ofBits 0xFFF8000000000000 = .nan := by decide

/-- The ends of the range, and 8000.0 and -500.0 (A-4, A-7) as patterns. -/
theorem wit_IntegersConvertExactly :
    (2 ^ 25 - 1 : Int).natAbs < 2 ^ 25 ∧ (-(2 ^ 25 - 1) : Int).natAbs < 2 ^ 25 ∧
    f64 8000 = F64.ofBits 0x40BF400000000000 ∧ f64 (-500) = F64.ofBits 0xC07F400000000000 := by
  decide +kernel

theorem wit_ComparisonsAreIeee :
    (∃ x, (F64.ofBits 0x8000000000000000).value = some x) ∧ (∃ y, F64.one.value = some y) ∧
    flt (F64.ofBits 0x8000000000000000) F64.posZero = false ∧
    flt F64.posZero (F64.ofBits 0x8000000000000000) = false ∧ flt F64.posZero F64.one = true :=
  ⟨⟨_, rfl⟩, ⟨_, rfl⟩, by decide +kernel, by decide +kernel, by decide +kernel⟩

/-! ### Witnesses: strategy A -/

/-- A-9e, A-9g and A-6c: IDLE, at the threshold, just above it, and under an infinite envelope. -/
theorem wit_EnvIdleStep :
    let st := { ChanState.baseline with env := F64.ofBits 0x407F400000000000 }
    st.rising = false ∧ st.wait = 0 ∧
    (envStepWith 0 (cfgA 0) 1500 ⟨st, []⟩).st.rising = false ∧
    (envStepWith 0 (cfgA 0) 1501 ⟨st, []⟩).st =
      { st with rising := true, env := F64.ofBits 0x407EA00000000000, prev := 1501 } ∧
    (envStepWith 0 (cfgA 0) 32767 ⟨{ st with env := .inf false }, []⟩).st =
      { st with env := .inf false, prev := 32767 } := by decide +kernel

/-- A-10. -/
theorem wit_EnvWaitingStep :
    let st := { ChanState.baseline with
      wait := 1, env := F64.ofBits 0x40BB580000000000, prev := 1, prev2 := 2 }
    st.rising = false ∧ st.wait ≠ 0 ∧
    envStepWith 0 (cfgA 0) 30000 ⟨st, []⟩ = ⟨{ st with wait := 0, prev := 30000, prev2 := 1 }, []⟩ := by
  decide +kernel

/-- A-3 and A-12. -/
theorem wit_EnvRisingStep :
    let st := { ChanState.baseline with rising := true, prev := 5000, prev2 := 3000 }
    st.rising = true ∧
    ¬(4000 < st.prev.toNat ∧ ((cfgA 0).flags.getLsbD 0 = true ∨ st.prev.toNat < st.prev2.toNat)) ∧
    (envStepWith 0 (cfgA 0) 4000 ⟨st, []⟩).st =
      { st with riseCount := 1, prev := 4000, prev2 := 5000 } ∧
    (envStepWith 0 (cfgA 0) 1 ⟨{ st with riseCount := 0xFFFFFFFF, prev := 1, prev2 := 1 }, []⟩).st.riseCount
      = 0xFFFFFFFF := by decide +kernel

/-- A-3f and A-7. -/
theorem wit_EnvFallEdgeStep :
    let st := { ChanState.baseline with rising := true, prev := 5000, prev2 := 3000 }
    st.rising = true ∧ 4000 < st.prev.toNat ∧ (cfgA 1).flags.getLsbD 0 = true ∧
    envStepWith 0 (cfgA 1) 4000 ⟨st, []⟩ =
      ⟨{ st with
          rising := false, riseCount := 1, wait := 2, env := F64.ofBits 0x409F400000000000, noff := 3,
          prev := 4000, prev2 := 5000 }, [⟨0x90, 0x24, 0x08⟩]⟩ ∧
    (envStepWith 0 (cfgA 2) 2000
      ⟨{ st with prev := 8000, prev2 := 9000, noff := 2 }, []⟩).msgs =
        [⟨0x90, 0x24, 0x00⟩, ⟨0x90, 0x24, 0x20⟩] := by decide +kernel

/-- A-4, A-5 and A-11: below the trigger level, truncated toward zero, and above 127. -/
theorem wit_VelocityARange :
    (0 : Int) < (1000 : BitVec 24).toNat ∧ ((1000 : BitVec 24).toNat : Int) < 0x7FFF ∧
    velocityA 0 (cfgA 0) { ChanState.baseline with prev2 := 500 } = 0 ∧
    velocityA 0 { cfgA 0 with trig := 16000 } ChanState.baseline = -119 ∧
    velocityA 0 { cfgA 0 with trig := 32641 } { ChanState.baseline with prev2 := 32768 } = 128 ∧
    velocityA 0 (cfgA 0) { ChanState.baseline with prev2 := 1000 } = 1 ∧
    velocityA 0 (cfgA 0) { ChanState.baseline with prev2 := 32767 } = 127 := by decide +kernel

/-- A-13 to A-15, as two buffers of a run. -/
theorem wit_FirstFallEdgeIsNotEarly :
    (glob 0 1 1).strategy = 0 ∧ (cfgA 0).flags.getLsbD 0 = false ∧
    (channelRun (glob 0 1 1) (cfgA 0) 0 [pcm [5000], pcm [4000]] ChanState.baseline).msgs = [] ∧
    (channelRun (glob 0 1 1) (cfgA 1) 0 [pcm [5000], pcm [4000]] ChanState.baseline).msgs =
      [⟨0x90, 0x24, 0x7E⟩] := by decide +kernel

/-! ### Witnesses: strategy B -/

/-- A lane at a phase, countdown and accumulator. -/
def laneB (ph : Phase) (cd : BitVec 32) (acc : BitVec 24) : Lane :=
  ⟨{ ChanState.baseline with phase := ph, cd := cd, acc := acc }, []⟩

/-- B-2 and B-3: no crossing, and a crossing at the last frame. -/
theorem wit_PwIdleHandler :
    (laneB .idle 0 0).st.phase = .idle ∧ 0 < (glob 1 1 8).bufFrames.toNat ∧
    (∀ f < 8, mag (glob 1 1 8) (pcm [1000, 1000, 1000, 1000, 1000, 1000, 1000, 1000]) 0 f ≤ 1000) ∧
    (∀ j < 7, mag (glob 1 1 8) (pcm [0, 0, 0, 0, 0, 0, 0, 2000]) 0 j ≤ 1000) ∧
    1000 < mag (glob 1 1 8) (pcm [0, 0, 0, 0, 0, 0, 0, 2000]) 0 7 := by decide +kernel

/-- B-8 completes; with one frame more to scan than the buffer has, the window goes on; and B-3n. -/
theorem wit_PwPeakHandler :
    (laneB .peak 5 5000).st.phase = .peak ∧ (laneB .peak 5 5000).st.cd.toNat < 2 ^ 31 ∧
    pwPass (glob 1 1 8) (cfgB 10 20) (pcm [0, 0, 9000, 0, 0, 7000, 0, 0]) 0 ⟨laneB .peak 5 5000, 0⟩ =
      ⟨⟨{ (laneB .wait 20 9000).st with noff := 3 }, [⟨0x99, 0x26, 0x20⟩]⟩, 5⟩ ∧
    pwPass (glob 1 1 8) (cfgB 10 20) (pcm [0, 0, 9000, 0, 0, 7000, 0, 0]) 0 ⟨laneB .peak 9 5000, 0⟩ =
      ⟨laneB .peak 1 9000, 8⟩ ∧
    (pwPass (glob 1 1 8) (cfgB 0 20) (pcm [0]) 0 ⟨laneB .peak 0 2000, 0⟩).lane.msgs =
      [⟨0x99, 0x26, 0x04⟩] := by decide +kernel

/-- B-7 and B-7b, and the two sides of the boundary `cd = N`. -/
theorem wit_PwWaitHandler :
    (laneB .wait 20 0).st.phase = .wait ∧ (laneB .wait 20 0).st.cd.toNat < 2 ^ 31 ∧
    pwWait (glob 1 1 8) ⟨laneB .wait 20 0, 0⟩ = ⟨laneB .wait 12 0, 8⟩ ∧
    pwWait (glob 1 1 8) ⟨laneB .wait 4 0, 0⟩ = ⟨laneB .idle 0 0, 4⟩ ∧
    pwWait (glob 1 1 8) ⟨laneB .wait 9 0, 0⟩ = ⟨laneB .wait 1 0, 8⟩ ∧
    pwWait (glob 1 1 8) ⟨laneB .wait 8 0, 3⟩ = ⟨laneB .idle 0 0, 8⟩ ∧
    pwWait (glob 1 1 8) ⟨laneB .wait 0 0, 3⟩ = ⟨laneB .idle 0 0, 3⟩ := by decide +kernel

/-- B-5: five passes over one buffer. -/
theorem wit_DispatchLoopTerminates :
    0 ≤ (laneB .idle 0 0).st.cd.toInt ∧ 0 ≤ (cfgB 2 6).peakLen.toInt ∧ 0 ≤ (cfgB 2 6).waitLen.toInt ∧
    pwStep (glob 1 1 8) (cfgB 2 6) (pcm [5000, 0, 0, 0, 0, 0, 0, 3000]) 0 (laneB .idle 0 0) =
      ⟨{ (laneB .peak 2 3000).st with noff := 3 }, [⟨0x99, 0x26, 0x10⟩]⟩ := by decide +kernel

/-- B-6, B-6b, and a peak at the trigger level and at `M`. -/
theorem wit_VelocityBRange :
    (0 : Int) < (32641 : BitVec 24).toNat ∧ ((32641 : BitVec 24).toNat : Int) < 0x7FFF ∧
    velocityB 0 { cfgB 1 20 with trig := 32641 } 32768 = 128 ∧
    velocityB 0 (cfgB 1 20) 32768 = 127 ∧ velocityB 0 (cfgB 1 20) 1000 = 1 ∧
    velocityB 0 (cfgB 1 20) 32767 = 127 := by decide +kernel

/-- B-10's buffer after its tick. -/
theorem wit_NoNoteOnInsideWaitWindow :
    (laneB .wait 100 0).st.phase = .wait ∧ (glob 1 1 8).bufFrames.toNat < (laneB .wait 100 0).st.cd.toNat ∧
    (laneB .wait 100 0).st.cd.toNat < 2 ^ 31 ∧
    pwStep (glob 1 1 8) (cfgB 10 20)
      (pcm [30000, 30000, 30000, 30000, 30000, 30000, 30000, 30000]) 0 (laneB .wait 100 0) =
        laneB .wait 92 0 := by decide +kernel

/-! ### Witnesses: the scheduler, whole channels, invariants -/

/-- S-1 to S-3. -/
theorem wit_NoteOffTimerOperations :
    let st (n : BitVec 32) := { ChanState.baseline with noff := n }
    (st 0).noff.toNat = 0 ∧ (st 1).noff.toNat = 1 ∧ 2 ≤ (st 2).noff.toNat ∧
    tickNoteOff (cfgB 0 0) ⟨st 3, []⟩ = ⟨st 2, []⟩ ∧
    tickNoteOff (cfgB 0 0) ⟨st 1, []⟩ = ⟨st 0, [⟨0x99, 0x26, 0x00⟩]⟩ := by decide +kernel

/-- S-9 with `d = 1` and no earlier buffer, and with `d = 3` and two silent buffers before. -/
theorem wit_NoteOffFiresOncePerArm :
    ({ ChanState.baseline with noff := 3 } : ChanState).noff.toNat =
      [pcm [0], pcm [0]].length + 1 ∧
    AllQuiet (glob 0 1 1) (cfgA 0) 0 [pcm [0], pcm [0]] { ChanState.baseline with noff := 3 } ∧
    ({ ChanState.baseline with noff := 1 } : ChanState).noff.toNat = ([] : List (List Byte)).length + 1 ∧
    DetectorQuiet (glob 0 1 1) (cfgA 0) 0 (pcm [0]) { ChanState.baseline with noff := 1 } := by
  refine ⟨by decide, ⟨?_, ?_, trivial⟩, by decide, ?_⟩ <;> (unfold DetectorQuiet; decide +kernel)

theorem wit_MessagesPerBufferAreBounded :
    (glob 0 1 1).strategy = 0 ∧ (glob 1 1 8).strategy = 1 := by decide

theorem wit_SilenceChangesNothing :
    (∀ b ∈ pcm [0, 0], b = 0) ∧ (cfgA 0).trig ≠ 0 ∧ ChanState.baseline.rising = false ∧
    ChanState.baseline.wait = 0 ∧ ChanState.baseline.env = F64.posZero ∧
    ChanState.baseline.phase = .idle ∧ FiniteNonneg (cfgA 0).decay ∧ (glob 0 1 2).strategy = 0 ∧
    (glob 1 1 2).strategy = 1 := by
  refine ⟨by decide, by decide, rfl, rfl, rfl, rfl, ?_, by decide, by decide⟩
  unfold FiniteNonneg; decide

/-- Two runs that differ in the other channel's registers, record and samples. -/
theorem wit_ChannelsAreIndependent :
    let g := glob 0 2 1
    let s := mk .running 0 g ⟨cfgA 0, ChanState.baseline⟩ ⟨cfgA 1, ChanState.baseline⟩
    let s' := mk .running 0 g ⟨cfgA 0, ChanState.baseline⟩ ⟨cfgB 1 1, { ChanState.baseline with noff := 1 }⟩
    s.mode = .running ∧ s'.mode = .running ∧ s.glob.nch.toNat ≤ s.cmax ∧ s.glob.nch.toNat ≤ s'.cmax ∧
    s'.glob = s.glob ∧ s'.chanCfg 0 = s.chanCfg 0 ∧ s'.chanState 0 = s.chanState 0 ∧
    (pcm [5, 7]).length = bufferBytes s.glob ∧ (pcm [5, 9]).length = bufferBytes s.glob ∧
    (∀ f < 1, ∀ j < sampleBytes g.format,
      (pcm [5, 9])[sampleOffset g 0 f + j]? = (pcm [5, 7])[sampleOffset g 0 f + j]?) ∧
    (∃ t, exec (.buffer (pcm [5, 7])) s = .next t) ∧ ∃ t, exec (.buffer (pcm [5, 9])) s' = .next t :=
  ⟨by decide, by decide, by decide, by decide, by decide, by decide, by decide, by decide, by decide,
    by decide +kernel, ⟨_, rfl⟩, _, rfl⟩

theorem wit_ResetMeetsInvariant :
    Config.legalParams 1 1 ∧ Config.legalParams Config.cmaxLimit Config.nmaxLimit := by
  unfold Config.legalParams; decide

/-- A state of a run that has the invariant, with a step. -/
theorem wit_EveryStepKeepsInvariant :
    (sends (mk .error 6 GlobalCfg.zero Channel.zero Channel.zero) 0x70000000 []).Inv ∧
    ∃ t, step (sends (mk .error 6 GlobalCfg.zero Channel.zero Channel.zero) 0x70000000 []) = .next t :=
  ⟨⟨by unfold Config.legalParams; decide, by decide, by decide, fun h => absurd h (by decide),
    fun h => absurd h (by decide)⟩, _, rfl⟩

theorem wit_ParametersAndOptionsAreFixed :
    ∃ t, step (sends (runA 0 ChanState.baseline) 0x40000000 (pcm [0])) = .next t ∧
      (runA 0 ChanState.baseline).mode = .running ∧ t.mode = .running :=
  ⟨_, rfl, by decide, by decide +kernel⟩

end Sys2Proof.Tests
end

section
/-! SUPPORT. 00_scope.md R7 and R3: the parameters, and the options of a run. -/

namespace Sys2Proof.Machine

/-- The parameters are those of `s`, and so are the options where both states are in a run. -/
def State.KeepsParams (s t : State) : Prop :=
  t.cmax = s.cmax ∧ t.nmax = s.nmax ∧
    (s.mode = .running → t.mode = .running →
      t.glob.strategy = s.glob.strategy ∧ t.glob.format = s.glob.format)

/-- An instruction writes a global register in CONFIG only, or takes the block there. -/
theorem exec_keepsParams {i : Instr} {s t : State} (h : exec i s = .next t) : s.KeepsParams t := by
  unfold State.KeepsParams
  rcases exec_cases h with ⟨-, rfl⟩ | ⟨-, rfl⟩ | ⟨c, n, v, rfl, -⟩ | ⟨-, rfl⟩ | ⟨-, n, -, -, rfl, -⟩ |
    ⟨hconfig, a, d, r, -, -, rfl⟩ | ⟨-, -, -, rfl⟩ | ⟨-, p, -, -, rfl⟩ | ⟨-, -, rfl⟩
  · simp
  · simp [State.cmax]
  · simp
  · simp
  · simp [State.cmax]
  · exact ⟨by simp, by simp, fun hrun => by simp [hconfig] at hrun⟩
  · simp
  · obtain ⟨-, -, hglob, hcmax, hnmax, -⟩ := bufferStep_frame p s
    exact ⟨hcmax, hnmax, fun _ _ => by simp [hglob]⟩
  · simp

end Sys2Proof.Machine
end

section
/-! SUPPORT. 00_scope.md R10: the numbers finite data stand for, as integers of units of 2^-1074, and the IEEE
comparison of them. -/

namespace Sys2Proof

/-- A datum that stands for a number is finite, and the number is its units of 2^-1074. -/
theorem F64.value_eq_some {a : F64} {x : ℚ} (h : a.value = some x) :
    ∃ n e f, a = .fin n e f ∧ x = (F64.signed n (F64.units e f) : ℚ) / 2 ^ 1074 := by
  cases a with
  | fin n e f => exact ⟨n, e, f, rfl, (Option.some.inj h).symm⟩
  | inf n => cases h
  | nan => cases h

@[simp] theorem F64.natAbs_signed (neg : Bool) (n : Nat) : (F64.signed neg n).natAbs = n := by
  cases neg <;> simp [F64.signed]

theorem F64.signed_natAbs (n : Int) : F64.signed (decide (n < 0)) n.natAbs = n := by
  rcases lt_or_ge n 0 with h | h
  · simp [F64.signed, h, abs_of_neg h]
  · simp [F64.signed, h.not_gt, abs_of_nonneg h]

theorem F64.signed_mul (neg : Bool) (m n : Nat) : F64.signed neg (m * n) = m * F64.signed neg n := by
  cases neg <;> simp [F64.signed]

theorem F64.signed_mul_signed (neg neg' : Bool) (m n : Nat) :
    F64.signed neg m * F64.signed neg' n = F64.signed (neg != neg') (m * n) := by
  cases neg <;> cases neg' <;> simp [F64.signed]

theorem F64.zero_value (neg : Bool) : (F64.fin neg 0 0).value = some 0 := by
  cases neg <;> simp [F64.value, F64.signed, F64.units]

/-- The exponent field bounds the binade. -/
theorem F64.units_lt_of_exp_le {e : Fin 2047} {k : Nat} (f : BitVec 52) (h : e.val ≤ k) :
    F64.units e f < 2 ^ (52 + k) := by
  have hf := f.isLt
  unfold F64.units
  split
  · exact lt_of_lt_of_le hf (pow_le_pow_right₀ one_le_two (by omega))
  · have hnormal : (2 ^ 52 + f.toNat) * 2 ^ (e.val - 1) < 2 ^ 53 * 2 ^ (e.val - 1) :=
      Nat.mul_lt_mul_of_pos_right (by omega) (Nat.two_pow_pos _)
    rw [← pow_add] at hnormal
    exact hnormal.trans_le (pow_le_pow_right₀ one_le_two (by omega))

theorem F64.units_lt (e : Fin 2047) (f : BitVec 52) : F64.units e f < 2 ^ 2098 :=
  (F64.units_lt_of_exp_le f (Nat.le_of_lt_succ e.isLt)).trans_le
    (pow_le_pow_right₀ one_le_two (by decide))

theorem F64.flt_fin_iff (n n' : Bool) (e e' : Fin 2047) (f f' : BitVec 52) :
    flt (.fin n e f) (.fin n' e' f') = true ↔
      F64.signed n (F64.units e f) < F64.signed n' (F64.units e' f') := by
  simp only [flt, Bool.and_eq_true, decide_eq_true_iff]
  simp [F64.place]

/-- Every finite datum lies strictly between the places of the two infinities. -/
theorem F64.signed_units_bounds (n : Bool) (e : Fin 2047) (f : BitVec 52) :
    -(2 ^ 2098 : ℕ) < F64.signed n (F64.units e f) ∧ F64.signed n (F64.units e f) < (2 ^ 2098 : ℕ) := by
  have h := F64.units_lt e f
  generalize 2 ^ 2098 = M at *
  cases n <;> simp [F64.signed] <;> omega

theorem F64.flt_inf (a : F64) (x : ℚ) (h : a.value = some x) :
    flt a (.inf false) = true ∧ flt (.inf true) a = true ∧
    flt (.inf false) a = false ∧ flt a (.inf true) = false := by
  obtain ⟨n, e, f, rfl, -⟩ := F64.value_eq_some h
  obtain ⟨hlo, hhi⟩ := F64.signed_units_bounds n e f
  generalize hM : 2 ^ 2098 = M at *
  have hp : F64.signed false (2 ^ 2098) = (M : ℤ) := by rw [hM]; rfl
  have hm : F64.signed true (2 ^ 2098) = -(M : ℤ) := by rw [hM]; rfl
  simp only [flt, F64.place, hp, hm]
  simp [hlo, hhi, hlo.le, hhi.le]

end Sys2Proof
end

section
/-! SUPPORT. Conversions that rounding leaves exact (00_scope.md R10, 41_envelope_decay.md R115). -/

namespace Sys2Proof

theorem F64.nearestEven_of_dvd {n d : Nat} (h : 2 ^ d ∣ n) : F64.nearestEven n d * 2 ^ d = n := by
  have hmod : n % 2 ^ d = 0 := Nat.mod_eq_zero_of_dvd h
  have : F64.nearestEven n d = n / 2 ^ d := by simp [F64.nearestEven, hmod]
  rw [this, Nat.div_mul_cancel h]

theorem two_pow_le_sub {a b c : Nat} (ha : a < b) (hc : c < b) : 2 ^ a ≤ 2 ^ b - 2 ^ c := by
  obtain ⟨k, rfl⟩ : ∃ k, b = k + 1 := ⟨b - 1, by omega⟩
  have h1 : 2 ^ a ≤ 2 ^ k := Nat.pow_le_pow_right (by decide) (by omega)
  have h2 : 2 ^ c ≤ 2 ^ k := Nat.pow_le_pow_right (by decide) (by omega)
  rw [pow_succ]
  omega

/-- A number below 2^1023 does not overflow. -/
theorem F64.round_fin_of_lt {n d : Nat} (neg : Bool) (h : n < 2 ^ (2097 + d)) :
    ∃ e f, F64.round neg n d = .fin neg e f := by
  rcases F64.round_cases neg n d with ⟨-, hfin⟩ | ⟨hge, -⟩
  · exact hfin
  · have hlimit : 2 ^ 2097 ≤ 2 ^ 2098 - 2 ^ 2044 := two_pow_le_sub (by decide) (by decide)
    rw [pow_add] at h
    exact absurd ((Nat.mul_le_mul_right _ hlimit).trans hge) h.not_ge

/-- A magnitude that is a multiple of the scale rounding picks is not changed by rounding. -/
theorem F64.round_value_of_dvd {neg : Bool} {n : Nat} (hlt : n < 2 ^ 2097)
    (hdvd : 2 ^ F64.dropped n 0 ∣ n) :
    (F64.round neg n 0).value = some ((F64.signed neg n : ℚ) / 2 ^ 1074) := by
  obtain ⟨e, f, hr⟩ := F64.round_fin_of_lt (d := 0) neg (by rwa [add_zero])
  obtain ⟨-, hunits, -⟩ := F64.round_eq_fin hr
  rw [zero_add, F64.nearestEven_of_dvd hdvd] at hunits
  rw [hr, F64.value, hunits]

/-- A number of at most `53 + k` bits loses at most `k` of them. -/
theorem F64.dropped_le_of_lt {n k : Nat} (h : n < 2 ^ (52 + k + 1)) : F64.dropped n 0 ≤ k := by
  have hlog : Nat.log2 n < 52 + k + 1 := by
    rcases eq_or_ne n 0 with rfl | h0
    · simp
    · exact (Nat.log2_lt h0).2 h
  unfold F64.dropped
  omega

/-- An integer below 2^25 has at most 1074 bits too many as units of 2^-1074, all of them 0. -/
theorem F64.f64_value {n : Int} (h : n.natAbs < 2 ^ 25) : (f64 n).value = some (n : ℚ) := by
  have hlt {m : Nat} (hm : 25 + 1074 ≤ m) : 2 ^ 1074 * n.natAbs < 2 ^ m := by
    refine lt_of_lt_of_le ?_ (pow_le_pow_right₀ one_le_two hm)
    rw [mul_comm, pow_add 2 25]
    exact mul_lt_mul_of_pos_right h (pow_pos two_pos _)
  have hdvd : 2 ^ F64.dropped (2 ^ 1074 * n.natAbs) 0 ∣ 2 ^ 1074 * n.natAbs :=
    (pow_dvd_pow 2 (F64.dropped_le_of_lt (hlt (by decide)))).trans (Nat.dvd_mul_right _ _)
  rw [f64, F64.round_value_of_dvd (hlt (by decide)) hdvd, F64.signed_mul, F64.signed_natAbs,
    Int.cast_mul, Int.cast_natCast, Nat.cast_pow, Nat.cast_ofNat,
    mul_div_cancel_left₀ _ (pow_ne_zero _ two_ne_zero)]

theorem F64.one_value : F64.one.value = some 1 := by
  have : F64.one = .fin false 1023 0 := by decide
  have h : F64.units 1023 0 = 2 ^ 1074 := by decide +kernel
  rw [this, F64.value, h, F64.signed, if_neg Bool.false_ne_true, Int.cast_natCast, Nat.cast_pow,
    Nat.cast_ofNat]
  exact congrArg some (div_self (pow_ne_zero _ two_ne_zero))

end Sys2Proof
end

section
/-! SUPPORT. `F64.round` answers the nearest binary64: first over the integers, with `n / 2^d` compared to every
whole number of units a finite datum can be, then over the rationals the statements speak of. -/

namespace Sys2Proof

/-- A finite magnitude is a whole number of steps of `2^k` units, or is below the binade of that step. -/
theorem F64.units_dvd_or_lt (e : Fin 2047) (f : BitVec 52) (k : Nat) :
    2 ^ k ∣ F64.units e f ∨ (0 < k ∧ F64.units e f < 2 ^ (52 + k)) := by
  rcases Nat.eq_zero_or_pos k with rfl | hk
  · simp
  rcases Nat.lt_or_ge k e.val with h | h
  · left
    rw [F64.units, if_neg (by omega)]
    exact Dvd.dvd.mul_left (pow_dvd_pow 2 (by omega)) _
  · exact .inr ⟨hk, F64.units_lt_of_exp_le f h⟩

/-- `nearestEven` is off by at most half a step, and even where it is off by half a step. -/
theorem F64.nearestEven_error (n d : Nat) :
    2 * |(n : ℤ) - F64.nearestEven n d * 2 ^ d| ≤ 2 ^ d ∧
    (2 * |(n : ℤ) - F64.nearestEven n d * 2 ^ d| = 2 ^ d → F64.nearestEven n d % 2 = 0) := by
  obtain ⟨hup, hdown, htie⟩ := F64.nearestEven_spec n d
  generalize F64.nearestEven n d = m at *
  rw [mul_assoc] at hup hdown htie
  have hstep : ((m * 2 ^ d : ℕ) : ℤ) = m * 2 ^ d := by push_cast; rfl
  have hpos : ((2 ^ d : ℕ) : ℤ) = 2 ^ d := by push_cast; rfl
  rw [← hstep, ← hpos]
  generalize m * 2 ^ d = M at *
  generalize 2 ^ d = D at *
  rcases abs_cases ((n : ℤ) - M) with ⟨habs, -⟩ | ⟨habs, -⟩ <;>
    exact ⟨by omega, fun h => htie (by omega)⟩

/-- A move by at least a step from a point off by at most half a step does not come closer, and comes as close
only from half a step. -/
theorem abs_le_abs_add_of_step {x y D : ℤ} (hx : 2 * |x| ≤ D) (hy : D ≤ |y|) :
    |x| ≤ |x + y| ∧ (|x| = |x + y| → 2 * |x| = D) := by
  have htri : |y| ≤ |x + y| + |x| := by simpa using abs_sub (x + y) x
  omega

/-- `z` is at least as close to `q` as `w` is, and `even` holds where another `w` is as close. -/
def AsClose {α : Type} [AddCommGroup α] [LinearOrder α] (q z w : α) (even : Prop) : Prop :=
  |q - z| ≤ |q - w| ∧ (|q - z| = |q - w| → w ≠ z → even)

theorem AsClose.neg {q z w : ℤ} {even : Prop} (h : AsClose q z w even) :
    AsClose (-q) (-z) (-w) even := by
  have hflip (x : ℤ) : |-q - -x| = |q - x| := by rw [← neg_sub', abs_neg]
  unfold AsClose
  rw [hflip, hflip, Ne, neg_inj]
  exact h

/-- Closeness of whole numbers of units is that of the numbers in units of 2^-p, the first of them divided by
`2^d`. -/
theorem AsClose.scale {q z w : ℤ} {even : Prop} {d : Nat} (p : Nat)
    (h : AsClose q (z * 2 ^ d) (w * 2 ^ d) even) :
    AsClose ((q : ℚ) / 2 ^ (d + p)) (z / 2 ^ p) (w / 2 ^ p) even := by
  have hpos : (0 : ℚ) < 2 ^ (d + p) := by positivity
  have hdist (y : ℤ) : |(q : ℚ) / 2 ^ (d + p) - y / 2 ^ p| = (|q - y * 2 ^ d| : ℤ) / 2 ^ (d + p) := by
    rw [Int.cast_abs, ← abs_of_pos hpos, ← abs_div, abs_of_pos hpos]
    push_cast
    rw [sub_div, pow_add, mul_comm (2 ^ d : ℚ), mul_div_mul_right _ _ (by positivity)]
  obtain ⟨hle, htie⟩ := h
  unfold AsClose
  rw [hdist, hdist, div_le_div_iff_of_pos_right hpos, div_left_inj' hpos.ne', Int.cast_le, Int.cast_inj]
  exact ⟨hle, fun heq hne => htie heq fun hzw =>
    hne (by rw [mul_right_cancel₀ (pow_ne_zero d two_ne_zero) hzw])⟩

/-- No whole number of steps is closer to `n` than the one `nearestEven` picks, and another one as close makes
that one even. -/
theorem F64.nearestEven_asClose (n d : Nat) (j : ℤ) :
    AsClose (n : ℤ) (F64.nearestEven n d * 2 ^ d) (j * 2 ^ d) (F64.nearestEven n d % 2 = 0) := by
  obtain ⟨herr, htie⟩ := F64.nearestEven_error n d
  generalize F64.nearestEven n d = m at *
  rcases eq_or_ne j m with rfl | hne
  · exact ⟨le_rfl, fun _ h => absurd rfl h⟩
  · have hmove : (2 : ℤ) ^ d ≤ |(m - j) * 2 ^ d| := by
      rw [abs_mul, abs_of_pos (pow_pos (two_pos (α := ℤ)) d)]
      exact le_mul_of_one_le_left (by positivity) (Int.one_le_abs (sub_ne_zero.2 hne.symm))
    have hsum : (n : ℤ) - j * 2 ^ d = (n - m * 2 ^ d) + (m - j) * 2 ^ d := by ring
    obtain ⟨hle, heq⟩ := abs_le_abs_add_of_step herr hmove
    unfold AsClose
    rw [hsum]
    exact ⟨hle, fun h _ => htie (heq h)⟩

/-- No finite datum is closer to `n / 2^d` than the magnitude `F64.round` picks, and another one as close makes
the significand picked even. Where low bits were dropped, a datum that is no whole number of the steps left
is below the binade of `n / 2^d`, and the bottom of the binade is closer. -/
theorem F64.round_asClose (n d : Nat) {t : ℤ} {e : Fin 2047} {f : BitVec 52}
    (ht : t.natAbs = F64.units e f) :
    AsClose (n : ℤ)
      ((F64.nearestEven n (d + F64.dropped n d) * 2 ^ F64.dropped n d : ℕ) * 2 ^ d) (t * 2 ^ d)
      (F64.nearestEven n (d + F64.dropped n d) % 2 = 0) := by
  have hclosest := F64.nearestEven_asClose n (d + F64.dropped n d)
  have hlow := F64.dropped_low (n := n) (d := d)
  have hgrid := F64.units_dvd_or_lt e f (F64.dropped n d)
  generalize F64.nearestEven n (d + F64.dropped n d) = m at *
  generalize F64.dropped n d = k at *
  have hscale (j : ℤ) : j * 2 ^ (d + k) = j * 2 ^ k * 2 ^ d := by ring
  simp only [hscale] at hclosest
  push_cast
  rcases hgrid with hdvd | ⟨hk, hlt⟩
  · obtain ⟨j, rfl⟩ : (2 : ℤ) ^ k ∣ t := by
      rw [← ht] at hdvd
      exact_mod_cast Int.natCast_dvd.2 hdvd
    rw [mul_comm _ j]
    exact hclosest j
  · have hbelow : |t * 2 ^ d| < 2 ^ 52 * 2 ^ k * 2 ^ d := by
      rw [abs_mul, abs_of_pos (pow_pos (two_pos (α := ℤ)) d), Int.abs_eq_natAbs, ht, ← pow_add]
      exact mul_lt_mul_of_pos_right (by exact_mod_cast hlt) (by positivity)
    have hbinade : (2 : ℤ) ^ 52 * 2 ^ k * 2 ^ d ≤ n := by
      rw [← hscale, ← pow_add]
      exact_mod_cast hlow hk
    have hcloser : |(n : ℤ) - 2 ^ 52 * 2 ^ k * 2 ^ d| < |n - t * 2 ^ d| := by
      rw [abs_of_nonneg (sub_nonneg.2 hbinade)]
      have := le_abs_self (t * 2 ^ d)
      have := le_abs_self (n - t * 2 ^ d)
      linarith
    have hstrict := (hclosest (2 ^ 52)).1.trans_lt hcloser
    exact ⟨hstrict.le, fun h => absurd h hstrict.ne⟩

/-- The same for either sign, over the numbers a finite answer and a finite datum stand for. -/
theorem F64.round_value_asClose {neg s : Bool} {n d : Nat} {e : Fin 2047} {f : BitVec 52}
    (hr : F64.round neg n d = .fin s e f) {b : F64} {w : ℚ} (hw : b.value = some w) :
    AsClose ((F64.signed neg n : ℚ) / 2 ^ (d + 1074)) ((F64.signed s (F64.units e f) : ℚ) / 2 ^ 1074) w
      (F64.fin s e f).evenSignificand := by
  obtain ⟨rfl, hunits, heven⟩ := F64.round_eq_fin hr
  obtain ⟨s', e', f', rfl, rfl⟩ := F64.value_eq_some hw
  have hgoal : (F64.fin s e f).evenSignificand ↔ F64.nearestEven n (d + F64.dropped n d) % 2 = 0 := by
    rw [F64.evenSignificand, heven, decide_eq_false_iff_not, Nat.mod_two_not_eq_one]
  rw [hunits, hgoal]
  refine AsClose.scale 1074 ?_
  have ht := F64.natAbs_signed s' (F64.units e' f')
  generalize F64.signed s' (F64.units e' f') = t at *
  cases s with
  | false => exact F64.round_asClose n d ht
  | true =>
    have h := (F64.round_asClose n d (t := -t) (by rwa [Int.natAbs_neg])).neg
    rwa [neg_mul, neg_neg, ← neg_mul] at h

/-- The overflow limit in units of 2^-p, for a number divided by `2^d`. -/
theorem abs_scaled_lt_iff {a b A B p : Nat} (neg : Bool) (n d : Nat) (hA : A = a + p) (hB : B = b + p)
    (hba : b ≤ a) :
    |(F64.signed neg n : ℚ) / 2 ^ (d + p)| < 2 ^ a - 2 ^ b ↔ n < (2 ^ A - 2 ^ B) * 2 ^ d := by
  have hle : 2 ^ B ≤ 2 ^ A := pow_le_pow_right₀ one_le_two (by omega)
  have habs : |(F64.signed neg n : ℚ)| = n := by cases neg <;> simp [F64.signed]
  have hlimit : ((2 ^ a - 2 ^ b : ℚ)) * 2 ^ (d + p) = ((2 ^ A - 2 ^ B) * 2 ^ d : ℕ) := by
    rw [Nat.cast_mul, Nat.cast_sub hle, hA, hB]
    push_cast
    ring
  rw [abs_div, abs_of_pos (by positivity : (0 : ℚ) < 2 ^ (d + p)), div_lt_iff₀ (by positivity), habs,
    hlimit, Nat.cast_lt]

theorem decide_scaled_neg {n : Nat} (neg : Bool) (p : Nat) (h : 0 < n) :
    decide ((F64.signed neg n : ℚ) / 2 ^ p < 0) = neg := by
  have hp : (0 : ℚ) < 2 ^ p := by positivity
  have hn : (0 : ℚ) < n := by exact_mod_cast h
  cases neg
  · simpa [F64.signed] using (div_pos hn hp).le
  · simpa [F64.signed, neg_div] using div_pos hn hp

/-- `r` is the binary64 nearest to `q`, a tie to the even significand; the infinity of the sign of `q` from
half an ulp beyond the largest finite one on (R10). -/
def F64.RoundsTo (r : F64) (q : ℚ) : Prop :=
  (|q| < 2 ^ 1024 - 2 ^ 970 → ∃ z, r.value = some z ∧
    ∀ (d : F64) (w : ℚ), d.value = some w → AsClose q z w r.evenSignificand) ∧
  (2 ^ 1024 - 2 ^ 970 ≤ |q| → r = .inf (decide (q < 0)))

theorem F64.round_roundsTo (neg : Bool) (n d : Nat) :
    (F64.round neg n d).RoundsTo ((F64.signed neg n : ℚ) / 2 ^ (d + 1074)) := by
  have hlimit := abs_scaled_lt_iff (a := 1024) (b := 970) (A := 2098) (B := 2044) (p := 1074) neg n d
    rfl rfl (by decide)
  rcases F64.round_cases neg n d with ⟨hlt, e, f, hr⟩ | ⟨hge, hr⟩
  · refine ⟨fun _ => ?_, fun hq => absurd (hlimit.2 hlt) hq.not_gt⟩
    rw [hr]
    exact ⟨_, rfl, fun _ _ => F64.round_value_asClose hr⟩
  · have hn : 0 < n := by
      refine lt_of_lt_of_le (Nat.mul_pos ?_ (Nat.two_pow_pos d)) hge
      exact Nat.sub_pos_of_lt (pow_lt_pow_right₀ one_lt_two (by decide))
    refine ⟨fun hq => absurd (hlimit.1 hq) hge.not_gt, fun _ => ?_⟩
    rw [hr, decide_scaled_neg neg _ hn]

@[simp] theorem F64.round_negative (neg : Bool) (n d : Nat) : (F64.round neg n d).negative = neg := by
  rcases F64.round_cases neg n d with ⟨-, e, f, h⟩ | ⟨-, h⟩ <;> rw [h] <;> rfl

theorem F64.zero_roundsTo (neg : Bool) : (F64.fin neg 0 0).RoundsTo 0 := by
  refine ⟨fun _ => ⟨0, F64.zero_value neg, fun _ _ _ => ⟨by simp, fun _ _ => rfl⟩⟩, fun h => ?_⟩
  have hlimit : (0 : ℚ) < 2 ^ 1024 - 2 ^ 970 := sub_pos.2 (pow_lt_pow_right₀ one_lt_two (by decide))
  rw [abs_zero] at h
  exact absurd hlimit h.not_gt

/-- The exact product of two finite data is a whole number of units of 2^-2148, which `fmul` rounds once. -/
theorem F64.fmul_roundsTo {a b : F64} {x y : ℚ} (ha : a.value = some x) (hb : b.value = some y) :
    (fmul a b).RoundsTo (x * y) := by
  obtain ⟨n, e, f, rfl, rfl⟩ := F64.value_eq_some ha
  obtain ⟨n', e', f', rfl, rfl⟩ := F64.value_eq_some hb
  rw [div_mul_div_comm, ← Int.cast_mul, F64.signed_mul_signed, ← pow_add]
  exact F64.round_roundsTo _ _ _

theorem F64.ofSum_roundsTo (bothNeg : Bool) (sum : ℤ) :
    (F64.ofSum bothNeg sum).RoundsTo ((sum : ℚ) / 2 ^ 1074) := by
  unfold F64.ofSum
  split
  · next h =>
    rw [h, Int.cast_zero, zero_div]
    exact F64.zero_roundsTo bothNeg
  · have h := F64.round_roundsTo (decide (sum < 0)) sum.natAbs 0
    rwa [F64.signed_natAbs, zero_add] at h

/-- The exact sum of two finite data is a whole number of units of 2^-1074, which `fadd` rounds once. -/
theorem F64.fadd_roundsTo {a b : F64} {x y : ℚ} (ha : a.value = some x) (hb : b.value = some y) :
    (fadd a b).RoundsTo (x + y) := by
  obtain ⟨n, e, f, rfl, rfl⟩ := F64.value_eq_some ha
  obtain ⟨n', e', f', rfl, rfl⟩ := F64.value_eq_some hb
  rw [← add_div, ← Int.cast_add]
  exact F64.ofSum_roundsTo _ _

theorem F64.fadd_negative_of_zero {a b : F64} {x y : ℚ} (ha : a.value = some x) (hb : b.value = some y)
    (hzero : x + y = 0) : (fadd a b).negative = (a.negative && b.negative) := by
  obtain ⟨n, e, f, rfl, rfl⟩ := F64.value_eq_some ha
  obtain ⟨n', e', f', rfl, rfl⟩ := F64.value_eq_some hb
  rw [← add_div, ← Int.cast_add] at hzero
  have hsum : F64.signed n (F64.units e f) + F64.signed n' (F64.units e' f') = 0 :=
    Int.cast_eq_zero.1 ((div_eq_zero_iff.1 hzero).resolve_right (pow_ne_zero _ two_ne_zero))
  rw [fadd, F64.ofSum, if_pos hsum]
  rfl

theorem F64.fmul_negative {a b : F64} (h : fmul a b ≠ .nan) :
    (fmul a b).negative = (a.negative != b.negative) := by
  cases a with
  | nan => exact absurd rfl h
  | fin n e f =>
    cases b with
    | nan => exact absurd rfl h
    | fin n' e' f' => exact F64.round_negative _ _ _
    | inf n' =>
      by_cases hz : F64.units e f = 0
      · exact absurd (if_pos hz) h
      · exact congrArg F64.negative (if_neg hz)
  | inf n =>
    cases b with
    | nan => exact absurd rfl h
    | inf n' => rfl
    | fin n' e' f' =>
      by_cases hz : F64.units e' f' = 0
      · exact absurd (if_pos hz) h
      · exact congrArg F64.negative (if_neg hz)

/-- A finite datum is zero where its magnitude is, and has the sign of its sign bit elsewhere. -/
theorem F64.value_zero_or_signed {n : Bool} {e : Fin 2047} {f : BitVec 52} {x : ℚ}
    (h : (F64.fin n e f).value = some x) :
    (x = 0 ∧ F64.units e f = 0) ∨ (x ≠ 0 ∧ F64.units e f ≠ 0 ∧ decide (x < 0) = n) := by
  obtain rfl : _ = x := Option.some.inj h
  rcases Nat.eq_zero_or_pos (F64.units e f) with hz | hpos
  · left
    rw [hz]
    cases n <;> simp [F64.signed]
  · right
    refine ⟨div_ne_zero (Int.cast_ne_zero.2 fun hz => hpos.ne' ?_) (pow_ne_zero _ two_ne_zero), hpos.ne',
      decide_scaled_neg n 1074 hpos⟩
    rw [← F64.natAbs_signed n (F64.units e f), hz, Int.natAbs_zero]

theorem F64.fmul_inf {a : F64} {x : ℚ} (n : Bool) (ha : a.value = some x) :
    (x = 0 → fmul a (.inf n) = .nan ∧ fmul (.inf n) a = .nan) ∧
    (x ≠ 0 → fmul a (.inf n) = .inf (decide (x < 0) != n) ∧
      fmul (.inf n) a = .inf (decide (x < 0) != n)) := by
  obtain ⟨m, e, f, rfl, -⟩ := F64.value_eq_some ha
  rcases F64.value_zero_or_signed ha with ⟨hx, hz⟩ | ⟨hx, hz, hsign⟩
  · simp [fmul, hx, hz]
  · simp [fmul, hx, hz, hsign, Bool.xor_comm]

theorem F64.fadd_inf {a : F64} {x : ℚ} (n : Bool) (ha : a.value = some x) :
    fadd a (.inf n) = .inf n ∧ fadd (.inf n) a = .inf n := by
  obtain ⟨m, e, f, rfl, -⟩ := F64.value_eq_some ha
  exact ⟨rfl, rfl⟩

theorem F64.nan_operand (a : F64) :
    fmul a .nan = .nan ∧ fmul .nan a = .nan ∧ fadd a .nan = .nan ∧ fadd .nan a = .nan := by
  cases a <;> exact ⟨rfl, rfl, rfl, rfl⟩

end Sys2Proof
end

section
/-! The statements of 00_scope.md. -/

open Sys2Proof Sys2Proof.Machine

/-- Settles O37: both operations compute the exact result and round it once (`F64.round_roundsTo`). -/
theorem floatsRoundToNearestEven : Obligations.FloatsRoundToNearestEven := by
  refine ⟨fun a b x y ha hb => ?_, fun a b => F64.fmul_negative, fun a x n ha => ?_,
    fun m n => ⟨rfl, rfl⟩, F64.nan_operand⟩
  · exact ⟨F64.fmul_roundsTo ha hb, F64.fadd_roundsTo ha hb, F64.fadd_negative_of_zero ha hb⟩
  · obtain ⟨hzero, hnonzero⟩ := F64.fmul_inf n ha
    exact ⟨hzero, hnonzero, F64.fadd_inf n ha⟩

/-- Settles O38: a conversion drops only bits that are 0. -/
theorem integersConvertExactly : Obligations.IntegersConvertExactly :=
  ⟨fun _ h => F64.f64_value h, rfl, F64.one_value, by decide, F64.zero_value false⟩

/-- Settles O39: finite sides are compared as integers of units of 2^-1074, and the place of an infinity is
beyond them all. -/
theorem comparisonsAreIeee : Obligations.ComparisonsAreIeee := by
  refine ⟨fun a => by simp [flt], fun a b x y ha hb => ?_, F64.flt_inf, ?_, ?_, ?_⟩
  · obtain ⟨n, e, f, rfl, rfl⟩ := F64.value_eq_some ha
    obtain ⟨n', e', f', rfl, rfl⟩ := F64.value_eq_some hb
    rw [F64.flt_fin_iff, div_lt_div_iff_of_pos_right (by positivity), Int.cast_lt]
  · decide +kernel
  · decide +kernel
  · intro n; simp [flt]

/-- Settles O59, by the cases of a step: taking the input changes none of the registers, and what is taken is
an instruction, a message or a fault. -/
theorem parametersAndOptionsAreFixed : Obligations.ParametersAndOptionsAreFixed := by
  intro s t h
  rcases step_cases h with ⟨-, -, rfl⟩ | ⟨w, c, n, v, -, rfl⟩ | ⟨c, rest, i, -, -, -, hexec⟩ |
    ⟨c, rest, e, -, -, -, -, rfl⟩ | ⟨c, rest, e, -, -, -, -, rfl⟩
  · simp
  · simp
  · simpa [State.KeepsParams] using exec_keepsParams hexec
  · simp
  · simp [State.cmax]

end

section
/-! SUPPORT. 10_state.md R37: which instructions keep the configuration registers, and which words are RESET. -/

namespace Sys2Proof.Machine

theorem State.sameRegs_of_glob_bank {s t : State} (hglob : t.glob = s.glob) (hbank : t.bank = s.bank)
    (hnmax : t.nmax = s.nmax) : s.SameRegs t := by
  obtain ⟨hcmax, hcfg, -⟩ := State.reads_of_bank hbank
  exact ⟨hglob, hcmax, hnmax, hcfg⟩

theorem bufferStep_sameRegs (p : List Byte) (s : State) : s.SameRegs (bufferStep p s) := by
  obtain ⟨-, -, hglob, hcmax, hnmax, -, -, -, hcfg, -⟩ := bufferStep_frame p s
  exact ⟨hglob, hcmax, hnmax, hcfg⟩

theorem baselineAll_setMode_sameRegs (s : State) (m : Mode) : s.SameRegs (s.baselineAll.setMode m) := by
  simp [State.SameRegs]

/-- Outside CONFIG only RESET writes a configuration register. -/
theorem exec_sameRegs {i : Instr} {s t : State} (h : exec i s = .next t) (hmode : s.mode ≠ .config)
    (hi : i ≠ .reset) : s.SameRegs t := by
  rcases exec_cases h with ⟨hreset, -⟩ | ⟨-, rfl⟩ | ⟨c, n, v, rfl, -⟩ | ⟨-, rfl⟩ | ⟨-, n, -, -, rfl, -⟩ |
    ⟨hconfig, -⟩ | ⟨hconfig, -⟩ | ⟨-, p, -, -, rfl⟩ | ⟨-, -, rfl⟩
  · exact absurd hreset hi
  · exact State.sameRegs_of_glob_bank rfl rfl rfl
  · exact State.sameRegs_of_glob_bank rfl rfl rfl
  · exact State.sameRegs_of_glob_bank rfl rfl rfl
  · exact State.sameRegs_of_glob_bank rfl rfl rfl
  · exact absurd hconfig hmode
  · exact absurd hconfig hmode
  · exact bufferStep_sameRegs p s
  · exact State.sameRegs_of_glob_bank rfl rfl rfl

/-- CFG_WRITE outside CONFIG and ERROR is fault 3 (45_host_commands.md R178). -/
theorem exec_cfgWrite_of_not_config {s : State} (a : BitVec 12) (d : BitVec 64) (herror : s.mode ≠ .error)
    (hconfig : s.mode ≠ .config) :
    exec (.cfgWrite a d) s = .next { s with mode := .error, err := 3 } := by
  rw [exec, execCfgWrite, if_neg herror, if_pos hconfig, State.raise_of_not_error _ herror]

/-- RESET has one encoding. -/
theorem eq_of_decodeCommand_reset {c : Command} (h : decodeCommand c = .ok .reset) :
    c = ⟨0x10000000, []⟩ := by
  obtain ⟨hrsv, hcases⟩ := decodeCommand_ok h
  obtain ⟨hop, haddr, hpayload⟩ :
      opField c.word = 1 ∧ addrField c.word = 0 ∧ c.payload = [] := by
    rcases hcases with ⟨-, hreset⟩ | ⟨-, hcfg⟩ | hrest
    · exact hreset
    · obtain ⟨_, _, _, _, _, _, _, _, -, hne⟩ := decodeCfgWrite_ok hcfg
      cases hne
    · simp at hrest
  have hword : c.word = 0x10000000 := by
    rw [← mkWord_fields c.word hrsv, hop, haddr]
    rfl
  cases c
  simp_all

/-- Outside CONFIG a step that does not take RESET keeps the configuration registers (R37). -/
theorem step_sameRegs {s t : State} (h : step s = .next t) (hmode : s.mode ≠ .config)
    (hport : s.port.head? ≠ some ⟨0x10000000, []⟩) : s.SameRegs t := by
  rcases step_cases h with ⟨-, -, rfl⟩ | ⟨w, c, n, v, -, rfl⟩ | ⟨c, rest, i, -, hp, hdecode, hexec⟩ |
    ⟨c, rest, e, -, -, -, -, rfl⟩ | ⟨c, rest, e, -, -, -, -, rfl⟩
  · exact State.sameRegs_of_glob_bank rfl rfl rfl
  · exact State.sameRegs_of_glob_bank rfl rfl rfl
  · refine show s.popCommand.SameRegs t from exec_sameRegs hexec hmode ?_
    rintro rfl
    exact hport (by rw [hp, eq_of_decodeCommand_reset hdecode]; rfl)
  · exact State.sameRegs_of_glob_bank rfl rfl rfl
  · exact State.sameRegs_of_glob_bank rfl rfl rfl

/-- A step with a command at the head of the port runs what it decodes to. -/
theorem step_of_decodeCommand {s : State} {c : Command} {i : Instr} (hslot : s.emitSlot = none)
    (hport : s.port.head? = some c) (hdecode : decodeCommand c = .ok i) :
    step s = exec i s.popCommand := by
  rw [← executeCommand_of_ok _ hdecode]
  simp [step, State.fetch, hslot, hport]

end Sys2Proof.Machine
end

section
/-! SUPPORT. 40_decoder.md R95 and R103: how large a magnitude is, and which bytes the decoder reads. -/

namespace Sys2Proof.Machine

theorem maxMag_succ_lt (fmt : BitVec 1) : maxMag fmt + 1 < 2 ^ 24 := by
  unfold maxMag
  split <;> decide

theorem mag16_le (b0 b1 : Byte) : mag16 b0 b1 ≤ 0x7FFF + 1 := by
  have hlo := BitVec.le_toInt (b1 ++ b0)
  have hhi := BitVec.toInt_lt (x := b1 ++ b0)
  unfold mag16
  omega

theorem mag24_le (b0 b1 b2 : Byte) : mag24 b0 b1 b2 ≤ 0x7FFFFF + 1 := by
  unfold mag24
  split <;> omega

/-- A magnitude is at most `M + 1` (R95). -/
theorem mag_le (g : GlobalCfg) (buf : List Byte) (c f : Nat) : mag g buf c f ≤ maxMag g.format + 1 := by
  unfold mag maxMag
  split
  · exact mag16_le _ _
  · exact mag24_le _ _ _

/-- A crossing is a frame of the range, and lies beyond the threshold. -/
theorem findCrossing_some {g : GlobalCfg} {buf : List Byte} {c thr lo n f : Nat}
    (h : findCrossing g buf c thr lo n = some f) : lo ≤ f ∧ f < lo + n ∧ thr < mag g buf c f := by
  induction n generalizing lo with
  | zero => cases h
  | succ n ih =>
    rw [findCrossing] at h
    split at h
    · next hlt =>
      obtain rfl := Option.some.inj h
      exact ⟨le_rfl, by omega, hlt⟩
    · obtain ⟨hlo, hhi, hlt⟩ := ih h
      exact ⟨by omega, by omega, hlt⟩

theorem le_subSpanPeak (g : GlobalCfg) (buf : List Byte) (c lo n run : Nat) :
    run ≤ subSpanPeak g buf c lo n run := by
  induction n generalizing lo run with
  | zero => exact le_rfl
  | succ n ih => exact (le_max_left _ _).trans (ih _ _)

theorem subSpanPeak_le {g : GlobalCfg} {run : Nat} (buf : List Byte) (c lo n : Nat)
    (h : run ≤ maxMag g.format + 1) : subSpanPeak g buf c lo n run ≤ maxMag g.format + 1 := by
  induction n generalizing lo run with
  | zero => exact h
  | succ n ih => exact ih _ (max_le h (mag_le g buf c lo))

theorem bufferPeak_le (g : GlobalCfg) (buf : List Byte) (c : Nat) :
    bufferPeak g buf c ≤ maxMag g.format + 1 :=
  subSpanPeak_le buf c _ _ (Nat.zero_le _)

/-- A magnitude of either format fits the registers that hold one. -/
theorem toNat_ofNat_of_le_maxMag {fmt : BitVec 1} {n : Nat} (h : n ≤ maxMag fmt + 1) :
    (BitVec.ofNat 24 n).toNat = n := by
  rw [BitVec.toNat_ofNat, Nat.mod_eq_of_lt (h.trans_lt (maxMag_succ_lt fmt))]

end Sys2Proof.Machine
end

section
/-! SUPPORT. 10_state.md R49: the samples of one channel, and that its work in one buffer reads no others. -/

namespace Sys2Proof.Machine

/-- Channel `c` has the same magnitudes in every frame of the two buffers. -/
def SameMags (g : GlobalCfg) (c : Nat) (p p' : List Byte) : Prop :=
  ∀ f < g.bufFrames.toNat, mag g p' c f = mag g p c f

/-- A magnitude is read off the bytes of the sample. -/
theorem mag_congr {g : GlobalCfg} {c f : Nat} {p p' : List Byte}
    (h : ∀ j < sampleBytes g.format, p'[sampleOffset g c f + j]? = p[sampleOffset g c f + j]?) :
    mag g p' c f = mag g p c f := by
  have hbyte {j : Nat} (hj : j < sampleBytes g.format) :
      byteAt p' (sampleOffset g c f + j) = byteAt p (sampleOffset g c f + j) := by
    simp [byteAt, List.getD_eq_getElem?_getD, h j hj]
  unfold mag
  by_cases hfmt : g.format = 0
  · have hsize : sampleBytes g.format = 2 := if_pos hfmt
    rw [if_pos hfmt, if_pos hfmt, ← hbyte (j := 1) (by omega)]
    exact congrArg (mag16 · _) (hbyte (j := 0) (by omega))
  · have hsize : sampleBytes g.format = 3 := if_neg hfmt
    rw [if_neg hfmt, if_neg hfmt, ← hbyte (j := 1) (by omega), ← hbyte (j := 2) (by omega)]
    exact congrArg (mag24 · _ _) (hbyte (j := 0) (by omega))

theorem findCrossing_congr {g : GlobalCfg} {c lo n : Nat} {p p' : List Byte} (thr : Nat)
    (h : SameMags g c p p') (hn : n ≤ g.bufFrames.toNat - lo) :
    findCrossing g p' c thr lo n = findCrossing g p c thr lo n := by
  induction n generalizing lo with
  | zero => rfl
  | succ n ih => rw [findCrossing, findCrossing, h lo (by omega), ih (by omega)]

theorem subSpanPeak_congr {g : GlobalCfg} {c lo n : Nat} {p p' : List Byte} (run : Nat)
    (h : SameMags g c p p') (hn : n ≤ g.bufFrames.toNat - lo) :
    subSpanPeak g p' c lo n run = subSpanPeak g p c lo n run := by
  induction n generalizing lo run with
  | zero => rfl
  | succ n ih => rw [subSpanPeak, subSpanPeak, h lo (by omega), ih _ (by omega)]

theorem envStep_congr {g : GlobalCfg} {c : Nat} {p p' : List Byte} (k : ChanCfg) (l : Lane)
    (h : SameMags g c p p') : envStep g k p' c l = envStep g k p c l := by
  rw [envStep, envStep, bufferPeak, bufferPeak, subSpanPeak_congr 0 h (by omega)]

theorem pwIdle_congr {g : GlobalCfg} {c : Nat} {p p' : List Byte} (k : ChanCfg) (x : Scan)
    (h : SameMags g c p p') : pwIdle g k p' c x = pwIdle g k p c x := by
  rw [pwIdle, pwIdle, findCrossing_congr k.trig.toNat h le_rfl]
  split
  · rfl
  · next f hf =>
    obtain ⟨hlo, hhi, -⟩ := findCrossing_some hf
    rw [h f (by omega)]

theorem peakScan_congr {g : GlobalCfg} {c : Nat} {p p' : List Byte} (x : Scan)
    (h : SameMags g c p p') : peakScan g p' c x = peakScan g p c x := by
  have hspan : peakSpan g x ≤ g.bufFrames.toNat - x.pos := min_le_right _ _
  rw [peakScan, peakScan, subSpanPeak_congr _ h hspan]

theorem pwPeak_congr {g : GlobalCfg} {c : Nat} {p p' : List Byte} (k : ChanCfg) (x : Scan)
    (h : SameMags g c p p') : pwPeak g k p' c x = pwPeak g k p c x := by
  rw [pwPeak, pwPeak, peakScan_congr x h]

theorem pwPass_congr {g : GlobalCfg} {c : Nat} {p p' : List Byte} (k : ChanCfg) (x : Scan)
    (h : SameMags g c p p') : pwPass g k p' c x = pwPass g k p c x := by
  rw [pwPass, pwPass, pwIdle_congr k x h, pwPeak_congr k x h]

theorem pwLoop_congr {g : GlobalCfg} {c : Nat} {p p' : List Byte} (k : ChanCfg) (fuel : Nat) (x : Scan)
    (h : SameMags g c p p') : pwLoop g k p' c fuel x = pwLoop g k p c fuel x := by
  induction fuel generalizing x with
  | zero => rfl
  | succ fuel ih => rw [pwLoop, pwLoop, pwPass_congr k x h, ih]

/-- A channel's work in one buffer reads that channel's samples only (40_decoder.md R103). -/
theorem channelStep_congr {g : GlobalCfg} {c : Nat} {p p' : List Byte} (k : ChanCfg) (st : ChanState)
    (h : SameMags g c p p') : channelStep g k p' c st = channelStep g k p c st := by
  rw [channelStep, channelStep, detect, detect, envStep_congr k _ h, pwStep, pwStep,
    pwLoop_congr k _ _ h]

/-- BUFFER of the right length in RUNNING runs the sequencer (45_host_commands.md R181). -/
theorem exec_buffer_of_running {s : State} {p : List Byte} (hmode : s.mode = .running)
    (hlen : p.length = bufferBytes s.glob) : exec (.buffer p) s = .next (bufferStep p s) := by
  simp [exec, execBuffer, hmode, hlen]

/-- What a buffer makes of every channel record. -/
theorem bufferStep_chanState (p : List Byte) {s : State} (hnch : s.glob.nch.toNat ≤ s.cmax) :
    (∀ c < s.glob.nch.toNat, (bufferStep p s).chanState c =
      (channelStep s.glob (s.chanCfg c) p c (s.chanState c)).st) ∧
    ∀ c, s.glob.nch.toNat ≤ c → (bufferStep p s).chanState c = s.chanState c := by
  obtain ⟨-, -, -, -, -, -, -, -, -, hactive, hother, -⟩ := stepChannels_eq p s _ hnch
  exact ⟨hactive, hother⟩

end Sys2Proof.Machine
end

section
/-! SUPPORT. 10_state.md R50: what START's check gives the detectors, and the parts of a sound record. -/

namespace Sys2Proof.Machine

/-- The bounds of the legality check that the detectors rely on (45_host_commands.md R180, items 3
and 4). -/
theorem legalChannel_bounds {g : GlobalCfg} {k : ChanCfg} (h : legalChannel g k = true) :
    k.trig.toNat < maxMag g.format ∧ k.peakLen.toNat < 2 ^ 31 ∧ k.waitLen.toNat < 2 ^ 31 := by
  simp only [legalChannel, legalLength, Bool.and_eq_true, decide_eq_true_eq] at h
  obtain ⟨⟨⟨⟨⟨⟨-, htrig⟩, hpeak⟩, hwait⟩, -⟩, -⟩, -⟩ := h
  omega

theorem State.legalConfig_bounds {s : State} (h : s.legalConfig = true) :
    s.glob.nch.toNat ≤ s.cmax ∧
      ∀ c < s.glob.nch.toNat, legalChannel s.glob (s.chanCfg c) = true := by
  simp only [State.legalConfig, Bool.and_eq_true, decide_eq_true_eq, List.all_eq_true,
    List.mem_range] at h
  obtain ⟨⟨⟨⟨-, hnch⟩, -⟩, -⟩, hchannels⟩ := h
  exact ⟨hnch, hchannels⟩

/-- The check reads registers and parameters only. -/
theorem State.SameRegs.legalConfig_eq {s t : State} (h : s.SameRegs t) :
    t.legalConfig = s.legalConfig := by
  obtain ⟨hglob, hcmax, hnmax, hcfg⟩ := h
  simp only [State.legalConfig, hglob, hcmax, hnmax, hcfg]

/-- Strategy A's part of a sound record: the peak history and the wait countdown. -/
structure EnvelopeOk (g : GlobalCfg) (k : ChanCfg) (st : ChanState) : Prop where
  prev_le : st.prev.toNat ≤ maxMag g.format + 1
  prev2_le : st.prev2.toNat ≤ maxMag g.format + 1
  wait_le : st.wait.toNat ≤ k.aWaitBufs.toNat
  wait_of_rising : st.rising = true → st.wait = 0

/-- Strategy B's part of a sound record: the phase, the frame countdown and the accumulator. -/
structure WindowOk (g : GlobalCfg) (k : ChanCfg) (st : ChanState) : Prop where
  acc_le : st.acc.toNat ≤ maxMag g.format + 1
  cd_nonneg : 0 ≤ st.cd.toInt
  cd_of_idle : st.phase = .idle → st.cd = 0
  acc_zero_or_ge : st.acc = 0 ∨ k.trig.toNat ≤ st.acc.toNat
  acc_gt : st.phase ≠ .idle → k.trig.toNat < st.acc.toNat

/-- Strategy A's fields are those of `st`. -/
def SameEnvelope (st st' : ChanState) : Prop :=
  st'.rising = st.rising ∧ st'.riseCount = st.riseCount ∧ st'.wait = st.wait ∧ st'.env = st.env ∧
    st'.prev = st.prev ∧ st'.prev2 = st.prev2

/-- Strategy B's fields are those of `st`. -/
def SameWindow (st st' : ChanState) : Prop :=
  st'.phase = st.phase ∧ st'.cd = st.cd ∧ st'.acc = st.acc

/-- The two parts, the timer's bound, and that the other strategy's fields are at the baseline (10_state.md
R23). -/
theorem chanOk_iff {g : GlobalCfg} {k : ChanCfg} {st : ChanState} :
    ChanOk g k st ↔ EnvelopeOk g k st ∧ WindowOk g k st ∧ st.noff.toNat ≤ k.noffDelay.toNat ∧
      (g.strategy = 0 → SameWindow ChanState.baseline st) ∧
      (g.strategy = 1 → SameEnvelope ChanState.baseline st) := by
  constructor
  · rintro ⟨hprev, hprev2, hacc, hcd, hidle, hnoff, hwait, hrising, hzero, hgt, hA, hB⟩
    exact ⟨⟨hprev, hprev2, hwait, hrising⟩, ⟨hacc, hcd, hidle, hzero, hgt⟩, hnoff, hA, hB⟩
  · rintro ⟨⟨hprev, hprev2, hwait, hrising⟩, ⟨hacc, hcd, hidle, hzero, hgt⟩, hnoff, hA, hB⟩
    exact ⟨hprev, hprev2, hacc, hcd, hidle, hnoff, hwait, hrising, hzero, hgt, hA, hB⟩

theorem ChanOk.envelopeOk {g : GlobalCfg} {k : ChanCfg} {st : ChanState} (h : ChanOk g k st) :
    EnvelopeOk g k st := by
  obtain ⟨henv, -⟩ := chanOk_iff.1 h
  exact henv

theorem ChanOk.windowOk {g : GlobalCfg} {k : ChanCfg} {st : ChanState} (h : ChanOk g k st) :
    WindowOk g k st := by
  obtain ⟨-, hwin, -⟩ := chanOk_iff.1 h
  exact hwin

theorem ChanOk.noff_le {g : GlobalCfg} {k : ChanCfg} {st : ChanState} (h : ChanOk g k st) :
    st.noff.toNat ≤ k.noffDelay.toNat := by
  obtain ⟨-, -, hnoff, -⟩ := chanOk_iff.1 h
  exact hnoff

theorem EnvelopeOk.congr {g : GlobalCfg} {k : ChanCfg} {st st' : ChanState} (h : EnvelopeOk g k st)
    (hsame : SameEnvelope st st') : EnvelopeOk g k st' := by
  obtain ⟨hrising, -, hwait, -, hprev, hprev2⟩ := hsame
  exact ⟨hprev ▸ h.prev_le, hprev2 ▸ h.prev2_le, hwait ▸ h.wait_le,
    hwait ▸ hrising ▸ h.wait_of_rising⟩

theorem WindowOk.congr {g : GlobalCfg} {k : ChanCfg} {st st' : ChanState} (h : WindowOk g k st)
    (hsame : SameWindow st st') : WindowOk g k st' := by
  obtain ⟨hphase, hcd, hacc⟩ := hsame
  exact ⟨hacc ▸ h.acc_le, hcd ▸ h.cd_nonneg, hcd ▸ hphase ▸ h.cd_of_idle, hacc ▸ h.acc_zero_or_ge,
    hacc ▸ hphase ▸ h.acc_gt⟩

theorem SameWindow.trans {st st' st'' : ChanState} (h : SameWindow st st') (h' : SameWindow st' st'') :
    SameWindow st st'' := by
  obtain ⟨hphase, hcd, hacc⟩ := h
  obtain ⟨hphase', hcd', hacc'⟩ := h'
  exact ⟨hphase'.trans hphase, hcd'.trans hcd, hacc'.trans hacc⟩

theorem SameEnvelope.trans {st st' st'' : ChanState} (h : SameEnvelope st st')
    (h' : SameEnvelope st' st'') : SameEnvelope st st'' := by
  obtain ⟨hrising, hcount, hwait, henv, hprev, hprev2⟩ := h
  obtain ⟨hrising', hcount', hwait', henv', hprev', hprev2'⟩ := h'
  exact ⟨hrising'.trans hrising, hcount'.trans hcount, hwait'.trans hwait, henv'.trans henv,
    hprev'.trans hprev, hprev2'.trans hprev2⟩

/-- Under strategy A a record stays sound when strategy A's part and the timer do and strategy B's fields
keep their value. -/
theorem ChanOk.of_envelope {g : GlobalCfg} {k : ChanCfg} {st st' : ChanState} (h : ChanOk g k st)
    (hA : g.strategy = 0) (hsame : SameWindow st st') (henv : EnvelopeOk g k st')
    (hnoff : st'.noff.toNat ≤ k.noffDelay.toNat) : ChanOk g k st' := by
  obtain ⟨-, hwin, -, hunused, -⟩ := chanOk_iff.1 h
  exact chanOk_iff.2 ⟨henv, hwin.congr hsame, hnoff, fun _ => (hunused hA).trans hsame,
    fun hB => by simp [hA] at hB⟩

/-- Under strategy B a record stays sound when strategy B's part and the timer do and strategy A's fields
keep their value. -/
theorem ChanOk.of_window {g : GlobalCfg} {k : ChanCfg} {st st' : ChanState} (h : ChanOk g k st)
    (hB : g.strategy ≠ 0) (hsame : SameEnvelope st st') (hwin : WindowOk g k st')
    (hnoff : st'.noff.toNat ≤ k.noffDelay.toNat) : ChanOk g k st' := by
  obtain ⟨henv, -, -, -, hunused⟩ := chanOk_iff.1 h
  exact chanOk_iff.2 ⟨henv.congr hsame, hwin, hnoff, fun hA => absurd hA hB,
    fun hB => (hunused hB).trans hsame⟩

/-- The timer stands apart from both detectors (43_scheduler.md R152). -/
theorem ChanOk.setNoff {g : GlobalCfg} {k : ChanCfg} {st : ChanState} (h : ChanOk g k st) {n : BitVec 32}
    (hn : n.toNat ≤ k.noffDelay.toNat) : ChanOk g k { st with noff := n } := by
  obtain ⟨henv, hwin, -, hA, hB⟩ := chanOk_iff.1 h
  exact chanOk_iff.2 ⟨henv.congr ⟨rfl, rfl, rfl, rfl, rfl, rfl⟩, hwin.congr ⟨rfl, rfl, rfl⟩, hn, hA, hB⟩

theorem chanOk_baseline (g : GlobalCfg) (k : ChanCfg) : ChanOk g k ChanState.baseline := by
  simp [ChanOk, ChanState.baseline]

/-- The tick only counts the timer down (43_scheduler.md R153). -/
theorem tickNoteOff_chanOk {g : GlobalCfg} {k : ChanCfg} {l : Lane} (h : ChanOk g k l.st) :
    ChanOk g k (tickNoteOff k l).st := by
  have hnoff := h.noff_le
  rcases tickNoteOff_cases k l with ⟨-, heq⟩ | ⟨-, heq⟩ | ⟨-, hcount, heq⟩ <;> rw [heq]
  · exact h
  · exact h.setNoff (Nat.zero_le _)
  · exact h.setNoff (by omega)

end Sys2Proof.Machine
end

section
/-! SUPPORT. 41_envelope_decay.md R113 to R121: every branch of strategy A keeps a sound record. -/

namespace Sys2Proof.Machine

variable {g : GlobalCfg} {k : ChanCfg} {l : Lane}

theorem envRising_chanOk (p : Nat) (hA : g.strategy = 0) (h : ChanOk g k l.st) :
    ChanOk g k (envRising g.format k p l).st := by
  have henv := h.envelopeOk
  unfold envRising
  dsimp only
  split
  · rw [envFall_eq]
    exact h.of_envelope hA ⟨rfl, rfl, rfl⟩
      ⟨henv.prev_le, henv.prev2_le, le_rfl, nofun⟩ le_rfl
  · exact h.of_envelope hA ⟨rfl, rfl, rfl⟩
      ⟨henv.prev_le, henv.prev2_le, henv.wait_le, henv.wait_of_rising⟩ h.noff_le

/-- The count is not 0 in WAITING, so it does not wrap (R120). -/
theorem envWaiting_chanOk (hA : g.strategy = 0) (hwaiting : l.st.isWaiting = true)
    (h : ChanOk g k l.st) : ChanOk g k (envWaiting l).st := by
  have henv := h.envelopeOk
  obtain ⟨hrising, hwait⟩ : l.st.rising = false ∧ l.st.wait ≠ 0 := by
    simpa [ChanState.isWaiting] using hwaiting
  have hcount : (l.st.wait - 1).toNat ≤ l.st.wait.toNat := by
    have : l.st.wait.toNat ≠ 0 := fun h0 => hwait (BitVec.eq_of_toNat_eq h0)
    bv_omega
  exact h.of_envelope hA ⟨rfl, rfl, rfl⟩
    ⟨henv.prev_le, henv.prev2_le, hcount.trans henv.wait_le, fun hr => by simp [envWaiting, hrising] at hr⟩
    h.noff_le

/-- The rise starts in IDLE, where the wait countdown is 0 (R114, 10_state.md R40). -/
theorem envIdle_chanOk (p : Nat) (hA : g.strategy = 0) (hidle : l.st.wait = 0) (h : ChanOk g k l.st) :
    ChanOk g k (envIdle k p l).st := by
  have henv := h.envelopeOk
  unfold envIdle
  dsimp only
  split
  · exact h.of_envelope hA ⟨rfl, rfl, rfl⟩
      ⟨henv.prev_le, henv.prev2_le, henv.wait_le, fun _ => hidle⟩ h.noff_le
  · exact h.of_envelope hA ⟨rfl, rfl, rfl⟩
      ⟨henv.prev_le, henv.prev2_le, henv.wait_le, fun _ => hidle⟩ h.noff_le

theorem shiftHistory_chanOk {p : Nat} (hA : g.strategy = 0) (hp : p ≤ maxMag g.format + 1)
    (h : ChanOk g k l.st) : ChanOk g k (shiftHistory p l).st := by
  have henv := h.envelopeOk
  have hprev : (shiftHistory p l).st.prev.toNat ≤ maxMag g.format + 1 := by
    rwa [shiftHistory_prev, toNat_ofNat_of_le_maxMag hp]
  exact h.of_envelope hA ⟨rfl, rfl, rfl⟩ ⟨hprev, henv.prev_le, henv.wait_le, henv.wait_of_rising⟩ h.noff_le

theorem envBranch_chanOk (p : Nat) (hA : g.strategy = 0) (h : ChanOk g k l.st) :
    ChanOk g k (envBranch g.format k p l).st := by
  unfold envBranch
  split
  · exact envRising_chanOk p hA h
  · next hrising =>
    split
    · next hwaiting => exact envWaiting_chanOk hA hwaiting h
    · next hwaiting =>
      have hidle : l.st.wait = 0 := by simpa [ChanState.isWaiting, hrising] using hwaiting
      exact envIdle_chanOk p hA hidle h

theorem envStep_chanOk (buf : List Byte) (c : Nat) (hA : g.strategy = 0) (h : ChanOk g k l.st) :
    ChanOk g k (envStep g k buf c l).st :=
  shiftHistory_chanOk hA (bufferPeak_le g buf c) (envBranch_chanOk _ hA h)

end Sys2Proof.Machine
end

section
/-! SUPPORT. 42_peak_window.md R131 to R137: every pass of strategy B keeps a sound record. -/

namespace Sys2Proof.Machine

variable {g : GlobalCfg} {k : ChanCfg} {x : Scan}

/-- A crossing is above the trigger level, and so is the accumulator it sets (R132, R133). -/
theorem pwIdle_chanOk (buf : List Byte) (c : Nat) (hlegal : legalChannel g k = true)
    (hB : g.strategy ≠ 0) (h : ChanOk g k x.lane.st) : ChanOk g k (pwIdle g k buf c x).lane.st := by
  obtain ⟨htrig, hpeak, -⟩ := legalChannel_bounds hlegal
  unfold pwIdle
  split
  · exact h
  · next f hf =>
    obtain ⟨-, -, hcross⟩ := findCrossing_some hf
    have hmag := mag_le g buf c f
    have hacc := toNat_ofNat_of_le_maxMag (max_le (by omega : k.trig.toNat ≤ maxMag g.format + 1) hmag)
    have hgt : k.trig.toNat < (BitVec.ofNat 24 (max k.trig.toNat (mag g buf c f))).toNat := by omega
    exact h.of_window hB ⟨rfl, rfl, rfl, rfl, rfl, rfl⟩
      ⟨by dsimp only; omega, toInt_nonneg_iff.2 hpeak, nofun, .inr hgt.le, fun _ => hgt⟩ h.noff_le

/-- A scan raises the accumulator and counts down no more than the countdown holds (R134). -/
theorem peakScan_chanOk (buf : List Byte) (c : Nat) (hB : g.strategy ≠ 0)
    (hphase : x.lane.st.phase = .peak) (h : ChanOk g k x.lane.st) :
    ChanOk g k (peakScan g buf c x).lane.st := by
  have hwin := h.windowOk
  have hcd := peakScan_cd g x (toInt_nonneg_iff.1 hwin.cd_nonneg)
  have hbound := toInt_nonneg_iff.1 hwin.cd_nonneg
  have hlow := le_subSpanPeak g buf c x.pos (peakSpan g x) x.lane.st.acc.toNat
  have hhigh := subSpanPeak_le buf c x.pos (peakSpan g x) hwin.acc_le
  have hacc := toNat_ofNat_of_le_maxMag hhigh
  have hgt := (hwin.acc_gt (by simp [hphase])).trans_le (hlow.trans hacc.ge)
  exact h.of_window hB ⟨rfl, rfl, rfl, rfl, rfl, rfl⟩
    ⟨hacc.trans_le hhigh, toInt_nonneg_iff.2 (by dsimp only [peakScan]; omega),
      fun hidle => by simp [peakScan, hphase] at hidle, .inr hgt.le, fun _ => hgt⟩ h.noff_le

theorem peakDone_chanOk {l : Lane} (hlegal : legalChannel g k = true) (hB : g.strategy ≠ 0)
    (hphase : l.st.phase = .peak) (h : ChanOk g k l.st) : ChanOk g k (peakDone g.format k l).st := by
  have hwin := h.windowOk
  obtain ⟨-, -, hwait⟩ := legalChannel_bounds hlegal
  rw [peakDone_eq]
  exact h.of_window hB ⟨rfl, rfl, rfl, rfl, rfl, rfl⟩
    ⟨hwin.acc_le, toInt_nonneg_iff.2 hwait, nofun, hwin.acc_zero_or_ge,
      fun _ => hwin.acc_gt (by simp [hphase])⟩ le_rfl

theorem pwPeak_chanOk (buf : List Byte) (c : Nat) (hlegal : legalChannel g k = true)
    (hB : g.strategy ≠ 0) (hphase : x.lane.st.phase = .peak) (h : ChanOk g k x.lane.st) :
    ChanOk g k (pwPeak g k buf c x).lane.st := by
  have hscan := peakScan_chanOk buf c hB hphase h
  unfold pwPeak
  dsimp only
  split
  · exact peakDone_chanOk hlegal hB hphase hscan
  · exact hscan

/-- A countdown that is not used up stays positive, and one that is used up is set to 0 with IDLE (R135). -/
theorem pwWait_chanOk (hB : g.strategy ≠ 0)
    (hphase : x.lane.st.phase = .wait) (h : ChanOk g k x.lane.st) :
    ChanOk g k (pwWait g x).lane.st := by
  have hwin := h.windowOk
  unfold pwWait
  dsimp only
  split
  · exact h.of_window hB ⟨rfl, rfl, rfl, rfl, rfl, rfl⟩
      ⟨hwin.acc_le, le_rfl, fun _ => rfl, hwin.acc_zero_or_ge, fun hne => absurd rfl hne⟩ h.noff_le
  · next hpos =>
    exact h.of_window hB ⟨rfl, rfl, rfl, rfl, rfl, rfl⟩
      ⟨hwin.acc_le, (not_le.1 hpos).le, fun hidle => by simp [hphase] at hidle, hwin.acc_zero_or_ge,
        hwin.acc_gt⟩ h.noff_le

theorem pwPass_chanOk (buf : List Byte) (c : Nat) (hlegal : legalChannel g k = true)
    (hB : g.strategy ≠ 0) (h : ChanOk g k x.lane.st) :
    ChanOk g k (pwPass g k buf c x).lane.st := by
  unfold pwPass
  split
  · exact pwIdle_chanOk buf c hlegal hB h
  · next hphase => exact pwPeak_chanOk buf c hlegal hB hphase h
  · next hphase => exact pwWait_chanOk hB hphase h

theorem pwLoop_chanOk (buf : List Byte) (c fuel : Nat) (hlegal : legalChannel g k = true)
    (hB : g.strategy ≠ 0) (h : ChanOk g k x.lane.st) :
    ChanOk g k (pwLoop g k buf c fuel x).lane.st := by
  induction fuel generalizing x with
  | zero => exact h
  | succ fuel ih =>
    unfold pwLoop
    split
    · exact ih (pwPass_chanOk buf c hlegal hB h)
    · exact h

theorem pwStep_chanOk {l : Lane} (buf : List Byte) (c : Nat) (hlegal : legalChannel g k = true)
    (hB : g.strategy ≠ 0) (h : ChanOk g k l.st) : ChanOk g k (pwStep g k buf c l).st :=
  pwLoop_chanOk (x := ⟨l, 0⟩) buf c (pwPasses g) hlegal hB h

end Sys2Proof.Machine
end

section
/-! SUPPORT. 10_state.md R50: what keeps a sound run, and what keeps the invariant of the block. -/

namespace Sys2Proof.Machine

theorem channelStep_chanOk {g : GlobalCfg} {k : ChanCfg} {st : ChanState} (buf : List Byte) (c : Nat)
    (hlegal : legalChannel g k = true) (h : ChanOk g k st) :
    ChanOk g k (channelStep g k buf c st).st := by
  have htick : ChanOk g k (tickNoteOff k ⟨st, []⟩).st := tickNoteOff_chanOk h
  unfold channelStep detect
  split
  · next hA => exact envStep_chanOk buf c hA htick
  · next hB => exact pwStep_chanOk buf c hlegal hB htick

theorem bufferStep_runOk {s : State} (p : List Byte) (h : s.RunOk) : (bufferStep p s).RunOk := by
  obtain ⟨hconfig, hactive, hother⟩ := h
  obtain ⟨hnch, hlegal⟩ := State.legalConfig_bounds hconfig
  obtain ⟨hstepped, hkept⟩ := bufferStep_chanState p hnch
  obtain ⟨hglob, -, -, hcfg⟩ := bufferStep_sameRegs p s
  refine ⟨(bufferStep_sameRegs p s).legalConfig_eq.trans hconfig, fun c hc => ?_, fun c hc => ?_⟩
  · rw [hglob] at hc ⊢
    rw [hcfg, hstepped c hc]
    exact channelStep_chanOk p c (hlegal c hc) (hactive c hc)
  · rw [hglob] at hc
    rw [hkept c hc, hother c hc]

/-- START begins a sound run (45_host_commands.md R179). -/
theorem start_runOk {s : State} (h : s.legalConfig = true) : (s.baselineAll.setMode .running).RunOk := by
  refine ⟨(baselineAll_setMode_sameRegs s _).legalConfig_eq.trans h, fun c _ => ?_, fun c _ => ?_⟩
  · simpa using chanOk_baseline _ _
  · simp

theorem State.RunOk.congr {s t : State} (h : s.RunOk) (hregs : s.SameRegs t) (hrecords : s.SameRecords t) :
    t.RunOk := by
  obtain ⟨hglob, -, -, hcfg⟩ := id hregs
  simpa only [State.RunOk, hregs.legalConfig_eq, hglob, hcfg, hrecords _] using h

/-- The invariant speaks of the mode, the error code, the registers and the records only. -/
theorem State.Inv.congr {s t : State} (h : s.Inv) (hmode : t.mode = s.mode) (herr : t.err = s.err)
    (hregs : s.SameRegs t) (hrecords : s.SameRecords t) : t.Inv := by
  obtain ⟨hparams, hcode, herror, hconfig, hrun⟩ := h
  obtain ⟨-, hcmax, hnmax, -⟩ := id hregs
  refine ⟨by rwa [hcmax, hnmax], by rwa [herr], by rwa [hmode, herr], fun hm c => ?_, fun hm => ?_⟩
  · rw [hrecords c, hconfig (hmode ▸ hm) c]
  · exact (hrun (hmode ▸ hm)).congr hregs hrecords

theorem State.Inv.of_glob_bank {s t : State} (h : s.Inv) (hmode : t.mode = s.mode) (herr : t.err = s.err)
    (hglob : t.glob = s.glob) (hbank : t.bank = s.bank) (hnmax : t.nmax = s.nmax) : t.Inv :=
  h.congr hmode herr (State.sameRegs_of_glob_bank hglob hbank hnmax) (State.reads_of_bank hbank).2.2

/-- Outside ERROR there is no error code (R20). -/
theorem State.Inv.err_eq_zero {s : State} (h : s.Inv) (hmode : s.mode ≠ .error) : s.err = 0 := by
  obtain ⟨-, -, herror, -⟩ := h
  exact not_not.1 (mt herror.2 hmode)

/-- A fault with a code of 60_exceptions.md R201. -/
theorem State.Inv.fault {s : State} (h : s.Inv) {n : BitVec 8} (hlo : 1 ≤ n.toNat) (hhi : n.toNat ≤ 7) :
    ({ s with mode := .error, err := n } : State).Inv := by
  obtain ⟨hparams, -⟩ := h
  have hne : n ≠ 0 := by
    rintro rfl
    exact absurd hlo (by decide)
  exact ⟨hparams, hhi, by simpa using hne, nofun, nofun⟩

/-- Every instruction keeps the invariant. -/
theorem exec_inv {i : Instr} {s t : State} (hinv : s.Inv) (h : exec i s = .next t) : t.Inv := by
  obtain ⟨hparams, hcode, herror, hconfig, hrun⟩ := id hinv
  rcases exec_cases h with ⟨-, rfl⟩ | ⟨-, rfl⟩ | ⟨c, n, v, rfl, -⟩ | ⟨-, rfl⟩ | ⟨-, n, hlo, hhi, rfl, -⟩ |
    ⟨hmode, a, d, r, -, -, rfl⟩ | ⟨hmode, -, hlegal, rfl⟩ | ⟨hmode, p, -, -, rfl⟩ | ⟨hmode, -, rfl⟩
  · exact ⟨by simpa using hparams, by simp, by simp, fun _ c => State.clear_chanState s c, nofun⟩
  · exact hinv.of_glob_bank rfl rfl rfl rfl rfl
  · exact hinv.of_glob_bank rfl rfl rfl rfl rfl
  · exact hinv
  · exact hinv.fault (by omega) hhi
  · refine ⟨by simpa using hparams, by simpa using hcode, by simpa using herror, fun _ c => ?_, ?_⟩
    · rw [State.writeReg_chanState, hconfig hmode]
    · simp [hmode]
  · have herr := hinv.err_eq_zero (by simp [hmode])
    exact ⟨by simpa using hparams, by simpa using hcode, by simp [herr], nofun, fun _ => start_runOk hlegal⟩
  · obtain ⟨hmode', herr', -, hcmax, hnmax, -⟩ := bufferStep_frame p s
    refine ⟨by rwa [hcmax, hnmax], by rwa [herr'], by rwa [hmode', herr'], ?_, ?_⟩
    · simp [hmode', hmode]
    · exact fun _ => bufferStep_runOk p (hrun hmode)
  · have herr := hinv.err_eq_zero hmode
    exact ⟨by simpa using hparams, by simpa using hcode, by simp [herr], nofun, nofun⟩

theorem State.Inv.popCommand {s : State} (h : s.Inv) : s.popCommand.Inv :=
  h.of_glob_bank rfl rfl rfl rfl rfl

/-- START on a legal configuration (45_host_commands.md R179). -/
theorem exec_start_of_legalConfig {s : State} (hmode : s.mode = .config) (h : s.legalConfig = true) :
    exec .start s = .next (s.baselineAll.setMode .running) := by
  simp [exec, execStart, hmode, h]

/-- A block of one channel, configured for either strategy, with a buffer of one frame on the port. -/
def configuredBlock (strategy : BitVec 1) : State :=
  { State.resetWith 1 1 with
    glob := { strategy := strategy, format := 0, nch := 1, bufFrames := 1 }
    bank := [⟨{ ChanCfg.zero with trig := 1, peakLen := 2 }, ChanState.baseline⟩]
    port := [⟨0x40000000, [0x00, 0x40]⟩] }

/-- The run START begins on the configured block. -/
def startedBlock (strategy : BitVec 1) : State :=
  (configuredBlock strategy).baselineAll.setMode .running

theorem configuredBlock_inv (strategy : BitVec 1) : (configuredBlock strategy).Inv :=
  ⟨by unfold Config.legalParams; decide +revert, by decide +revert, by decide +revert,
    fun _ c => by cases c <;> rfl, nofun⟩

theorem configuredBlock_legalConfig (strategy : BitVec 1) :
    (configuredBlock strategy).legalConfig = true := by
  decide +kernel +revert

theorem startedBlock_inv (strategy : BitVec 1) : (startedBlock strategy).Inv :=
  exec_inv (configuredBlock_inv strategy)
    (exec_start_of_legalConfig rfl (configuredBlock_legalConfig strategy))

/-- The invariant holds of a run of either strategy whose next buffer changes the channel's record. -/
theorem exists_running_inv (strategy : BitVec 1) :
    ∃ s t, s.mode = .running ∧ s.glob.strategy = strategy ∧ s.Inv ∧ step s = .next t ∧
      t.mode = .running ∧ t.chanState 0 ≠ s.chanState 0 :=
  ⟨startedBlock strategy, _, rfl, rfl, startedBlock_inv strategy, rfl, by decide +kernel +revert,
    by decide +kernel +revert⟩

end Sys2Proof.Machine
end

section
/-! The statements of 10_state.md. -/

open Sys2Proof Sys2Proof.Machine

/-- Settles O58, by the cases of a step: an instruction keeps the invariant (`exec_inv`), and taking the
input, sending an offered message or a fault touches nothing a sound run rests on. -/
theorem everyStepKeepsInvariant : Obligations.EveryStepKeepsInvariant := by
  intro s t hinv h
  rcases step_cases h with ⟨-, -, rfl⟩ | ⟨w, c, n, v, -, rfl⟩ | ⟨c, rest, i, -, -, -, hexec⟩ |
    ⟨c, rest, e, -, -, -, -, rfl⟩ | ⟨c, rest, e, -, -, -, -, rfl⟩
  · exact hinv
  · exact hinv.of_glob_bank rfl rfl rfl rfl rfl
  · exact exec_inv hinv.popCommand hexec
  · exact hinv.popCommand
  · exact hinv.popCommand.fault (by decide) (by decide)

/-- Settles O27: outside CONFIG every instruction but RESET keeps the registers (`exec_sameRegs`), and CFG_WRITE
faults before it writes. -/
theorem configurationIsImmutableOutsideConfig : Obligations.ConfigurationIsImmutableOutsideConfig := by
  intro s t h hmode
  refine ⟨step_sameRegs h hmode, fun c a d herror hslot hport hdecode => ?_⟩
  rw [step_of_decodeCommand hslot hport hdecode,
    exec_cfgWrite_of_not_config (s := s.popCommand) a d herror hmode] at h
  obtain rfl := Host.Outcome.next.inj h
  exact ⟨rfl, rfl⟩

/-- Settles O56: channel `c`'s turn is `channelStep` of its own registers and record, which reads the
magnitudes of its own samples only (`channelStep_congr`). -/
theorem channelsAreIndependent : Obligations.ChannelsAreIndependent := by
  intro s s' p p' c t t' hmode hmode' hnch hnch' hc hglob hcfg hst hlen hlen' hsamples ht ht'
  have hmags : SameMags s.glob c p p' := fun f hf => mag_congr (hsamples f hf)
  have hstep : channelStep s'.glob (s'.chanCfg c) p' c (s'.chanState c) =
      channelStep s.glob (s.chanCfg c) p c (s.chanState c) := by
    rw [hglob, hcfg, hst, channelStep_congr _ _ hmags]
  rw [exec_buffer_of_running hmode hlen] at ht
  rw [exec_buffer_of_running hmode' (hglob ▸ hlen')] at ht'
  obtain rfl := Host.Outcome.next.inj ht
  obtain rfl := Host.Outcome.next.inj ht'
  rw [← hglob] at hnch' hc
  obtain ⟨hrecord', -⟩ := bufferStep_chanState p' hnch'
  obtain ⟨hrecord, -⟩ := bufferStep_chanState p hnch
  rw [hrecord' c hc, hrecord c (hglob ▸ hc), hstep]
  exact ⟨rfl, rfl⟩

end

section
/-! SUPPORT. 30_encoding.md R69 to R72: a command that decodes is the one encoding of what it decodes to. -/

namespace Sys2Proof

theorem command_of_fields {c : Command} {op : BitVec 4} {a : BitVec 12} {p : List Byte}
    (hrsv : rsvField c.word = 0) (hop : opField c.word = op) (haddr : addrField c.word = a)
    (hpayload : c.payload = p) : Encoded.command ⟨mkWord op a, p⟩ = .command c := by
  subst hop haddr hpayload
  rw [mkWord_fields c.word hrsv]

theorem encode_of_decodeCommand {c : Command} {i : Instr} (h : decodeCommand c = .ok i) :
    encode i = .command c := by
  obtain ⟨hrsv, hcases⟩ := decodeCommand_ok h
  rcases hcases with ⟨rfl, hop, haddr, hp⟩ | ⟨hop, hcfg⟩ | ⟨rfl, hop, haddr, hp⟩ | ⟨rfl, hop, haddr⟩ |
    ⟨rfl, hop, haddr, hp⟩ | ⟨rfl, hop, haddr, hp⟩ | ⟨rfl, hop, haddr, hp⟩
  · exact command_of_fields hrsv hop haddr hp
  · obtain ⟨p0, p1, p2, p3, p4, p5, p6, p7, hp, rfl⟩ := decodeCfgWrite_ok hcfg
    exact command_of_fields hrsv hop rfl (hp.trans (dataBytes_append ..).symm)
  · exact command_of_fields hrsv hop haddr hp
  · exact command_of_fields hrsv hop haddr rfl
  · exact command_of_fields hrsv hop haddr hp
  · exact command_of_fields hrsv hop haddr hp
  · exact command_of_fields hrsv hop haddr hp

end Sys2Proof
end

section
/-! SUPPORT. 20_memory.md R57, R59 and 60_exceptions.md R200: what a step takes from the inputs, that a command
always completes, and what a step appends to the outputs. -/

namespace Sys2Proof.Machine

/-- No instruction takes anything from the command port or puts anything back. -/
theorem exec_sameInputs {i : Instr} {s t : State} (h : exec i s = .next t) : s.SameInputs t := by
  rcases exec_cases h with ⟨-, rfl⟩ | ⟨-, rfl⟩ | ⟨c, n, v, rfl, -⟩ | ⟨-, rfl⟩ | ⟨-, n, -, -, rfl, -⟩ |
    ⟨-, a, d, r, -, -, rfl⟩ | ⟨-, -, -, rfl⟩ | ⟨-, p, -, -, rfl⟩ | ⟨-, -, rfl⟩
  · exact ⟨rfl, rfl⟩
  · exact ⟨rfl, rfl⟩
  · exact ⟨rfl, rfl⟩
  · exact ⟨rfl, rfl⟩
  · exact ⟨rfl, rfl⟩
  · exact ⟨s.writeReg_port r d, s.writeReg_emitSlot r d⟩
  · exact ⟨rfl, rfl⟩
  · obtain ⟨-, -, -, -, -, -, hport, hslot, -⟩ := bufferStep_frame p s
    exact ⟨hport, hslot⟩
  · exact ⟨rfl, rfl⟩

theorem executeCommand_next (c : Command) (s : State) : ∃ t, executeCommand c s = .next t := by
  rcases hdecode : decodeCommand c with e | i
  · exact ⟨_, executeCommand_of_error s hdecode⟩
  · rw [executeCommand_of_ok s hdecode]
    exact exec_next i s

theorem step_of_port_nil {s : State} (hslot : s.emitSlot = none) (hport : s.port = []) :
    step s = .next s := by
  simp [step, State.fetch, hslot, hport]

theorem step_of_port_cons {s : State} {c : Command} {rest : List Command} (hslot : s.emitSlot = none)
    (hport : s.port = c :: rest) : step s = executeCommand c s.popCommand := by
  simp [step, State.fetch, hslot, hport]

theorem step_of_offer {s : State} {w : BitVec 24} (hslot : s.emitSlot = some w) :
    step s = executeMessage w s.takeMessage := by
  simp [step, State.fetch, hslot]

theorem executeMessage_of_ok {w : BitVec 24} {i : Instr} (s : State) (h : decodeMessage w = .ok i) :
    executeMessage w s = exec i s := by
  simp [executeMessage, h]

theorem step_next_of_no_offer {s : State} (hslot : s.emitSlot = none) : ∃ t, step s = .next t := by
  rcases hport : s.port with _ | ⟨c, rest⟩
  · exact ⟨s, step_of_port_nil hslot hport⟩
  · rw [step_of_port_cons hslot hport]
    exact executeCommand_next c s.popCommand

/-- A step with no offered message takes the oldest command, where there is one, and no other. -/
theorem step_inputs {s t : State} (h : step s = .next t) (hslot : s.emitSlot = none) :
    t.emitSlot = none ∧ t.port = s.port.tail := by
  rcases step_cases h with ⟨-, hport, rfl⟩ | ⟨w, c, n, v, hoffer, -⟩ | ⟨c, rest, i, -, -, -, hexec⟩ |
    ⟨c, rest, e, -, -, -, -, rfl⟩ | ⟨c, rest, e, -, -, -, -, rfl⟩
  · simp [hslot, hport]
  · simp [hslot] at hoffer
  · obtain ⟨hport, hslot'⟩ := exec_sameInputs hexec
    exact ⟨hslot'.trans hslot, hport⟩
  · exact ⟨hslot, rfl⟩
  · exact ⟨hslot, rfl⟩

/-- A note-on row appends its message (43_scheduler.md R150), with the bytes of 30_encoding.md R81. -/
theorem exec_non (ch : BitVec 4) (note vel : BitVec 7) (s : State) :
    exec (.non ch note vel) s =
      .next (s.emit [⟨0x90 ||| ch.setWidth 8, note.setWidth 8, vel.setWidth 8⟩]) := by
  rw [← voiceMsg_eq]
  rfl

/-- A note-off row appends a message with velocity 0 (43_scheduler.md R151). -/
theorem exec_noff (ch : BitVec 4) (note : BitVec 7) (s : State) :
    exec (.noff ch note) s = .next (s.emit [⟨0x90 ||| ch.setWidth 8, note.setWidth 8, 0⟩]) :=
  exec_non ch note 0 s

/-- What an instruction appends to the outputs: one answer, the messages of a buffer, one message, or
nothing. -/
theorem exec_outputs {i : Instr} {s t : State} (h : exec i s = .next t) :
    s.SameOutputs t ∨
    (i = .statusRead ∧ t.out = s.out ∧ t.resp = s.resp ++ [s.status]) ∨
    (s.mode = .running ∧ ∃ p ms, i = .buffer p ∧ t.out = s.out ++ ms ∧ t.resp = s.resp) ∨
    (∃ c n v, (i = .non c n v ∨ i = .noff c n) ∧ t.out = s.out ++ [voiceMsg c n v] ∧ t.resp = s.resp) := by
  rcases exec_cases h with ⟨-, rfl⟩ | ⟨hi, rfl⟩ | ⟨c, n, v, rfl, hi⟩ | ⟨-, rfl⟩ | ⟨-, n, -, -, rfl, -⟩ |
    ⟨-, a, d, r, -, -, rfl⟩ | ⟨-, -, -, rfl⟩ | ⟨hmode, p, hi, -, rfl⟩ | ⟨-, -, rfl⟩
  · exact .inl ⟨rfl, rfl⟩
  · exact .inr (.inl ⟨hi, rfl, rfl⟩)
  · exact .inr (.inr (.inr ⟨c, n, v, hi.imp_right And.left, rfl, rfl⟩))
  · exact .inl ⟨rfl, rfl⟩
  · exact .inl ⟨rfl, rfl⟩
  · exact .inl ⟨s.writeReg_out r d, s.writeReg_resp r d⟩
  · exact .inl ⟨rfl, rfl⟩
  · obtain ⟨-, -, -, -, -, hresp, -, -, -, ms, hout⟩ := bufferStep_frame p s
    exact .inr (.inr (.inl ⟨hmode, p, ms, hi, hout, hresp⟩))
  · exact .inl ⟨rfl, rfl⟩

/-- What a step appends to the outputs, and the command or the offered message it appends it for. -/
theorem step_outputs {s t : State} (h : step s = .next t) :
    s.SameOutputs t ∨
    (s.port.head? = some ⟨0x70000000, []⟩ ∧ t.out = s.out ∧ t.resp = s.resp ++ [s.status]) ∨
    (s.mode = .running ∧ ∃ p ms, s.port.head? = some ⟨0x40000000, p⟩ ∧ t.out = s.out ++ ms ∧
      t.resp = s.resp) ∨
    (s.emitSlot ≠ none ∧ ∃ c n v, t.out = s.out ++ [voiceMsg c n v] ∧ t.resp = s.resp) := by
  rcases step_cases h with ⟨-, -, rfl⟩ | ⟨w, c, n, v, hoffer, rfl⟩ | ⟨c, rest, i, -, hport, hdecode, hexec⟩ |
    ⟨c, rest, e, -, -, -, -, rfl⟩ | ⟨c, rest, e, -, -, -, -, rfl⟩
  · exact .inl ⟨rfl, rfl⟩
  · exact .inr (.inr (.inr ⟨by simp [hoffer], c, n, v, rfl, rfl⟩))
  · have hhead {d : Command} (hd : encode i = .command d) : s.port.head? = some d := by
      obtain rfl := Encoded.command.inj ((encode_of_decodeCommand hdecode).symm.trans hd)
      simp [hport]
    rcases exec_outputs hexec with hsame | ⟨rfl, hout, hresp⟩ | ⟨hmode, p, ms, rfl, hout, hresp⟩ |
      ⟨ch, n, v, hi, -⟩
    · exact .inl hsame
    · exact .inr (.inl ⟨hhead rfl, hout, hresp⟩)
    · exact .inr (.inr (.inl ⟨hmode, p, ms, hhead rfl, hout, hresp⟩))
    · obtain ⟨hnon, hnoff⟩ := decodeCommand_not_message hdecode
      exact (hi.elim (hnon ch n v) (hnoff ch n)).elim
  · exact .inl ⟨rfl, rfl⟩
  · exact .inl ⟨rfl, rfl⟩

end Sys2Proof.Machine
end

section
/-! The statements of 20_memory.md. -/

open Sys2Proof Sys2Proof.Machine

/-- Settles O10: the prologue answers a next state for every command (`executeCommand_next`), and no
instruction touches the port (`exec_sameInputs`). -/
theorem everyCommandCompletes : Obligations.EveryCommandCompletes := by
  intro s hslot
  obtain ⟨t, h⟩ := step_next_of_no_offer hslot
  exact ⟨⟨t, h, step_inputs h hslot⟩, step_of_port_nil hslot⟩

/-- Settles O28, by the cases of what a step appends (`step_outputs`). -/
theorem outputsAreAppendOnly : Obligations.OutputsAreAppendOnly := by
  intro s t h
  rcases step_outputs h with ⟨hout, hresp⟩ | ⟨hport, hout, hresp⟩ |
    ⟨hmode, p, ms, hport, hout, hresp⟩ | ⟨hoffer, c, n, v, hout, hresp⟩
  · exact ⟨⟨[], by simp [hout]⟩, [], by simp [hresp]⟩
  · exact ⟨⟨[], by simp [hout]⟩, [s.status], hresp, fun _ => ⟨rfl, hport⟩⟩
  · exact ⟨⟨ms, hout, fun _ _ => ⟨hmode, p, hport⟩⟩, [], by simp [hresp]⟩
  · exact ⟨⟨[voiceMsg c n v], hout, fun hslot => absurd hslot hoffer⟩, [], by simp [hresp]⟩

/-- Settles O9: the step takes the offer first, and a message that decodes is executed. -/
theorem stepRunsOfferedMessage : Obligations.StepRunsOfferedMessage := by
  intro s w i hslot hdecode
  rw [step_of_offer hslot]
  exact executeMessage_of_ok s.takeMessage hdecode

/-- Settles O21: each row is one `State.emit` of its message (`exec_non`, `exec_noff`). -/
theorem messagesAreAppendedWhole : Obligations.MessagesAreAppendedWhole := by
  intro ch note vel s
  exact ⟨exec_non ch note vel s, exec_noff ch note s⟩

end

section
/-! SUPPORT. 30_encoding.md R81 to R83 and R87: the one shape of the two message rows, its fields, and the
values that have it. -/

namespace Sys2Proof

/-- The 24-bit value of the message with these wire fields (R81); that of a note-off has velocity 0 (R82). -/
def messageWord (ch : BitVec 4) (note vel : BitVec 7) : BitVec 24 :=
  9#4 ++ ch ++ 0#1 ++ note ++ 0#1 ++ vel

theorem encode_non (ch : BitVec 4) (note vel : BitVec 7) :
    encode (.non ch note vel) = .message (messageWord ch note vel) := rfl

theorem encode_noff (ch : BitVec 4) (note : BitVec 7) :
    encode (.noff ch note) = .message (messageWord ch note 0) := by
  refine congrArg Encoded.message (?_ : 9#4 ++ ch ++ 0#1 ++ note ++ 0#8 = messageWord ch note 0)
  unfold messageWord
  ext i hi
  grind

@[simp] theorem messageWord_fields (ch : BitVec 4) (note vel : BitVec 7) :
    (messageWord ch note vel).extractLsb' 20 4 = 9 ∧ (messageWord ch note vel).extractLsb' 16 4 = ch ∧
    (messageWord ch note vel).extractLsb' 15 1 = 0 ∧ (messageWord ch note vel).extractLsb' 8 7 = note ∧
    (messageWord ch note vel).extractLsb' 7 1 = 0 ∧ (messageWord ch note vel).extractLsb' 0 7 = vel := by
  unfold messageWord
  refine ⟨?_, ?_, ?_, ?_, ?_, ?_⟩ <;> (ext i hi; grind)

/-- A value with the fixed fields of R81 is made of its three wire fields. -/
theorem messageWord_of_fields {w : BitVec 24} (hstatus : w.extractLsb' 20 4 = 9)
    (hbit15 : w.extractLsb' 15 1 = 0) (hbit7 : w.extractLsb' 7 1 = 0) :
    messageWord (w.extractLsb' 16 4) (w.extractLsb' 8 7) (w.extractLsb' 0 7) = w := by
  have hsplit : w.extractLsb' 20 4 ++ w.extractLsb' 16 4 ++ w.extractLsb' 15 1 ++ w.extractLsb' 8 7 ++
      w.extractLsb' 7 1 ++ w.extractLsb' 0 7 = w := by
    ext i hi
    grind
  rw [hstatus, hbit15, hbit7] at hsplit
  exact hsplit

theorem decodeMessage_messageWord (ch : BitVec 4) (note vel : BitVec 7) :
    decodeMessage (messageWord ch note vel) =
      .ok (if vel = 0 then .noff ch note else .non ch note vel) := by
  simp only [decodeMessage, messageWord_fields, ne_eq, not_true_eq_false, or_self, if_false]
  split <;> rfl

/-- Every 24-bit value is a message or is rejected as none. -/
theorem messageWord_or_notAMessage (w : BitVec 24) :
    (∃ ch note vel, w = messageWord ch note vel) ∨ decodeMessage w = .error .notAMessage := by
  by_cases h : w.extractLsb' 20 4 ≠ 9 ∨ w.extractLsb' 15 1 ≠ 0 ∨ w.extractLsb' 7 1 ≠ 0
  · exact .inr (if_pos h)
  · simp only [not_or, ne_eq, not_not] at h
    obtain ⟨hstatus, hbit15, hbit7⟩ := h
    exact .inl ⟨_, _, _, (messageWord_of_fields hstatus hbit15 hbit7).symm⟩

theorem decodeMessage_ok {w : BitVec 24} {i : Instr} (h : decodeMessage w = .ok i) :
    encode i = .message w ∧ WellFormed i = true := by
  rcases messageWord_or_notAMessage w with ⟨ch, note, vel, rfl⟩ | herror
  · rw [decodeMessage_messageWord] at h
    obtain rfl := Except.ok.inj h
    split
    · next hvel => exact ⟨hvel ▸ encode_noff ch note, rfl⟩
    · next hvel => exact ⟨encode_non ch note vel, by simpa [WellFormed] using hvel⟩
  · cases herror.symm.trans h

/-- A masked comparison fixes every field the mask covers. -/
theorem extractLsb'_of_and_eq {n start len : Nat} {w mask pattern : BitVec n} (h : w &&& mask = pattern)
    (hmask : mask.extractLsb' start len = BitVec.allOnes len) :
    w.extractLsb' start len = pattern.extractLsb' start len := by
  rw [← h, BitVec.extractLsb'_and, hmask, BitVec.and_allOnes]

/-- The values of the NON row are the messages. -/
theorem nonRow_iff (w : BitVec 24) :
    w &&& 0xF08080 = 0x900000 ↔ ∃ ch note vel, w = messageWord ch note vel := by
  constructor
  · intro h
    have hstatus : w.extractLsb' 20 4 = 9 := extractLsb'_of_and_eq h rfl
    have hbit15 : w.extractLsb' 15 1 = 0 := extractLsb'_of_and_eq h rfl
    have hbit7 : w.extractLsb' 7 1 = 0 := extractLsb'_of_and_eq h rfl
    exact ⟨_, _, _, (messageWord_of_fields hstatus hbit15 hbit7).symm⟩
  · rintro ⟨ch, note, vel, rfl⟩
    exact Laws.EncodeMatchesTable.non ch note vel

/-- The values of the NOFF row are the messages with velocity 0. -/
theorem noffRow_iff (w : BitVec 24) :
    w &&& 0xF080FF = 0x900000 ↔ ∃ ch note, w = messageWord ch note 0 := by
  constructor
  · intro h
    have hvel : w.extractLsb' 0 7 = 0 := extractLsb'_of_and_eq h rfl
    have hnon : w &&& 0xF08080 = 0x900000 := by
      have hand := congrArg (· &&& 0xF08080#24) h
      rwa [BitVec.and_assoc] at hand
    obtain ⟨ch, note, vel, rfl⟩ := (nonRow_iff w).1 hnon
    obtain ⟨-, -, -, -, -, hfield⟩ := messageWord_fields ch note vel
    obtain rfl : vel = 0 := hfield.symm.trans hvel
    exact ⟨ch, note, rfl⟩
  · rintro ⟨ch, note, rfl⟩
    rw [← Encoded.message.inj (encode_noff ch note)]
    exact Laws.EncodeMatchesTable.noff ch note

/-- The wire fields as the quotients of R87. -/
theorem messageWord_quotients (ch : BitVec 4) (note vel : BitVec 7) :
    BitVec.ofNat 4 ((messageWord ch note vel).toNat / 2 ^ 16) = ch ∧
    BitVec.ofNat 7 ((messageWord ch note vel).toNat / 2 ^ 8) = note ∧
    BitVec.ofNat 7 (messageWord ch note vel).toNat = vel := by
  obtain ⟨-, hch, -, hnote, -, hvel⟩ := messageWord_fields ch note vel
  simp only [BitVec.extractLsb', Nat.shiftRight_eq_div_pow, pow_zero, Nat.div_one] at hch hnote hvel
  exact ⟨hch, hnote, hvel⟩

end Sys2Proof
end

section
/-! SUPPORT. 30_encoding.md R69 to R72 and R81 to R83: decoding and encoding are inverse on the well-formed
instructions. -/

namespace Sys2Proof

theorem decodeCommand_buffer (p : List Byte) : decodeCommand ⟨mkWord 4 0, p⟩ = .ok (.buffer p) := by
  simp [decodeCommand, decodeBuffer]

theorem decode_encode {i : Instr} (h : WellFormed i = true) : decode (encode i) = .ok i := by
  cases i with
  | reset => rfl
  | cfgWrite a d => exact decodeCommand_cfgWrite a d
  | start => rfl
  | buffer p => exact decodeCommand_buffer p
  | stop => rfl
  | sourceFail => rfl
  | statusRead => rfl
  | non ch note vel =>
    have hvel : vel ≠ 0 := by simpa [WellFormed] using h
    rw [encode_non, decode, decodeMessage_messageWord, if_neg hvel]
  | noff ch note => rw [encode_noff, decode, decodeMessage_messageWord, if_pos rfl]

theorem encode_of_decode {x : Encoded} {i : Instr} (h : decode x = .ok i) :
    encode i = x ∧ WellFormed i = true := by
  cases x with
  | command c =>
    refine ⟨encode_of_decodeCommand h, ?_⟩
    obtain ⟨hnon, -⟩ := decodeCommand_not_message h
    cases i with
    | non ch note vel => exact absurd rfl (hnon ch note vel)
    | _ => rfl
  | message w => exact decodeMessage_ok h

end Sys2Proof
end

section
/-! SUPPORT. 30_encoding.md R76: the commands the decoder rejects. -/

namespace Sys2Proof

theorem decodeBare_error_iff (c : Command) (i : Instr) :
    (∃ e, decodeBare c i = .error e) ↔ addrField c.word ≠ 0 ∨ c.payload ≠ [] := by
  unfold decodeBare
  split
  · next haddr => exact iff_of_true ⟨_, rfl⟩ (.inl haddr)
  · next haddr =>
    split
    · next hpayload => exact iff_of_true ⟨_, rfl⟩ (.inr hpayload)
    · next hpayload => exact iff_of_false (by simp) (by tauto)

theorem decodeCfgWrite_error_iff (c : Command) :
    (∃ e, decodeCfgWrite c = .error e) ↔ c.payload.length ≠ 8 := by
  unfold decodeCfgWrite
  split
  · next hpayload => simp [hpayload]
  · next hpayload =>
    refine iff_of_true ⟨_, rfl⟩ fun hlen => ?_
    match h : c.payload, hlen with
    | [p0, p1, p2, p3, p4, p5, p6, p7], _ => exact hpayload _ _ _ _ _ _ _ _ h

theorem decodeBuffer_error_iff (c : Command) :
    (∃ e, decodeBuffer c = .error e) ↔ addrField c.word ≠ 0 := by
  unfold decodeBuffer
  split
  · next haddr => exact iff_of_true ⟨_, rfl⟩ haddr
  · next haddr => exact iff_of_false (by simp) haddr

/-- The five items of R76, over the fields of the command word. -/
theorem decodeCommand_error_iff (c : Command) :
    (∃ e, decodeCommand c = .error e) ↔
      ((opField c.word).toNat = 0 ∨ 8 ≤ (opField c.word).toNat) ∨ rsvField c.word ≠ 0 ∨
        ((opField c.word).toNat ≠ 2 ∧ addrField c.word ≠ 0) ∨
        ((opField c.word).toNat = 2 ∧ c.payload.length ≠ 8) ∨
        ((opField c.word).toNat ≠ 2 ∧ (opField c.word).toNat ≠ 4 ∧ c.payload ≠ []) := by
  unfold decodeCommand
  split
  · next hrsv => exact iff_of_true ⟨_, rfl⟩ (.inr (.inl hrsv))
  · next hrsv =>
    rw [not_not] at hrsv
    split
    · next hop => simp [hop, hrsv, decodeBare_error_iff]
    · next hop => simp [hop, hrsv, decodeCfgWrite_error_iff]
    · next hop => simp [hop, hrsv, decodeBare_error_iff]
    · next hop => simp [hop, hrsv, decodeBuffer_error_iff]
    · next hop => simp [hop, hrsv, decodeBare_error_iff]
    · next hop => simp [hop, hrsv, decodeBare_error_iff]
    · next hop => simp [hop, hrsv, decodeBare_error_iff]
    · exact iff_of_true ⟨_, rfl⟩ (.inl (by grind))

end Sys2Proof
end

section
/-! SUPPORT. 30_encoding.md R72 and R74: the word and the datum of CFG_WRITE, and the register an address
selects. -/

namespace Sys2Proof.Machine

theorem cfgWriteWord_eq (a : BitVec 12) : 0x20000000#32 ||| a.setWidth 32 = mkWord 2 a := by
  have hop : (0x20000000#32) = 2#4 ++ 0#16 ++ 0#12 := rfl
  have haddr : a.setWidth 32 = 0#4 ++ 0#16 ++ a := by
    have hlt : a.toNat < 2 ^ 32 := by omega
    refine BitVec.eq_of_toNat_eq ?_
    have hzero : (0#4 ++ 0#16).toNat = 0 := rfl
    rw [toNat_append_eq, hzero, Nat.zero_mul, Nat.zero_add, BitVec.toNat_setWidth, Nat.mod_eq_of_lt hlt]
  rw [hop, haddr, BitVec.or_append, BitVec.or_append]
  simp [mkWord]

theorem append_bytes_toNat (p0 p1 p2 p3 p4 p5 p6 p7 : Byte) :
    (p7 ++ p6 ++ p5 ++ p4 ++ p3 ++ p2 ++ p1 ++ p0).toNat =
      p0.toNat + p1.toNat * 2 ^ 8 + p2.toNat * 2 ^ 16 + p3.toNat * 2 ^ 24 +
        p4.toNat * 2 ^ 32 + p5.toNat * 2 ^ 40 + p6.toNat * 2 ^ 48 + p7.toNat * 2 ^ 56 := by
  simp only [toNat_append_eq]
  ring

theorem exec_cfgWrite_of_selected {s : State} {a : BitVec 12} {r : Reg} (d : BitVec 64)
    (hmode : s.mode = .config) (hreg : regOfAddr s.cmax a = some r) :
    exec (.cfgWrite a d) s = .next (s.writeReg r d) := by
  simp [exec, execCfgWrite, hmode, hreg]

theorem regOfAddr_glob {a : BitVec 12} {r : GReg} (cmax : Nat) (h : gregOfAddr a.toNat = some r) :
    regOfAddr cmax a = some (.glob r) := by
  have hlt : a.toNat < 4 := (List.getElem?_eq_some_iff.1 h).1
  rw [regOfAddr, if_pos (by omega), h]
  rfl

theorem regOfAddr_chan_of_offset {cmax c k : Nat} {a : BitVec 12} {r : CReg} (hc : c < cmax)
    (ha : a.toNat = 0x100 + 16 * c + k) (h : cregOfOffset k = some r) :
    regOfAddr cmax a = some (.chan c r) := by
  have hk : k < 10 := (List.getElem?_eq_some_iff.1 h).1
  have hchan : (a.toNat - 0x100) / 16 = c := by omega
  have hoffset : a.toNat % 16 = k := by omega
  rw [regOfAddr, if_neg (by omega), hchan, if_pos hc, hoffset, h]
  rfl

theorem regOfAddr_glob_reserved {a : BitVec 12} (cmax : Nat) (hlo : 4 ≤ a.toNat) (hhi : a.toNat ≤ 0xFF) :
    regOfAddr cmax a = none := by
  have hnone : gregOfAddr a.toNat = none := List.getElem?_eq_none hlo
  rw [regOfAddr, if_pos (by omega), hnone]
  rfl

theorem regOfAddr_chan_reserved {cmax : Nat} {a : BitVec 12} (hlo : 0x100 ≤ a.toNat)
    (h : 10 ≤ a.toNat % 16 ∨ cmax ≤ (a.toNat - 0x100) / 16) : regOfAddr cmax a = none := by
  rw [regOfAddr, if_neg (by omega)]
  rcases h with hoffset | hchan
  · have hnone : cregOfOffset (a.toNat % 16) = none := List.getElem?_eq_none hoffset
    simp [hnone]
  · exact if_neg (by omega)

end Sys2Proof.Machine
end

section
/-! SUPPORT. 30_encoding.md R82: every message the scheduler and the detectors send has the one shape
of R81. -/

namespace Sys2Proof.Machine

/-- The message has the shape of R81. -/
def Msg.IsVoice (m : Msg) : Prop := ∃ ch note vel, m = voiceMsg ch note vel

/-- The shape of R81 as bytes: status `0x9n`, bit 7 of the others clear. -/
theorem Msg.IsVoice.bytes {m : Msg} (h : m.IsVoice) :
    m.b0.toNat / 16 = 9 ∧ m.b1.toNat < 128 ∧ m.b2.toNat < 128 := by
  obtain ⟨ch, note, vel, rfl⟩ := h
  have hch := ch.isLt
  have hnote := note.isLt
  have hvel := vel.isLt
  simp only [voiceMsg, toNat_append_eq, BitVec.toNat_ofNat]
  omega

/-- Every message of the lane has that shape. -/
def Lane.AllVoice (l : Lane) : Prop := ∀ m ∈ l.msgs, m.IsVoice

theorem Lane.AllVoice.append {l : Lane} (h : l.AllVoice) (st : ChanState) (ch : BitVec 4)
    (note vel : BitVec 7) : Lane.AllVoice ⟨st, l.msgs ++ [voiceMsg ch note vel]⟩ := by
  intro m hm
  rcases List.mem_append.1 hm with hm | hm
  · exact h m hm
  · exact ⟨ch, note, vel, List.mem_singleton.1 hm⟩

theorem tickNoteOff_allVoice {l : Lane} (k : ChanCfg) (h : l.AllVoice) : (tickNoteOff k l).AllVoice := by
  rcases tickNoteOff_cases k l with ⟨-, heq⟩ | ⟨-, heq⟩ | ⟨-, -, heq⟩
  · rwa [heq]
  · rw [heq]
    exact h.append _ _ _ _
  · rw [heq]
    exact h

theorem envFall_allVoice {l : Lane} (fmt : BitVec 1) (k : ChanCfg) (h : l.AllVoice) :
    (envFall fmt k l).AllVoice := by
  have hforce : Lane.AllVoice
      ⟨l.st, l.msgs ++ (if k.force = true ∧ l.st.noff ≠ 0 then [noteOffMsg k] else [])⟩ := by
    split
    · exact h.append _ _ _ _
    · rwa [List.append_nil]
  rw [envFall_eq]
  exact hforce.append _ _ _ _

theorem envStep_allVoice {l : Lane} (g : GlobalCfg) (k : ChanCfg) (buf : List Byte) (c : Nat)
    (h : l.AllVoice) : (envStep g k buf c l).AllVoice := by
  show (envBranch g.format k (bufferPeak g buf c) l).AllVoice
  unfold envBranch
  split
  · unfold envRising
    dsimp only
    split
    · exact envFall_allVoice (l := ⟨_, l.msgs⟩) _ k h
    · exact h
  · split
    · exact h
    · exact h

theorem pwPass_allVoice {x : Scan} (g : GlobalCfg) (k : ChanCfg) (buf : List Byte) (c : Nat)
    (h : x.lane.AllVoice) : (pwPass g k buf c x).lane.AllVoice := by
  unfold pwPass
  split
  · unfold pwIdle
    split
    · exact h
    · exact h
  · unfold pwPeak
    dsimp only
    split
    · exact Lane.AllVoice.append (l := ⟨_, x.lane.msgs⟩) h _ _ _ _
    · exact h
  · unfold pwWait
    dsimp only
    split
    · exact h
    · exact h

theorem pwLoop_allVoice {x : Scan} (g : GlobalCfg) (k : ChanCfg) (buf : List Byte) (c fuel : Nat)
    (h : x.lane.AllVoice) : (pwLoop g k buf c fuel x).lane.AllVoice := by
  induction fuel generalizing x with
  | zero => exact h
  | succ fuel ih =>
    unfold pwLoop
    split
    · exact ih (pwPass_allVoice g k buf c h)
    · exact h

theorem channelStep_allVoice (g : GlobalCfg) (k : ChanCfg) (buf : List Byte) (c : Nat) (st : ChanState) :
    (channelStep g k buf c st).AllVoice := by
  have htick : (tickNoteOff k ⟨st, []⟩).AllVoice := tickNoteOff_allVoice k (by simp [Lane.AllVoice])
  unfold channelStep detect
  split
  · exact envStep_allVoice g k buf c htick
  · exact pwLoop_allVoice g k buf c (pwPasses g) htick

/-- The output stream of `t` is that of `s` with messages of the shape of R81 appended. -/
def State.AppendsVoice (s t : State) : Prop := ∃ ms, t.out = s.out ++ ms ∧ ∀ m ∈ ms, m.IsVoice

theorem State.AppendsVoice.of_out_eq {s t : State} (h : t.out = s.out) : s.AppendsVoice t :=
  ⟨[], by simp [h], by simp⟩

theorem State.AppendsVoice.trans {s t u : State} (h : s.AppendsVoice t) (h' : t.AppendsVoice u) :
    s.AppendsVoice u := by
  obtain ⟨ms, hout, hvoice⟩ := h
  obtain ⟨ms', hout', hvoice'⟩ := h'
  refine ⟨ms ++ ms', by rw [hout', hout, List.append_assoc], fun m hm => ?_⟩
  exact (List.mem_append.1 hm).elim (hvoice m) (hvoice' m)

theorem emit_voiceMsg_appendsVoice (s : State) (ch : BitVec 4) (note vel : BitVec 7) :
    s.AppendsVoice (s.emit [voiceMsg ch note vel]) :=
  ⟨_, rfl, fun _ hm => ⟨ch, note, vel, List.mem_singleton.1 hm⟩⟩

theorem stepChannel_appendsVoice (p : List Byte) (s : State) (c : Nat) : s.AppendsVoice (stepChannel p s c) :=
  ⟨_, rfl, channelStep_allVoice s.glob (s.chanCfg c) p c (s.chanState c)⟩

theorem stepChannels_appendsVoice (p : List Byte) (cs : List Nat) (s : State) :
    s.AppendsVoice (cs.foldl (stepChannel p) s) := by
  induction cs generalizing s with
  | nil => exact .of_out_eq rfl
  | cons c cs ih => exact (stepChannel_appendsVoice p s c).trans (ih (stepChannel p s c))

theorem exec_appendsVoice {i : Instr} {s t : State} (h : exec i s = .next t) : s.AppendsVoice t := by
  rcases exec_cases h with ⟨-, rfl⟩ | ⟨-, rfl⟩ | ⟨c, n, v, rfl, -⟩ | ⟨-, rfl⟩ | ⟨-, n, -, -, rfl, -⟩ |
    ⟨-, a, d, r, -, -, rfl⟩ | ⟨-, -, -, rfl⟩ | ⟨-, p, -, -, rfl⟩ | ⟨-, -, rfl⟩
  · exact .of_out_eq rfl
  · exact .of_out_eq rfl
  · exact emit_voiceMsg_appendsVoice s c n v
  · exact .of_out_eq rfl
  · exact .of_out_eq rfl
  · exact .of_out_eq (s.writeReg_out r d)
  · exact .of_out_eq rfl
  · exact stepChannels_appendsVoice p _ s
  · exact .of_out_eq rfl

theorem step_appendsVoice {s t : State} (h : step s = .next t) : s.AppendsVoice t := by
  rcases step_cases h with ⟨-, -, rfl⟩ | ⟨w, c, n, v, -, rfl⟩ | ⟨c, rest, i, -, -, -, hexec⟩ |
    ⟨c, rest, e, -, -, -, -, rfl⟩ | ⟨c, rest, e, -, -, -, -, rfl⟩
  · exact .of_out_eq rfl
  · exact emit_voiceMsg_appendsVoice s.takeMessage c n v
  · exact exec_appendsVoice (s := s.popCommand) hexec
  · exact .of_out_eq rfl
  · exact .of_out_eq rfl

end Sys2Proof.Machine
end

section
/-! SUPPORT. 30_encoding.md R73: the fields of a 64-bit pattern as quotients and remainders, and the
datum they make. -/

namespace Sys2Proof

theorem F64.expBits_toNat (b : BitVec 64) :
    (b.extractLsb' 52 11).toNat = b.toNat / 2 ^ 52 % 2 ^ 11 := by
  simp [BitVec.extractLsb'_toNat, Nat.shiftRight_eq_div_pow]

theorem F64.fracBits_toNat (b : BitVec 64) : (b.extractLsb' 0 52).toNat = b.toNat % 2 ^ 52 := by
  simp [BitVec.extractLsb'_toNat]

theorem F64.signBit_eq (b : BitVec 64) : b.getLsbD 63 = decide (b.toNat / 2 ^ 63 = 1) := by
  have hlt : b.toNat / 2 ^ 63 < 2 := by omega
  rw [BitVec.getLsbD, Nat.testBit_eq_decide_div_mod_eq, Nat.mod_eq_of_lt hlt]

theorem F64.ofBits_of_exp_lt (b : BitVec 64) (h : b.toNat / 2 ^ 52 % 2 ^ 11 < 2047) :
    F64.ofBits b =
      .fin (decide (b.toNat / 2 ^ 63 = 1)) ⟨b.toNat / 2 ^ 52 % 2 ^ 11, h⟩ (b.extractLsb' 0 52) := by
  have hlt : (b.extractLsb' 52 11).toNat < 2047 := by rwa [F64.expBits_toNat]
  rw [F64.ofBits, dif_pos hlt]
  simp only [F64.signBit_eq, F64.expBits_toNat]

theorem F64.ofBits_of_exp_eq (b : BitVec 64) (h : b.toNat / 2 ^ 52 % 2 ^ 11 = 2047) :
    F64.ofBits b =
      if b.toNat % 2 ^ 52 = 0 then .inf (decide (b.toNat / 2 ^ 63 = 1)) else .nan := by
  have hge : ¬(b.extractLsb' 52 11).toNat < 2047 := by rw [F64.expBits_toNat, h]; decide
  have hfrac : b.extractLsb' 0 52 = 0 ↔ b.toNat % 2 ^ 52 = 0 := by
    rw [← F64.fracBits_toNat, ← BitVec.toNat_inj]; rfl
  simp only [F64.ofBits, dif_neg hge, F64.signBit_eq, hfrac]

/-- The number of a finite datum, its sign bit as a power of -1. -/
theorem F64.fin_value {sign : Nat} (hsign : sign < 2) (e : Fin 2047) (f : BitVec 52) :
    (F64.fin (decide (sign = 1)) e f).value =
      some ((-1) ^ sign * (F64.units e f : ℚ) / 2 ^ 1074) := by
  obtain rfl | rfl : sign = 0 ∨ sign = 1 := by omega
  · simp [F64.value, F64.signed]
  · simp [F64.value, F64.signed]

theorem F64.units_of_exp_zero {e : Fin 2047} (f : BitVec 52) (h : e.val = 0) :
    F64.units e f = f.toNat :=
  if_pos h

/-- A normal magnitude is its significand at the scale of its exponent field, in units of 2^-1075. -/
theorem F64.units_of_exp_pos {e : Fin 2047} (f : BitVec 52) (h : 0 < e.val) :
    F64.units e f * 2 = (2 ^ 52 + f.toNat) * 2 ^ e.val := by
  rw [F64.units, if_neg h.ne', mul_assoc, ← pow_succ, Nat.sub_add_cancel h]

end Sys2Proof
end

section
/-! The statements of 30_encoding.md. -/

open Sys2Proof Sys2Proof.Machine

/-- Settles O2: by the form of the instruction: a command with no operand is one fixed word, and the
fields of a message are read back from the one shape of both rows (`messageWord_fields`). -/
theorem decodeOfEncodeIsIdentity : Obligations.DecodeOfEncodeIsIdentity :=
  fun _ h => decode_encode h

/-- Settles O3: a command word with `RSV` 0 is made of its fields (`encode_of_decodeCommand`), and so is a
message (`decodeMessage_ok`). -/
theorem encodeOfDecodeIsIdentity : Obligations.EncodeOfDecodeIsIdentity :=
  fun _ _ h => encode_of_decode h

/-- Settles O4: the decoder rejects exactly those (`decodeCommand_error_iff`), and the prologue turns a
rejection into fault 1 outside ERROR. -/
theorem illegalCommandsFaultWithCodeOne : Obligations.IllegalCommandsFaultWithCodeOne := by
  intro c s op illegal
  have hillegal : (∃ e, decodeCommand c = .error e) ↔ illegal := by
    have hrsv : rsvField c.word = 0 ↔ c.word.toNat / 2 ^ 12 % 2 ^ 16 = 0 := by
      rw [← rsvField_toNat, ← BitVec.toNat_inj]; rfl
    have haddr : addrField c.word = 0 ↔ c.word.toNat % 2 ^ 12 = 0 := by
      rw [← addrField_toNat, ← BitVec.toNat_inj]; rfl
    rw [decodeCommand_error_iff, opField_toNat, ne_eq, hrsv, ne_eq (addrField _), haddr]
  refine ⟨hillegal, fun h hmode => ?_, fun h hmode => ?_⟩
  · obtain ⟨e, hdecode⟩ := hillegal.2 h
    rw [executeCommand_of_error s hdecode, if_neg hmode]
  · obtain ⟨e, hdecode⟩ := hillegal.2 h
    rw [executeCommand_of_error s hdecode, if_pos hmode]

/-- Settles O5: the values of the NON row are the messages (`nonRow_iff`), and those of the NOFF row the
messages with velocity 0 (`noffRow_iff`). -/
theorem messageRowsDecode : Obligations.MessageRowsDecode := by
  intro w
  refine ⟨fun hnoff => ?_, fun hnon hnoff => ?_, fun hnon => ?_⟩
  · obtain ⟨ch, note, rfl⟩ := (noffRow_iff w).1 hnoff
    obtain ⟨hch, hnote, -⟩ := messageWord_quotients ch note 0
    rw [decode, decodeMessage_messageWord, if_pos rfl, hch, hnote]
  · obtain ⟨ch, note, vel, rfl⟩ := (nonRow_iff w).1 hnon
    obtain ⟨hch, hnote, hvel⟩ := messageWord_quotients ch note vel
    have hne : vel ≠ 0 := by
      rintro rfl
      exact hnoff ((noffRow_iff _).2 ⟨ch, note, rfl⟩)
    rw [decode, decodeMessage_messageWord, if_neg hne, hch, hnote, hvel]
  · exact (messageWord_or_notAMessage w).resolve_left (hnon ∘ (nonRow_iff w).2)

/-- Settles O6: the eight bytes make one number, and the register reads back what was written, cut to its
width. -/
theorem cfgWriteDataIsLittleEndian : Obligations.CfgWriteDataIsLittleEndian := by
  intro a p0 p1 p2 p3 p4 p5 p6 p7
  refine ⟨p7 ++ p6 ++ p5 ++ p4 ++ p3 ++ p2 ++ p1 ++ p0, append_bytes_toNat .., ?_, fun s r hmode hreg => ?_⟩
  · rw [cfgWriteWord_eq, ← dataBytes_append]
    exact decodeCommand_cfgWrite a _
  · refine ⟨_, exec_cfgWrite_of_selected _ hmode hreg, (s.readReg_writeReg r _ ?_).1⟩
    rintro c k rfl
    exact regOfAddr_chan hreg

/-- Settles O7: a register address selects by its quotient and remainder, and a reserved one is beyond
the two lists or the last channel. -/
theorem configurationAddressMap : Obligations.ConfigurationAddressMap := by
  intro cmax a _
  refine ⟨fun r h => regOfAddr_glob cmax h, fun c k r hc ha h => regOfAddr_chan_of_offset hc ha h, ?_⟩
  rintro (⟨hlo, hhi⟩ | ⟨hlo, h⟩)
  · exact regOfAddr_glob_reserved cmax hlo hhi
  · exact regOfAddr_chan_reserved hlo h

/-- Settles O29: what a step appends are messages of the shape of R81 (`step_appendsVoice`), whose bytes are
those of the rule. -/
theorem everyMessageIsAVoiceMessage : Obligations.EveryMessageIsAVoiceMessage := by
  intro s t h m hm
  obtain ⟨ms, hout, hvoice⟩ := step_appendsVoice h
  rw [hout, List.drop_left] at hm
  exact (hvoice m hm).bytes

/-- Settles O60: a pattern below exponent field 2047 is the datum of its three fields
(`F64.ofBits_of_exp_lt`), whose number is its units of 2^-1074; the others are the infinities and NaN. -/
theorem bitPatternsReadAsBinary64 : Obligations.BitPatternsReadAsBinary64 := by
  intro b sign exp frac
  have hsign : sign < 2 := by omega
  refine ⟨fun hexp => ?_, fun hpos hlt => ?_, fun hlt => ?_, F64.ofBits_of_exp_eq b⟩
  · have hlt : exp < 2047 := by omega
    rw [F64.ofBits_of_exp_lt b hlt, F64.fin_value hsign, F64.units_of_exp_zero _ hexp, F64.fracBits_toNat]
  · have hunits := F64.units_of_exp_pos (e := ⟨exp, hlt⟩) (b.extractLsb' 0 52) hpos
    rw [F64.fracBits_toNat] at hunits
    have hscaled : (F64.units ⟨exp, hlt⟩ (b.extractLsb' 0 52) : ℚ) * 2 =
        ((2 ^ 52 + frac : ℕ) : ℚ) * 2 ^ exp := by exact_mod_cast hunits
    rw [F64.ofBits_of_exp_lt b hlt, F64.fin_value hsign, pow_succ (2 : ℚ) 1074, mul_assoc, ← hscaled,
      ← mul_assoc, mul_div_mul_right _ _ two_ne_zero]
  · rw [F64.ofBits_of_exp_lt b hlt]
    rfl

/-- Settles O1: each is the encoding of its instruction, written out. -/
theorem writtenWordsDecode : Obligations.WrittenWordsDecode :=
  ⟨decode_encode (i := .reset) rfl, decode_encode (i := .cfgWrite 0x100 1000) rfl,
   decode_encode (i := .start) rfl, decode_encode (i := .buffer [0x00, 0x00, 0x88, 0x13]) rfl,
   decode_encode (i := .stop) rfl, decode_encode (i := .sourceFail) rfl,
   decode_encode (i := .statusRead) rfl, decode_encode (i := .non 9 38 16) rfl,
   decode_encode (i := .noff 9 38) rfl⟩

end

section
/-! SUPPORT. 40_decoder.md R96 to R98: the magnitude of a sample as a number, and the bytes it is read from. -/

namespace Sys2Proof.Machine

/-- Two's complement with its two ranges of patterns: the number itself, and its distance to `2^n`. -/
theorem natAbs_toInt {n : Nat} (x : BitVec n) :
    x.toInt.natAbs = if 2 * x.toNat < 2 ^ n then x.toNat else 2 ^ n - x.toNat := by
  have hlt := x.isLt
  rw [BitVec.toInt_eq_toNat_cond]
  split <;> omega

theorem mag16_eq (b0 b1 : Byte) :
    mag16 b0 b1 = if b0.toNat + 256 * b1.toNat < 0x8000 then b0.toNat + 256 * b1.toNat
      else 0x10000 - (b0.toNat + 256 * b1.toNat) := by
  have hnum : (b1 ++ b0).toNat = b0.toNat + 256 * b1.toNat := by rw [toNat_append_eq]; ring
  rw [mag16, natAbs_toInt, hnum]
  exact if_congr (by omega) rfl rfl

theorem mag24_eq (b0 b1 b2 : Byte) :
    mag24 b0 b1 b2 = if b0.toNat + 256 * b1.toNat + 65536 * b2.toNat > 0x7FFFFF
      then 0x1000000 - (b0.toNat + 256 * b1.toNat + 65536 * b2.toNat)
      else b0.toNat + 256 * b1.toNat + 65536 * b2.toNat := by
  have hnum : (b2 ++ b1 ++ b0).toNat = b0.toNat + 256 * b1.toNat + 65536 * b2.toNat := by
    simp only [toNat_append_eq]
    ring
  rw [mag24, hnum]

/-- The bytes of a sample lie inside a buffer of the announced length (R52, R71). -/
theorem sampleOffset_add_lt {g : GlobalCfg} {c f j : Nat} (hc : c < g.nch.toNat)
    (hf : f < g.bufFrames.toNat) (hj : j < sampleBytes g.format) : sampleOffset g c f + j < bufferBytes g := by
  have hindex : f * g.nch.toNat + c < g.bufFrames.toNat * g.nch.toNat := by
    rw [mul_comm f]
    exact Nat.mul_add_lt_mul_of_lt_of_lt hf hc
  rw [sampleOffset, mul_comm]
  exact Nat.mul_add_lt_mul_of_lt_of_lt hindex hj

theorem getElem?_sample {g : GlobalCfg} {buf : List Byte} {c f j : Nat} (hc : c < g.nch.toNat)
    (hf : f < g.bufFrames.toNat) (hlen : buf.length = bufferBytes g) (hj : j < sampleBytes g.format) :
    buf[sampleOffset g c f + j]? = some (byteAt buf (sampleOffset g c f + j)) := by
  have hlt : sampleOffset g c f + j < buf.length := hlen ▸ sampleOffset_add_lt hc hf hj
  rw [byteAt, List.getD_eq_getElem _ _ hlt, List.getElem?_eq_getElem hlt]

end Sys2Proof.Machine
end

section
/-! SUPPORT. 40_decoder.md R99 to R101: what a search and a running maximum over a range of frames find. -/

namespace Sys2Proof.Machine

/-- The search is the library's, over the frames `lo` to `lo + n - 1` (R100). -/
theorem findCrossing_eq_find? (g : GlobalCfg) (buf : List Byte) (c thr lo n : Nat) :
    findCrossing g buf c thr lo n = (List.range' lo n).find? (fun f => thr < mag g buf c f) := by
  induction n generalizing lo with
  | zero => rfl
  | succ n ih =>
    rw [findCrossing, List.range'_succ, List.find?_cons, ih]
    by_cases h : thr < mag g buf c lo <;> simp [h]

theorem findCrossing_eq_some_iff {g : GlobalCfg} {buf : List Byte} {c thr lo n f : Nat} :
    findCrossing g buf c thr lo n = some f ↔
      lo ≤ f ∧ f < lo + n ∧ thr < mag g buf c f ∧ ∀ j, lo ≤ j → j < f → mag g buf c j ≤ thr := by
  rw [findCrossing_eq_find?, List.find?_range'_eq_some]
  simp only [List.mem_range'_1, decide_eq_true_eq, Bool.not_eq_true', decide_eq_false_iff_not, not_lt]
  tauto

theorem findCrossing_eq_none_iff {g : GlobalCfg} {buf : List Byte} {c thr lo n : Nat} :
    findCrossing g buf c thr lo n = none ↔ ∀ j, lo ≤ j → j < lo + n → mag g buf c j ≤ thr := by
  rw [findCrossing_eq_find?, List.find?_range'_eq_none]
  simp

/-- The running peak already holds the magnitude of a frame once the fold has passed it (R101). -/
theorem mag_le_subSpanPeak {g : GlobalCfg} {buf : List Byte} {c lo n f : Nat} (run : Nat) (hlo : lo ≤ f)
    (hhi : f < lo + n) : mag g buf c f ≤ subSpanPeak g buf c lo n run := by
  induction n generalizing lo run with
  | zero => omega
  | succ n ih =>
    rw [subSpanPeak]
    rcases hlo.eq_or_lt with rfl | hlt
    · exact (le_max_right run _).trans (le_subSpanPeak ..)
    · exact ih _ hlt (by omega)

theorem subSpanPeak_attained (g : GlobalCfg) (buf : List Byte) (c lo n run : Nat) :
    subSpanPeak g buf c lo n run = run ∨
      ∃ f, lo ≤ f ∧ f < lo + n ∧ mag g buf c f = subSpanPeak g buf c lo n run := by
  induction n generalizing lo run with
  | zero => exact .inl rfl
  | succ n ih =>
    rw [subSpanPeak]
    rcases ih (lo + 1) (max run (mag g buf c lo)) with hmax | ⟨f, hlo, hhi, hpeak⟩
    · rw [hmax]
      rcases max_choice run (mag g buf c lo) with hrun | hmag
      · exact .inl hrun
      · exact .inr ⟨lo, le_rfl, by omega, hmag.symm⟩
    · exact .inr ⟨f, by omega, by omega, hpeak⟩

theorem mag_le_bufferPeak {g : GlobalCfg} {f : Nat} (buf : List Byte) (c : Nat) (hf : f < g.bufFrames.toNat) :
    mag g buf c f ≤ bufferPeak g buf c :=
  mag_le_subSpanPeak 0 (Nat.zero_le f) (by omega)

/-- A buffer of at least one frame has a frame of the peak's magnitude: where the fold stays at its start 0,
frame 0 has magnitude 0 (R99). -/
theorem bufferPeak_attained {g : GlobalCfg} (buf : List Byte) (c : Nat) (hn : 1 ≤ g.bufFrames.toNat) :
    ∃ f < g.bufFrames.toNat, mag g buf c f = bufferPeak g buf c := by
  rcases subSpanPeak_attained g buf c 0 g.bufFrames.toNat 0 with hzero | ⟨f, -, hhi, hpeak⟩
  · have hpeak : bufferPeak g buf c = 0 := hzero
    have hfirst := mag_le_bufferPeak buf c hn
    exact ⟨0, hn, by omega⟩
  · exact ⟨f, by omega, hpeak⟩

end Sys2Proof.Machine
end

section
/-! The statements of 40_decoder.md. -/

open Sys2Proof Sys2Proof.Machine

/-- Settles O32: the bound is `mag_le`, and the most negative sample lies on it. -/
theorem magnitudesAreBounded : Obligations.MagnitudesAreBounded :=
  ⟨rfl, rfl, mag_le⟩

/-- Settles O33: the sample's bytes lie inside the buffer (`getElem?_sample`), and the magnitude is read off
them in either format. -/
theorem sampleLayout : Obligations.SampleLayout := by
  intro g buf c f hc hf hlen
  have hbyte {j : Nat} := getElem?_sample (j := j) hc hf hlen
  refine ⟨fun hfmt => ?_, fun hfmt => ?_⟩
  · have hsize : sampleBytes g.format = 2 := if_pos hfmt
    rw [sampleOffset, hsize] at hbyte
    refine ⟨_, _, hbyte (j := 0) (by omega), hbyte (j := 1) (by omega), ?_⟩
    rw [mag, if_pos hfmt, sampleOffset, hsize]
    rfl
  · have hne : g.format ≠ 0 := by rw [hfmt]; decide
    have hsize : sampleBytes g.format = 3 := if_neg hne
    rw [sampleOffset, hsize] at hbyte
    refine ⟨_, _, _, hbyte (j := 0) (by omega), hbyte (j := 1) (by omega), hbyte (j := 2) (by omega), ?_⟩
    rw [mag, if_neg hne, sampleOffset, hsize]
    rfl

/-- Settles O34: the fold passes every frame, and starts at 0, which no magnitude is below. -/
theorem bufferPeakIsTheMaximum : Obligations.BufferPeakIsTheMaximum :=
  fun _ buf c hn => ⟨bufferPeak_attained buf c hn, fun _ hf => mag_le_bufferPeak buf c hf⟩

/-- Settles O35: the search is `List.find?` over the frames of the range (`findCrossing_eq_find?`). -/
theorem findCrossingIsTheFirst : Obligations.FindCrossingIsTheFirst :=
  fun _ _ _ _ _ _ => ⟨fun _ => findCrossing_eq_some_iff, findCrossing_eq_none_iff⟩

/-- Settles O36: by induction on the length of the range (`mag_le_subSpanPeak`, `subSpanPeak_attained`). -/
theorem subSpanPeakFoldsTheMaximum : Obligations.SubSpanPeakFoldsTheMaximum :=
  fun g buf c lo n run => ⟨rfl, le_subSpanPeak g buf c lo n run, fun _ => mag_le_subSpanPeak run,
    subSpanPeak_attained g buf c lo n run⟩

/-- Settles O30: the two ranges of `mag16_eq`, and its value at the corner cases. -/
theorem mag16IsAbsoluteValue : Obligations.Mag16IsAbsoluteValue :=
  ⟨fun b0 b1 => ⟨fun hlt => (mag16_eq b0 b1).trans (if_pos hlt),
    fun hle => (mag16_eq b0 b1).trans (if_neg (not_lt.2 hle))⟩, rfl, rfl, rfl, rfl, rfl⟩

/-- Settles O31: the number `mag24` assembles is the little-endian sum of its bytes (`mag24_eq`). -/
theorem mag24IsManualNegation : Obligations.Mag24IsManualNegation :=
  mag24_eq

end

section
/-! SUPPORT. 41_envelope_decay.md R113 to R121: the branch each phase of strategy A selects, and that branch's
step as one equation. -/

namespace Sys2Proof.Machine

variable {k : ChanCfg} {p : Nat} {l : Lane}

theorem envBranch_of_rising (fmt : BitVec 1) (h : l.st.rising = true) :
    envBranch fmt k p l = envRising fmt k p l :=
  if_pos h

theorem envBranch_of_waiting (fmt : BitVec 1) (hrising : l.st.rising = false) (hwait : l.st.wait ≠ 0) :
    envBranch fmt k p l = envWaiting l := by
  have hwaiting : l.st.isWaiting = true := by simpa [ChanState.isWaiting, hrising] using hwait
  rw [envBranch, if_neg (by simp [hrising]), if_pos hwaiting]

theorem envBranch_of_idle (fmt : BitVec 1) (hrising : l.st.rising = false) (hwait : l.st.wait = 0) :
    envBranch fmt k p l = envIdle k p l := by
  have hwaiting : ¬l.st.isWaiting = true := by simp [ChanState.isWaiting, hwait]
  rw [envBranch, if_neg (by simp [hrising]), if_neg hwaiting]

/-- The compare sets `rising` to its own outcome, since IDLE is not rising (R114), and the decay follows it in
either case (R115). -/
theorem envIdle_eq (hrising : l.st.rising = false) :
    envIdle k p l =
      ⟨{ l.st with
          rising := exceedsEnvelope k l.st p
          riseCount := if exceedsEnvelope k l.st p then 0 else l.st.riseCount
          env := decayEnvelope k l.st.env }, l.msgs⟩ := by
  unfold envIdle
  cases exceedsEnvelope k l.st p with
  | true => rfl
  | false => simp only [Bool.false_eq_true, if_false, hrising]

/-- The count comes before the test, which does not read it (R116, R117). -/
theorem envRising_of_fallEdge (fmt : BitVec 1) (h : fallEdge k l.st p = true) :
    envRising fmt k p l =
      envFall fmt k { l with st := { l.st with riseCount := countRise l.st.riseCount } } :=
  if_pos h

theorem envRising_of_not_fallEdge (fmt : BitVec 1) (h : ¬fallEdge k l.st p = true) :
    envRising fmt k p l = { l with st := { l.st with riseCount := countRise l.st.riseCount } } :=
  if_neg h

/-- A count that is not 0 does not wrap when one is taken off. -/
theorem toNat_sub_one {w : BitVec 32} (h : w ≠ 0) : (w - 1).toNat + 1 = w.toNat := by
  have hpos : w.toNat ≠ 0 := fun h0 => h (BitVec.eq_of_toNat_eq h0)
  bv_omega

/-- `MAX(FORMAT)` as an integer (00_scope.md R7). -/
theorem maxMag_intCast (fmt : BitVec 1) : (maxMag fmt : Int) = if fmt = 0 then 0x7FFF else 0x7FFFFF :=
  Nat.cast_ite _ _ _

end Sys2Proof.Machine
end

section
/-! SUPPORT. 41_envelope_decay.md R119: strategy A's velocity as a function of the peak two buffers ago. -/

namespace Sys2Proof.Machine

variable {fmt : BitVec 1} {k : ChanCfg} {st : ChanState}

/-- Division toward zero keeps the order, so bounds on the peak bound the velocity. -/
theorem velocityA_bounds {lo hi : Int} (htrig : k.trig.toNat < maxMag fmt) (hlo : lo ≤ st.prev2.toNat)
    (hhi : (st.prev2.toNat : Int) ≤ hi) :
    1 + Int.tdiv (126 * (lo - k.trig.toNat)) (maxMag fmt - k.trig.toNat) ≤ velocityA fmt k st ∧
      velocityA fmt k st ≤ 1 + Int.tdiv (126 * (hi - k.trig.toNat)) (maxMag fmt - k.trig.toNat) := by
  have hspan : (0 : Int) < maxMag fmt - k.trig.toNat := by omega
  exact ⟨add_le_add_right (Int.tdiv_le_tdiv hspan (by omega)) 1,
    add_le_add_right (Int.tdiv_le_tdiv hspan (by omega)) 1⟩

theorem velocityA_of_prev2_eq_trig (h : st.prev2.toNat = k.trig.toNat) : velocityA fmt k st = 1 := by
  simp [velocityA, h]

theorem velocityA_of_prev2_eq_max (htrig : k.trig.toNat < maxMag fmt) (h : st.prev2.toNat = maxMag fmt) :
    velocityA fmt k st = 127 := by
  have hspan : (maxMag fmt : Int) - k.trig.toNat ≠ 0 := by omega
  rw [velocityA, h, Int.mul_tdiv_cancel _ hspan]
  rfl

end Sys2Proof.Machine
end

section
/-! SUPPORT. 40_decoder.md R98 to R100: an all-zero buffer has no magnitude above 0. -/

namespace Sys2Proof.Machine

variable {buf : List Byte}

theorem byteAt_of_silent (h : ∀ b ∈ buf, b = 0) (a : Nat) : byteAt buf a = 0 := by
  rw [byteAt, List.getD_eq_getElem?_getD]
  cases hbyte : buf[a]? with
  | none => rfl
  | some b => exact h b (List.mem_of_getElem? hbyte)

theorem mag_of_silent (g : GlobalCfg) (h : ∀ b ∈ buf, b = 0) (c f : Nat) : mag g buf c f = 0 := by
  simp only [mag, byteAt_of_silent h]
  exact ite_self 0

theorem bufferPeak_of_silent (g : GlobalCfg) (h : ∀ b ∈ buf, b = 0) (c : Nat) : bufferPeak g buf c = 0 := by
  rcases subSpanPeak_attained g buf c 0 g.bufFrames.toNat 0 with hzero | ⟨f, -, -, hpeak⟩
  · exact hzero
  · exact hpeak.symm.trans (mag_of_silent g h c f)

theorem findCrossing_of_silent (g : GlobalCfg) (h : ∀ b ∈ buf, b = 0) (c thr lo n : Nat) :
    findCrossing g buf c thr lo n = none :=
  findCrossing_eq_none_iff.2 fun j _ _ => (mag_of_silent g h c j).trans_le (Nat.zero_le thr)

end Sys2Proof.Machine
end

section
/-! SUPPORT. 00_scope.md R10: the binary64 facts silence turns on. A sum of two data without a minus sign has
none, and is not below +0.0; a zero times a finite factor is a zero, and below 1.0. -/

namespace Sys2Proof

theorem F64.place_nonneg {a : F64} (h : a.negative = false) : 0 ≤ a.place := by
  cases a with
  | fin n e f => obtain rfl : n = false := h; exact Int.natCast_nonneg _
  | inf n => obtain rfl : n = false := h; exact Int.natCast_nonneg _
  | nan => exact le_rfl

theorem F64.flt_posZero_of_not_negative {a : F64} (h : a.negative = false) : flt a F64.posZero = false := by
  have hplace : ¬a.place < F64.posZero.place := (F64.place_nonneg h).not_gt
  simp only [flt, hplace, decide_false, Bool.and_false]

theorem F64.ofSum_natCast_not_negative (n : Nat) : (F64.ofSum false n).negative = false := by
  unfold F64.ofSum
  split
  · rfl
  · rw [F64.round_negative]
    exact decide_eq_false (Int.natCast_nonneg n).not_gt

theorem F64.fadd_not_negative {a b : F64} (ha : a.negative = false) (hb : b.negative = false) :
    (fadd a b).negative = false := by
  cases a with
  | nan => rfl
  | fin n e f =>
    obtain rfl : n = false := ha
    cases b with
    | nan => rfl
    | fin n' e' f' =>
      obtain rfl : n' = false := hb
      exact F64.ofSum_natCast_not_negative (F64.units e f + F64.units e' f')
    | inf n' => exact hb
  | inf n =>
    obtain rfl : n = false := ha
    cases b with
    | nan => rfl
    | fin n' e' f' => rfl
    | inf n' => obtain rfl : n' = false := hb; rfl

theorem F64.f64_natCast_not_negative (n : Nat) : (f64 n).negative = false := by
  rw [f64, F64.round_negative]
  exact decide_eq_false (Int.natCast_nonneg n).not_gt

theorem F64.round_zero (neg : Bool) (d : Nat) : F64.round neg 0 d = .fin neg 0 0 := by
  have hdropped : F64.dropped 0 d = 0 := by simp [F64.dropped]
  have hnearest : F64.nearestEven 0 d = 0 := by simp [F64.nearestEven]
  rw [F64.round, hdropped, add_zero, hnearest]
  rfl

theorem F64.f64_zero : f64 0 = F64.posZero := by
  rw [f64, Int.natAbs_zero, Nat.mul_zero, F64.round_zero]
  rfl

/-- The sign of the product is that of the factor (R10). -/
theorem F64.fmul_posZero_fin (n : Bool) (e : Fin 2047) (f : BitVec 52) :
    fmul F64.posZero (.fin n e f) = .fin n 0 0 := by
  have hunits : F64.units 0 0 * F64.units e f = 0 := Nat.zero_mul _
  rw [F64.posZero, fmul, hunits, F64.round_zero, Bool.false_bne]

/-- A finite pattern is a finite datum (30_encoding.md R73). -/
theorem FiniteNonneg.exists_fin {b : BitVec 64} (h : FiniteNonneg b) : ∃ n e f, F64.ofBits b = .fin n e f := by
  obtain ⟨hexp, -⟩ := h
  have hlt : b.toNat / 2 ^ 52 % 2 ^ 11 < 2047 := by omega
  exact ⟨_, _, _, F64.ofBits_of_exp_lt b hlt⟩

end Sys2Proof
end

section
/-! SUPPORT. 41_envelope_decay.md R122, 42_peak_window.md R137 and 43_scheduler.md R153: what the parts of one
channel's work do in silence. -/

namespace Sys2Proof.Machine

variable {g : GlobalCfg} {k : ChanCfg} {buf : List Byte} {l : Lane}

/-- The tick as one equation: it counts down to 0 and no further, and sends the note-off on the step from 1
to 0. -/
theorem tickNoteOff_eq (k : ChanCfg) (l : Lane) :
    ∃ n : BitVec 32, n.toNat = l.st.noff.toNat - 1 ∧
      tickNoteOff k l = ⟨{ l.st with noff := n },
        l.msgs ++ if l.st.noff.toNat = 1 then [noteOffMsg k] else []⟩ := by
  rcases tickNoteOff_cases k l with ⟨hcount, heq⟩ | ⟨hcount, heq⟩ | ⟨hcount, hpred, heq⟩
  · exact ⟨l.st.noff, by omega, by rw [heq, if_neg (by omega), List.append_nil]⟩
  · exact ⟨0, by rw [hcount]; rfl, by rw [heq, if_pos hcount]⟩
  · exact ⟨l.st.noff - 1, by omega, by rw [heq, if_neg (by omega), List.append_nil]⟩

/-- A peak of 0 is not above any trigger level, nor is it below `T + 0` (R114). -/
theorem exceedsEnvelope_zero {st : ChanState} (henv : st.env = F64.posZero) :
    exceedsEnvelope k st 0 = false := by
  have hlevel : (fadd (f64 k.trig.toNat) st.env).negative = false := by
    rw [henv]
    exact F64.fadd_not_negative (F64.f64_natCast_not_negative _) rfl
  rw [exceedsEnvelope, Nat.cast_zero, F64.f64_zero]
  exact F64.flt_posZero_of_not_negative hlevel

/-- The product is a zero, which snaps to +0.0 whatever its sign (R115). -/
theorem decayEnvelope_posZero (h : FiniteNonneg k.decay) : decayEnvelope k F64.posZero = F64.posZero := by
  obtain ⟨n, e, f, hdecay⟩ := h.exists_fin
  obtain ⟨-, hnumbers, -⟩ := comparisonsAreIeee
  have hsnap : flt (fmul F64.posZero (F64.ofBits k.decay)) F64.one = true := by
    rw [hdecay, F64.fmul_posZero_fin]
    exact (hnumbers _ _ 0 1 (F64.zero_value n) F64.one_value).2 one_pos
  exact if_pos hsnap

/-- R122, 4: only the peak history moves. -/
theorem envStep_of_silent (hbuf : ∀ b ∈ buf, b = 0) (c : Nat) (hrising : l.st.rising = false)
    (hwait : l.st.wait = 0) (henv : l.st.env = F64.posZero) (hdecay : FiniteNonneg k.decay) :
    envStep g k buf c l = ⟨{ l.st with prev2 := l.st.prev, prev := 0 }, l.msgs⟩ := by
  have hidle : envIdle k 0 l = l := by
    rw [envIdle_eq hrising, exceedsEnvelope_zero henv, henv, decayEnvelope_posZero hdecay,
      if_neg Bool.false_ne_true, ← hrising, ← henv]
  rw [envStep, bufferPeak_of_silent g hbuf, envStepWith, envBranch_of_idle _ hrising hwait, hidle]
  rfl

theorem pwLoop_of_consumed {c : Nat} {x : Scan} (fuel : Nat) (h : ¬x.pos < g.bufFrames.toNat) :
    pwLoop g k buf c fuel x = x := by
  cases fuel with
  | zero => rfl
  | succ fuel => exact if_neg h

/-- IDLE consumes a buffer without a crossing in one pass (42_peak_window.md R132). -/
theorem pwPass_of_no_crossing {c : Nat} {x : Scan} (hphase : x.lane.st.phase = .idle)
    (h : findCrossing g buf c k.trig.toNat x.pos (g.bufFrames.toNat - x.pos) = none) :
    pwPass g k buf c x = { x with pos := g.bufFrames.toNat } := by
  simp only [pwPass, hphase, pwIdle, h]

/-- R137, 4: the one pass over the buffer, if it has a frame, leaves the lane alone. -/
theorem pwStep_of_silent (hbuf : ∀ b ∈ buf, b = 0) (c : Nat) (hphase : l.st.phase = .idle) :
    pwStep g k buf c l = l := by
  rw [pwStep, pwPasses, pwLoop]
  split
  · rw [pwPass_of_no_crossing hphase (findCrossing_of_silent g hbuf ..), pwLoop_of_consumed _ (lt_irrefl _)]
  · rfl

end Sys2Proof.Machine
end

section
/-! The statements of 41_envelope_decay.md. -/

open Sys2Proof Sys2Proof.Machine

/-- Settles O40: the IDLE branch (`envIdle_eq`), then the shift. -/
theorem envIdleStep : Obligations.EnvIdleStep := by
  intro fmt k p l hrising hwait
  rw [envStepWith, envBranch_of_idle fmt hrising hwait, envIdle_eq hrising]
  rfl

/-- Settles O41: the count is not 0 in WAITING, so it does not wrap (`toNat_sub_one`). -/
theorem envWaitingStep : Obligations.EnvWaitingStep := by
  intro fmt k p l hrising hwait
  refine ⟨l.st.wait - 1, toNat_sub_one hwait, ?_⟩
  rw [envStepWith, envBranch_of_waiting fmt hrising hwait]
  rfl

/-- Settles O42: without a fall edge RISING only counts (`countRise_toNat`). -/
theorem envRisingStep : Obligations.EnvRisingStep := by
  intro fmt k p l hrising hfall
  refine ⟨countRise l.st.riseCount, countRise_toNat _, ?_⟩
  rw [← fallEdge_iff] at hfall
  rw [envStepWith, envBranch_of_rising fmt hrising, envRising_of_not_fallEdge fmt hfall]
  rfl

/-- Settles O43: the fall edge's six steps (`envFall_eq`) after the count, then the shift. -/
theorem envFallEdgeStep : Obligations.EnvFallEdgeStep := by
  intro fmt k p l hrising hfall hconfirmed
  refine ⟨countRise l.st.riseCount, countRise_toNat _, ?_⟩
  have hedge : fallEdge k l.st p = true := (fallEdge_iff k l.st p).2 ⟨hfall, hconfirmed⟩
  rw [envStepWith, envBranch_of_rising fmt hrising, envRising_of_fallEdge fmt hedge, envFall_eq,
    ← maxMag_intCast]
  rfl

/-- Settles O44: the velocity is monotone in the peak (`velocityA_bounds`), which lies in `0 .. M + 1`. -/
theorem velocityARange : Obligations.VelocityARange := by
  intro fmt k st
  dsimp only
  rw [← maxMag_intCast]
  intro hpos htrig hpeak
  have hlt : k.trig.toNat < maxMag fmt := Int.ofNat_lt.1 htrig
  have hmax := maxMag_succ_lt fmt
  have hprev2 := Int.natCast_nonneg st.prev2.toNat
  refine ⟨?_, fun h => velocityA_of_prev2_eq_trig (Int.ofNat_inj.1 h),
    fun h => velocityA_of_prev2_eq_max hlt (Int.ofNat_inj.1 h), by omega, by omega, by omega⟩
  have hbounds := velocityA_bounds hlt hprev2 hpeak
  rwa [zero_sub, mul_neg, ← neg_mul] at hbounds

/-- Settles O55: the tick (`tickNoteOff_eq`), then a detector that finds nothing (`envStep_of_silent`,
`pwStep_of_silent`). -/
theorem silenceChangesNothing : Obligations.SilenceChangesNothing := by
  intro g k buf c st hbuf
  obtain ⟨n, hn, htick⟩ := tickNoteOff_eq k ⟨st, []⟩
  refine ⟨n, hn, fun hA hrising hwait henv hdecay => ?_, fun hB hphase => ?_⟩
  · rw [channelStep, detect, if_pos hA, htick]
    exact envStep_of_silent hbuf c hrising hwait henv hdecay
  · have hne : g.strategy ≠ 0 := by rw [hB]; decide
    rw [channelStep, detect, if_neg hne, htick]
    exact pwStep_of_silent hbuf c hphase

end

section
/-! SUPPORT. 42_peak_window.md R132 to R135: what each handler of strategy B does, an equation per outcome. -/

namespace Sys2Proof.Machine

variable {g : GlobalCfg} {k : ChanCfg} {c : Nat} {x : Scan}

/-- The crossing is above the trigger level, so the fold that starts there keeps its magnitude (R133). -/
theorem pwPass_of_crossing {buf : List Byte} {f : Nat} (hphase : x.lane.st.phase = .idle)
    (h : findCrossing g buf c k.trig.toNat x.pos (g.bufFrames.toNat - x.pos) = some f) :
    pwPass g k buf c x =
      ⟨⟨{ x.lane.st with phase := .peak, acc := BitVec.ofNat 24 (mag g buf c f), cd := k.peakLen },
        x.lane.msgs⟩, f + 1⟩ := by
  obtain ⟨-, -, hcross⟩ := findCrossing_some h
  simp only [pwPass, hphase, pwIdle, h, max_eq_right hcross.le]

/-- A fold that starts from an accumulator fits one, and so any wider vector (R134). -/
theorem toNat_ofNat_subSpanPeak {w : Nat} (hw : 24 ≤ w) (g : GlobalCfg) (buf : List Byte) (c lo n : Nat)
    (acc : BitVec 24) :
    (BitVec.ofNat w (subSpanPeak g buf c lo n acc.toNat)).toNat = subSpanPeak g buf c lo n acc.toNat := by
  have hfits : subSpanPeak g buf c lo n acc.toNat < 2 ^ 24 := by
    rcases subSpanPeak_attained g buf c lo n acc.toNat with hrun | ⟨f, -, -, hpeak⟩
    · exact hrun.trans_lt acc.isLt
    · exact hpeak ▸ (mag_le g buf c f).trans_lt (maxMag_succ_lt g.format)
  rw [BitVec.toNat_ofNat, Nat.mod_eq_of_lt (hfits.trans_le (Nat.pow_le_pow_right two_pos hw))]

/-- The end of the window is read off the countdown after the scan (R134). -/
theorem pwPass_of_peak (buf : List Byte) (hphase : x.lane.st.phase = .peak) :
    pwPass g k buf c x =
      if x.lane.st.cd - BitVec.ofNat 32 (peakSpan g x) = 0 then
        ⟨peakDone g.format k (peakScan g buf c x).lane, x.pos + peakSpan g x⟩
      else peakScan g buf c x := by
  simp only [pwPass, hphase]
  rfl

/-- A whole buffer's frames come off a countdown that holds them (R135). -/
theorem waitCount_toNat {cd n : BitVec 32} (h : n.toNat ≤ cd.toNat) : (cd - n).toNat + n.toNat = cd.toNat := by
  rw [BitVec.toNat_sub_of_le h]
  omega

/-- WAIT above a whole buffer takes the buffer (R135). -/
theorem pwPass_of_wait_gt (k : ChanCfg) (buf : List Byte) (c : Nat) (hphase : x.lane.st.phase = .wait)
    (hcd : x.lane.st.cd.toNat < 2 ^ 31) (hN : g.bufFrames.toNat ≤ 2 ^ 24)
    (h : g.bufFrames.toNat < x.lane.st.cd.toNat) :
    pwPass g k buf c x =
      ⟨⟨{ x.lane.st with cd := x.lane.st.cd - g.bufFrames }, x.lane.msgs⟩, g.bufFrames.toNat⟩ := by
  have hcount := waitCount_toInt _ _ hcd hN
  simp only [pwPass, hphase, pwWait]
  rw [if_neg (by omega)]

/-- WAIT up to a whole buffer ends at the frame its countdown names, never before `pos` (R135). -/
theorem pwPass_of_wait_le (k : ChanCfg) (buf : List Byte) (c : Nat) (hphase : x.lane.st.phase = .wait)
    (hcd : x.lane.st.cd.toNat < 2 ^ 31) (hN : g.bufFrames.toNat ≤ 2 ^ 24)
    (h : x.lane.st.cd.toNat ≤ g.bufFrames.toNat) :
    pwPass g k buf c x =
      ⟨⟨{ x.lane.st with phase := .idle, cd := 0 }, x.lane.msgs⟩, max x.pos x.lane.st.cd.toNat⟩ := by
  have hcount := waitCount_toInt _ _ hcd hN
  have hresume : ((g.bufFrames.toNat : Int) + (x.lane.st.cd - g.bufFrames).toInt).toNat =
      x.lane.st.cd.toNat := by omega
  simp only [pwPass, hphase, pwWait]
  rw [if_pos (by omega), hresume]

end Sys2Proof.Machine
end

section
/-! SUPPORT. 42_peak_window.md R136: every pass either ends the buffer or uses up one of a bounded number. -/

namespace Sys2Proof.Machine

variable {g : GlobalCfg} {k : ChanCfg} {x : Scan}

/-- The passes a phase takes back to IDLE where no frame is consumed. -/
def Phase.passesToIdle : Phase → Nat
  | .idle => 0
  | .wait => 1
  | .peak => 2

/-- The passes still allowed: a round IDLE, PEAK, WAIT consumes a frame, so each frame left pays for
three. -/
def passesLeft (g : GlobalCfg) (x : Scan) : Nat :=
  3 * (g.bufFrames.toNat - x.pos) + x.lane.st.phase.passesToIdle

theorem Phase.passesToIdle_le (p : Phase) : p.passesToIdle ≤ 2 := by
  cases p <;> decide

/-- The fuel of the dispatch loop is enough from every cursor and phase. -/
theorem passesLeft_le (x : Scan) : passesLeft g x ≤ pwPasses g := by
  have hphase := x.lane.st.phase.passesToIdle_le
  rw [passesLeft, pwPasses]
  omega

/-- The cursor is inside the buffer and the countdown is not negative (10_state.md R45). -/
structure ScanOk (g : GlobalCfg) (x : Scan) : Prop where
  pos_le : x.pos ≤ g.bufFrames.toNat
  cd_lt : x.lane.st.cd.toNat < 2 ^ 31

/-- One pass that keeps the scan sound and uses up at least one of the passes left. -/
def PassProgress (g : GlobalCfg) (x x' : Scan) : Prop :=
  ScanOk g x' ∧ passesLeft g x' < passesLeft g x

/-- A pass that reaches the end of the buffer and stays in its phase. -/
theorem PassProgress.of_consumed {x' : Scan} (hpos : x.pos < g.bufFrames.toNat)
    (hend : x'.pos = g.bufFrames.toNat) (hphase : x'.lane.st.phase = x.lane.st.phase)
    (hcd : x'.lane.st.cd.toNat < 2 ^ 31) : PassProgress g x x' :=
  ⟨⟨hend.le, hcd⟩, by rw [passesLeft, passesLeft, hend, hphase]; omega⟩

theorem pwPass_progress_of_idle (buf : List Byte) (c : Nat) (hpeak : k.peakLen.toNat < 2 ^ 31)
    (h : ScanOk g x) (hpos : x.pos < g.bufFrames.toNat) (hphase : x.lane.st.phase = .idle) :
    PassProgress g x (pwPass g k buf c x) := by
  cases hf : findCrossing g buf c k.trig.toNat x.pos (g.bufFrames.toNat - x.pos) with
  | none =>
    rw [pwPass_of_no_crossing hphase hf]
    exact .of_consumed hpos rfl rfl h.cd_lt
  | some f =>
    obtain ⟨hlo, hhi, -⟩ := findCrossing_some hf
    rw [pwPass_of_crossing hphase hf]
    refine ⟨⟨?_, hpeak⟩, ?_⟩
    · dsimp only
      omega
    · simp only [passesLeft, hphase, Phase.passesToIdle]
      omega

/-- PEAK goes on only at the end of the buffer, since it scans `min(cd, N - pos)` frames (R134). -/
theorem pwPass_progress_of_peak (buf : List Byte) (c : Nat) (hwait : k.waitLen.toNat < 2 ^ 31)
    (h : ScanOk g x) (hpos : x.pos < g.bufFrames.toNat) (hphase : x.lane.st.phase = .peak) :
    PassProgress g x (pwPass g k buf c x) := by
  have hspan := peakSpan_eq g x h.cd_lt
  have hcount := peakScan_cd g x h.cd_lt
  have hcd := h.cd_lt
  rw [pwPass_of_peak buf hphase]
  split
  · refine ⟨⟨?_, hwait⟩, ?_⟩
    · dsimp only [peakScan]
      omega
    · simp only [passesLeft, peakDone_eq, peakScan, hphase, Phase.passesToIdle]
      omega
  · next hgoing =>
    have hleft : (x.lane.st.cd - BitVec.ofNat 32 (peakSpan g x)).toNat ≠ 0 :=
      fun hzero => hgoing (BitVec.eq_of_toNat_eq hzero)
    refine .of_consumed hpos ?_ rfl ?_ <;> dsimp only [peakScan] <;> omega

theorem pwPass_progress_of_wait (k : ChanCfg) (buf : List Byte) (c : Nat)
    (hN : g.bufFrames.toNat ≤ 2 ^ 24) (h : ScanOk g x) (hpos : x.pos < g.bufFrames.toNat)
    (hphase : x.lane.st.phase = .wait) : PassProgress g x (pwPass g k buf c x) := by
  have hcd := h.cd_lt
  rcases lt_or_ge g.bufFrames.toNat x.lane.st.cd.toNat with hgt | hle
  · rw [pwPass_of_wait_gt k buf c hphase hcd hN hgt]
    have hcount := waitCount_toNat hgt.le
    refine .of_consumed hpos rfl rfl ?_
    dsimp only
    omega
  · rw [pwPass_of_wait_le k buf c hphase hcd hN hle]
    refine ⟨⟨max_le h.pos_le hle, Nat.two_pow_pos 31⟩, ?_⟩
    simp only [passesLeft, hphase, Phase.passesToIdle]
    omega

theorem pwPass_progress (buf : List Byte) (c : Nat) (hpeak : k.peakLen.toNat < 2 ^ 31)
    (hwait : k.waitLen.toNat < 2 ^ 31) (hN : g.bufFrames.toNat ≤ 2 ^ 24) (h : ScanOk g x)
    (hpos : x.pos < g.bufFrames.toNat) : PassProgress g x (pwPass g k buf c x) := by
  cases hphase : x.lane.st.phase with
  | idle => exact pwPass_progress_of_idle buf c hpeak h hpos hphase
  | peak => exact pwPass_progress_of_peak buf c hwait h hpos hphase
  | wait => exact pwPass_progress_of_wait k buf c hN h hpos hphase

/-- `m` passes start before the end of the buffer and end at it. -/
def ConsumedAfter (g : GlobalCfg) (k : ChanCfg) (buf : List Byte) (c m : Nat) (x : Scan) : Prop :=
  (∀ j < m, ((pwPass g k buf c)^[j] x).pos < g.bufFrames.toNat) ∧
    ((pwPass g k buf c)^[m] x).pos = g.bufFrames.toNat

theorem consumedAfter_succ_iff {buf : List Byte} {c m : Nat} :
    ConsumedAfter g k buf c (m + 1) x ↔
      x.pos < g.bufFrames.toNat ∧ ConsumedAfter g k buf c m (pwPass g k buf c x) := by
  simp only [ConsumedAfter, Nat.forall_lt_succ_left, Function.iterate_zero_apply,
    Function.iterate_succ_apply, and_assoc]

/-- R136: the passes left bound the passes a scan makes. -/
theorem exists_consumedAfter (buf : List Byte) (c : Nat) (hpeak : k.peakLen.toNat < 2 ^ 31)
    (hwait : k.waitLen.toNat < 2 ^ 31) (hN : g.bufFrames.toNat ≤ 2 ^ 24) (h : ScanOk g x) :
    ∃ m ≤ passesLeft g x, ConsumedAfter g k buf c m x := by
  induction hr : passesLeft g x using Nat.strong_induction_on generalizing x with
  | _ r ih =>
    rcases h.pos_le.lt_or_eq with hpos | hend
    · obtain ⟨hok, hless⟩ := pwPass_progress buf c hpeak hwait hN h hpos
      obtain ⟨m, hm, hconsumed⟩ := ih _ (hr ▸ hless) hok rfl
      exact ⟨m + 1, by omega, consumedAfter_succ_iff.2 ⟨hpos, hconsumed⟩⟩
    · exact ⟨0, Nat.zero_le r, nofun, hend⟩

/-- The loop with fuel enough stops where the passes first reach the end of the buffer (R131). -/
theorem pwLoop_of_consumedAfter {buf : List Byte} {c m fuel : Nat} (hfuel : m ≤ fuel)
    (h : ConsumedAfter g k buf c m x) : pwLoop g k buf c fuel x = (pwPass g k buf c)^[m] x := by
  induction m generalizing fuel x with
  | zero =>
    obtain ⟨-, hend⟩ := h
    exact pwLoop_of_consumed fuel hend.ge.not_gt
  | succ m ih =>
    obtain ⟨fuel, rfl⟩ := Nat.exists_eq_add_of_lt hfuel
    obtain ⟨hpos, hrest⟩ := consumedAfter_succ_iff.1 h
    rw [pwLoop, if_pos hpos, ih (by omega) hrest, Function.iterate_succ_apply]

theorem pwStep_of_consumedAfter {buf : List Byte} {c m : Nat} {l : Lane} (hm : m ≤ pwPasses g)
    (h : ConsumedAfter g k buf c m ⟨l, 0⟩) :
    pwStep g k buf c l = ((pwPass g k buf c)^[m] ⟨l, 0⟩).lane := by
  rw [pwStep, pwLoop_of_consumedAfter hm h]

end Sys2Proof.Machine
end

section
/-! SUPPORT. 42_peak_window.md R134: strategy B's velocity. -/

namespace Sys2Proof.Machine

/-- A bound on the velocity, with the floor division multiplied out. -/
theorem le_velocityB_iff {fmt : BitVec 1} {k : ChanCfg} {acc : BitVec 24} {v : Int}
    (htrig : k.trig.toNat < maxMag fmt) :
    v ≤ velocityB fmt k acc ↔
      (v - 1) * (maxMag fmt - k.trig.toNat) ≤ 126 * ((acc.toNat : Int) - k.trig.toNat) := by
  have hspan : (0 : Int) < maxMag fmt - k.trig.toNat := by omega
  rw [velocityB, Int.fdiv_eq_ediv_of_nonneg _ hspan.le, ← Int.le_ediv_iff_mul_le hspan,
    sub_le_iff_le_add']

end Sys2Proof.Machine
end

section
/-! The statements of 42_peak_window.md. -/

open Sys2Proof Sys2Proof.Machine

/-- Settles O46: the handler does what its search for a crossing answers (`pwPass_of_no_crossing`,
`pwPass_of_crossing`). -/
theorem pwIdleHandler : Obligations.PwIdleHandler := by
  intro g k buf c x hphase hpos
  refine ⟨fun hnone => ?_, fun f hlo hhi hcross hfirst => ?_⟩
  · exact pwPass_of_no_crossing hphase
      (findCrossing_eq_none_iff.2 fun j hj hj' => hnone j hj (by omega))
  · exact ⟨_, toNat_ofNat_of_le_maxMag (mag_le g buf c f), pwPass_of_crossing hphase
      (findCrossing_eq_some_iff.2 ⟨hlo, by omega, hcross, hfirst⟩)⟩

/-- Settles O47: the scan counts its frames exactly (`peakScan_cd`), and its fold fits the accumulator and
the statement's wider `a` alike (`toNat_ofNat_subSpanPeak`). -/
theorem pwPeakHandler : Obligations.PwPeakHandler := by
  intro g k buf c x hphase hpos hcd
  dsimp only
  rw [← peakSpan_eq g x hcd, ← maxMag_intCast]
  have hpeak {w : Nat} (hw : 24 ≤ w) :=
    toNat_ofNat_subSpanPeak hw g buf c x.pos (peakSpan g x) x.lane.st.acc
  refine ⟨BitVec.ofNat 32 _, _, hpeak (by decide), peakScan_cd g x hcd, fun hgoing => ?_, fun hdone => ?_⟩
  · rw [pwPass_of_peak buf hphase, if_neg hgoing, BitVec.setWidth_ofNat_of_le (by decide)]
    rfl
  · have hacc := (hpeak (w := 32) (by decide)).trans (hpeak le_rfl).symm
    rw [pwPass_of_peak buf hphase, if_pos hdone, BitVec.setWidth_ofNat_of_le (by decide), hacc]
    rfl

/-- Settles O48: the two outcomes of the countdown (`pwPass_of_wait_gt`, `pwPass_of_wait_le`). -/
theorem pwWaitHandler : Obligations.PwWaitHandler := by
  intro g k buf c x hphase hpos hcd hN
  exact ⟨fun hgt => ⟨_, waitCount_toNat hgt.le, pwPass_of_wait_gt k buf c hphase hcd hN hgt⟩,
    pwPass_of_wait_le k buf c hphase hcd hN⟩

/-- Settles O49: at the start at most `3N + 2` passes are left (`exists_consumedAfter`), so the fuel of
`3N + 3` does not run out. -/
theorem dispatchLoopTerminates : Obligations.DispatchLoopTerminates := by
  intro g k buf c l hcd hpeak hwait hN
  have hok : ScanOk g ⟨l, 0⟩ := ⟨Nat.zero_le _, toInt_nonneg_iff.1 hcd⟩
  obtain ⟨m, hm, hconsumed⟩ :=
    exists_consumedAfter buf c (toInt_nonneg_iff.1 hpeak) (toInt_nonneg_iff.1 hwait) hN hok
  have hfuel : m ≤ pwPasses g := hm.trans (passesLeft_le _)
  obtain ⟨hbefore, hend⟩ := hconsumed
  exact ⟨m, hfuel, hbefore, hend, pwStep_of_consumedAfter hfuel ⟨hbefore, hend⟩⟩

/-- Settles O50: each bound is linear once the division is multiplied out (`le_velocityB_iff`). -/
theorem velocityBRange : Obligations.VelocityBRange := by
  intro fmt k acc
  dsimp only
  rw [← maxMag_intCast]
  intro hpos htrig hacc
  have hbound (v : Int) := le_velocityB_iff (acc := acc) (v := v) (Int.ofNat_lt.1 htrig)
  have h1 := hbound 1
  have h127 := hbound 127
  have h128 := hbound 128
  omega

/-- Settles O51: the one pass is WAIT's, and it takes the whole buffer (`pwPass_of_wait_gt`). -/
theorem noNoteOnInsideWaitWindow : Obligations.NoNoteOnInsideWaitWindow := by
  intro g k buf c l hphase hframe hN hgt hcd
  have hpass := pwPass_of_wait_gt (x := ⟨l, 0⟩) k buf c hphase hcd hN hgt
  have hconsumed : ConsumedAfter g k buf c 1 ⟨l, 0⟩ :=
    consumedAfter_succ_iff.2 ⟨hframe, nofun, by rw [hpass]; rfl⟩
  refine ⟨_, waitCount_toNat hgt.le, ?_⟩
  rw [pwStep_of_consumedAfter (Nat.le_add_left 1 _) hconsumed, Function.iterate_one, hpass]

end

section
/-! SUPPORT. 43_scheduler.md R150 and R151: the bytes of the scheduler's two messages, with the masks and the
remainder of the rules. -/

namespace Sys2Proof.Machine

/-- Cutting a vector to its low `n` bits and widening it again is the mask of those bits. -/
theorem setWidth_setWidth_eq_and {n w : Nat} (x : BitVec w) (h : n ≤ w) :
    (x.setWidth n).setWidth w = x &&& BitVec.ofNat w (2 ^ n - 1) := by
  have hpow : 2 ^ n ≤ 2 ^ w := Nat.pow_le_pow_right two_pos h
  have hpos : 0 < 2 ^ n := Nat.two_pow_pos n
  have hcut : x.toNat % 2 ^ n < 2 ^ n := Nat.mod_lt _ hpos
  refine BitVec.eq_of_toNat_eq ?_
  rw [BitVec.toNat_and, BitVec.toNat_ofNat, Nat.mod_eq_of_lt (by omega), Nat.and_two_pow_sub_one_eq_mod,
    BitVec.toNat_setWidth, BitVec.toNat_setWidth, Nat.mod_eq_of_lt (by omega)]

/-- The message of `noteOn`, with the bytes of R150. -/
theorem noteOnMsg_eq (k : ChanCfg) (v : Int) :
    noteOnMsg k v =
      ⟨0x90 ||| (k.midiCh &&& 0x0F), k.note &&& 0x7F, (BitVec.ofInt 7 v).setWidth 8⟩ := by
  have hch : k.wireCh.setWidth 8 = k.midiCh &&& 0x0F := setWidth_setWidth_eq_and k.midiCh (by decide)
  have hnote : k.wireNote.setWidth 8 = k.note &&& 0x7F := setWidth_setWidth_eq_and k.note (by decide)
  rw [noteOnMsg, voiceMsg_eq, hch, hnote]

/-- The wire velocity is the remainder that is not negative, for a negative value too (R150). -/
theorem wireVelocity_toNat (v : Int) : (((BitVec.ofInt 7 v).setWidth 8).toNat : Int) = v % 128 := by
  rw [BitVec.toNat_setWidth, BitVec.toNat_ofInt]
  omega

/-- On the wire a note-off is a note-on with velocity 0 (30_encoding.md R83). -/
theorem noteOffMsg_eq_noteOnMsg_zero (k : ChanCfg) : noteOffMsg k = noteOnMsg k 0 := rfl

end Sys2Proof.Machine
end

section
/-! SUPPORT. 43_scheduler.md R152 to R154: a detector arms the timer only along with a note-on, so one that
sends nothing leaves the count as the tick left it. -/

namespace Sys2Proof.Machine

/-- The lane `l'` goes on from `l`: it keeps the messages sent, and where it sends no more, the note-off
count too. -/
def Lane.GoesOn (l l' : Lane) : Prop :=
  ∃ sent, l'.msgs = l.msgs ++ sent ∧ (sent = [] → l'.st.noff = l.st.noff)

theorem Lane.GoesOn.of_quiet {l l' : Lane} (hmsgs : l'.msgs = l.msgs) (hnoff : l'.st.noff = l.st.noff) :
    l.GoesOn l' :=
  ⟨[], by rw [hmsgs, List.append_nil], fun _ => hnoff⟩

theorem Lane.GoesOn.of_note {l l' : Lane} (before : List Msg) (m : Msg)
    (h : l'.msgs = l.msgs ++ (before ++ [m])) : l.GoesOn l' :=
  ⟨before ++ [m], h, fun hnone => absurd hnone (by simp)⟩

theorem Lane.GoesOn.trans {l l' l'' : Lane} (h : l.GoesOn l') (h' : l'.GoesOn l'') : l.GoesOn l'' := by
  obtain ⟨sent, hmsgs, hnoff⟩ := h
  obtain ⟨sent', hmsgs', hnoff'⟩ := h'
  refine ⟨sent ++ sent', by rw [hmsgs', hmsgs, List.append_assoc], fun hnone => ?_⟩
  obtain ⟨hnone, hnone'⟩ := List.append_eq_nil_iff.1 hnone
  rw [hnoff' hnone', hnoff hnone]

theorem Lane.GoesOn.noff_eq {l l' : Lane} (h : l.GoesOn l') (hmsgs : l'.msgs = l.msgs) :
    l'.st.noff = l.st.noff := by
  obtain ⟨sent, hsent, hnoff⟩ := h
  exact hnoff (List.append_right_eq_self.1 (hsent.symm.trans hmsgs))

variable {g : GlobalCfg} {k : ChanCfg} {st : ChanState}

/-- A fall edge arms the timer after its note-on (41_envelope_decay.md R118). -/
theorem envRising_goesOn (fmt : BitVec 1) (k : ChanCfg) (p : Nat) (l : Lane) :
    l.GoesOn (envRising fmt k p l) := by
  unfold envRising
  dsimp only
  split
  · rw [envFall_eq]
    exact .of_note _ _ (List.append_assoc _ _ _)
  · exact .of_quiet rfl rfl

theorem envIdle_goesOn (k : ChanCfg) (p : Nat) (l : Lane) : l.GoesOn (envIdle k p l) := by
  refine .of_quiet rfl ?_
  simp only [envIdle]
  split <;> rfl

theorem envBranch_goesOn (fmt : BitVec 1) (k : ChanCfg) (p : Nat) (l : Lane) :
    l.GoesOn (envBranch fmt k p l) := by
  unfold envBranch
  split
  · exact envRising_goesOn fmt k p l
  · split
    · exact .of_quiet rfl rfl
    · exact envIdle_goesOn k p l

theorem envStep_goesOn (g : GlobalCfg) (k : ChanCfg) (buf : List Byte) (c : Nat) (l : Lane) :
    l.GoesOn (envStep g k buf c l) :=
  (envBranch_goesOn g.format k (bufferPeak g buf c) l).trans (.of_quiet rfl rfl)

/-- Of the handlers of strategy B only the end of a PEAK window arms the timer, after its note-on
(42_peak_window.md R134). -/
theorem pwPass_goesOn (g : GlobalCfg) (k : ChanCfg) (buf : List Byte) (c : Nat) (x : Scan) :
    x.lane.GoesOn (pwPass g k buf c x).lane := by
  unfold pwPass
  split
  · unfold pwIdle
    split
    · exact .of_quiet rfl rfl
    · exact .of_quiet rfl rfl
  · unfold pwPeak
    dsimp only
    split
    · rw [peakDone_eq]
      exact .of_note [] _ rfl
    · exact .of_quiet rfl rfl
  · unfold pwWait
    dsimp only
    split
    · exact .of_quiet rfl rfl
    · exact .of_quiet rfl rfl

theorem pwLoop_goesOn (g : GlobalCfg) (k : ChanCfg) (buf : List Byte) (c fuel : Nat) (x : Scan) :
    x.lane.GoesOn (pwLoop g k buf c fuel x).lane := by
  induction fuel generalizing x with
  | zero => exact .of_quiet rfl rfl
  | succ fuel ih =>
    unfold pwLoop
    split
    · exact (pwPass_goesOn g k buf c x).trans (ih _)
    · exact .of_quiet rfl rfl

/-- After the tick, whichever detector the run uses goes on from what the tick left. -/
theorem channelStep_goesOn (g : GlobalCfg) (k : ChanCfg) (buf : List Byte) (c : Nat) (st : ChanState) :
    (tickNoteOff k ⟨st, []⟩).GoesOn (channelStep g k buf c st) := by
  unfold channelStep detect
  split
  · exact envStep_goesOn g k buf c _
  · exact pwLoop_goesOn g k buf c (pwPasses g) ⟨_, 0⟩

theorem DetectorQuiet.noff_eq {c : Nat} {buf : List Byte} (h : DetectorQuiet g k c buf st) :
    (channelStep g k buf c st).st.noff = (tickNoteOff k ⟨st, []⟩).st.noff :=
  (channelStep_goesOn g k buf c st).noff_eq h

/-- A quiet buffer before the last takes one off the count and sends nothing. -/
theorem channelStep_of_quiet_of_two_le {c : Nat} {buf : List Byte} (hcount : 2 ≤ st.noff.toNat)
    (h : DetectorQuiet g k c buf st) :
    (channelStep g k buf c st).msgs = [] ∧
      (channelStep g k buf c st).st.noff.toNat + 1 = st.noff.toNat := by
  obtain ⟨n, hn, htick⟩ := tickNoteOff_eq k ⟨st, []⟩
  rw [h.noff_eq, h, htick]
  dsimp only at hn ⊢
  exact ⟨by rw [if_neg (by omega), List.append_nil], by omega⟩

/-- R154: the quiet buffers before the last send nothing and bring the count down to 1. -/
theorem channelRun_of_allQuiet {c : Nat} {early : List (List Byte)}
    (hcount : st.noff.toNat = early.length + 1) (h : AllQuiet g k c early st) :
    (channelRun g k c early st).msgs = [] ∧ (channelRun g k c early st).st.noff = 1 := by
  induction early generalizing st with
  | nil => exact ⟨rfl, BitVec.eq_of_toNat_eq hcount⟩
  | cons buf rest ih =>
    obtain ⟨hquiet, hrest⟩ := h
    rw [List.length_cons] at hcount
    obtain ⟨hmsgs, hpred⟩ := channelStep_of_quiet_of_two_le (by omega) hquiet
    obtain ⟨hmsgs', hnoff⟩ := ih (by omega) hrest
    exact ⟨by rw [channelRun, hmsgs, hmsgs', List.append_nil], hnoff⟩

/-- The tick of the buffer the count ends in. -/
theorem tickNoteOff_of_noff_one {l : Lane} (k : ChanCfg) (h : l.st.noff = 1) :
    tickNoteOff k l = ⟨{ l.st with noff := 0 }, l.msgs ++ [noteOffMsg k]⟩ := by
  have hcount : l.st.noff.toNat = 1 := by rw [h]; rfl
  rcases tickNoteOff_cases k l with ⟨hzero, -⟩ | ⟨-, heq⟩ | ⟨htwo, -⟩
  · omega
  · exact heq
  · omega

end Sys2Proof.Machine
end

section
/-! The statements of 43_scheduler.md. -/

open Sys2Proof Sys2Proof.Machine

/-- Settles O22: the bytes are those of `noteOnMsg_eq`, the velocity byte by `wireVelocity_toNat`. -/
theorem schedulerMessageBytes : Obligations.SchedulerMessageBytes := by
  intro k v l
  refine ⟨⟨_, wireVelocity_toNat v, ?_⟩, ?_⟩
  · rw [noteOn, noteOnMsg_eq]
  · rw [noteOff, noteOffMsg_eq_noteOnMsg_zero, noteOnMsg_eq]
    rfl

/-- Settles O53: the quiet buffers bring the count to 1 (`channelRun_of_allQuiet`), the tick of the next one
sends the note-off, and the detector only adds to it (`channelStep_goesOn`). -/
theorem noteOffFiresOncePerArm : Obligations.NoteOffFiresOncePerArm := by
  intro g k c st early last hcount hquiet
  obtain ⟨hmsgs, hnoff⟩ := channelRun_of_allQuiet hcount hquiet
  have htick := tickNoteOff_of_noff_one (l := ⟨(channelRun g k c early st).st, []⟩) k hnoff
  obtain ⟨more, hmore, hkept⟩ := channelStep_goesOn g k last c (channelRun g k c early st).st
  rw [htick] at hmore hkept
  refine ⟨hmsgs, hnoff, more, hmore, fun hlast => ?_⟩
  rw [DetectorQuiet, hmore, htick] at hlast
  have hnone : more = [] := List.append_right_eq_self.1 hlast
  exact ⟨hnone, hkept hnone⟩

/-- Settles O52: the three cases of the tick exclude each other (`tickNoteOff_cases`). -/
theorem noteOffTimerOperations : Obligations.NoteOffTimerOperations := by
  intro k d l
  rcases tickNoteOff_cases k l with ⟨hzero, heq⟩ | ⟨hone, heq⟩ | ⟨htwo, hpred, heq⟩
  · exact ⟨rfl, fun _ => heq, fun _ => by omega, fun _ => by omega⟩
  · exact ⟨rfl, fun _ => by omega, fun _ => heq, fun _ => by omega⟩
  · exact ⟨rfl, fun _ => by omega, fun _ => by omega, fun _ => ⟨_, hpred, heq⟩⟩

end

section
/-! SUPPORT. 44_buffer_step.md R168: how many messages each part of one channel's work can send in one buffer. -/

namespace Sys2Proof.Machine

variable {g : GlobalCfg} {k : ChanCfg}

/-- The tick sends at most its one note-off (43_scheduler.md R153). -/
theorem tickNoteOff_length_le (k : ChanCfg) (l : Lane) :
    (tickNoteOff k l).msgs.length ≤ l.msgs.length + 1 := by
  obtain ⟨n, -, htick⟩ := tickNoteOff_eq k l
  rw [htick, List.length_append]
  split <;> simp

/-- A fall edge sends its note-on, and before it at most the forced note-off (41_envelope_decay.md R118). -/
theorem envFall_length_le (fmt : BitVec 1) (k : ChanCfg) (l : Lane) :
    (envFall fmt k l).msgs.length ≤ l.msgs.length + 2 := by
  rw [envFall_eq, List.length_append, List.length_append]
  split <;> simp

/-- Of the phases of strategy A only RISING sends anything, on a fall edge. -/
theorem envBranch_length_le (fmt : BitVec 1) (k : ChanCfg) (p : Nat) (l : Lane) :
    (envBranch fmt k p l).msgs.length ≤ l.msgs.length + 2 := by
  unfold envBranch
  split
  · by_cases hfall : fallEdge k l.st p = true
    · rw [envRising_of_fallEdge fmt hfall]
      exact envFall_length_le fmt k _
    · rw [envRising_of_not_fallEdge fmt hfall]
      exact Nat.le_add_right _ 2
  · split
    · exact Nat.le_add_right _ 2
    · exact Nat.le_add_right _ 2

theorem envStep_length_le (g : GlobalCfg) (k : ChanCfg) (buf : List Byte) (c : Nat) (l : Lane) :
    (envStep g k buf c l).msgs.length ≤ l.msgs.length + 2 :=
  envBranch_length_le g.format k (bufferPeak g buf c) l

/-- The frames a phase consumes at least before a PEAK window can end: only IDLE opens one, on a crossing
frame (42_peak_window.md R132). -/
def Phase.framesToPeak : Phase → Nat
  | .idle => 1
  | .peak => 0
  | .wait => 1

/-- The note-ons strategy B can still send in this buffer: no two of its windows end at one cursor, since the
crossing that opens the second is a frame of its own. -/
def noteOnsLeft (g : GlobalCfg) (x : Scan) : Nat :=
  g.bufFrames.toNat - (x.pos + x.lane.st.phase.framesToPeak)

/-- The note-ons sent by the pass, and those left after it, were left before it. -/
def PassPays (g : GlobalCfg) (x x' : Scan) : Prop :=
  x'.lane.msgs.length + noteOnsLeft g x' ≤ x.lane.msgs.length + noteOnsLeft g x

/-- A pass that sends nothing, where the first frame a window could end at comes no earlier than before. -/
theorem PassPays.of_quiet {x x' : Scan} (hmsgs : x'.lane.msgs = x.lane.msgs)
    (hpos : x.pos + x.lane.st.phase.framesToPeak ≤ x'.pos + x'.lane.st.phase.framesToPeak) :
    PassPays g x x' := by
  rw [PassPays, hmsgs]
  exact Nat.add_le_add_left (Nat.sub_le_sub_left hpos _) _

theorem pwPass_pays_of_idle (buf : List Byte) (c : Nat) {x : Scan} (hpos : x.pos < g.bufFrames.toNat)
    (hphase : x.lane.st.phase = .idle) : PassPays g x (pwPass g k buf c x) := by
  cases hf : findCrossing g buf c k.trig.toNat x.pos (g.bufFrames.toNat - x.pos) with
  | none =>
    rw [pwPass_of_no_crossing hphase hf]
    exact .of_quiet rfl (Nat.add_le_add_right hpos.le _)
  | some f =>
    obtain ⟨hlo, -, -⟩ := findCrossing_some hf
    rw [pwPass_of_crossing hphase hf]
    refine .of_quiet rfl ?_
    rw [hphase]
    exact Nat.add_le_add_right hlo 1

/-- The window that ends is paid for by the frame at the cursor, which is still inside the buffer. -/
theorem pwPass_pays_of_peak (buf : List Byte) (c : Nat) {x : Scan} (hpos : x.pos < g.bufFrames.toNat)
    (hphase : x.lane.st.phase = .peak) : PassPays g x (pwPass g k buf c x) := by
  rw [pwPass_of_peak buf hphase]
  split
  · simp only [PassPays, noteOnsLeft, peakDone_eq, peakScan, hphase, Phase.framesToPeak, List.length_append,
      List.length_singleton]
    omega
  · exact .of_quiet rfl (Nat.add_le_add_right (Nat.le_add_right _ _) _)

/-- WAIT never moves the cursor back (42_peak_window.md R135). -/
theorem pwWait_pays {x : Scan} (hpos : x.pos < g.bufFrames.toNat) (hphase : x.lane.st.phase = .wait) :
    PassPays g x (pwWait g x) := by
  unfold pwWait
  dsimp only
  split
  · refine .of_quiet rfl ?_
    rw [hphase]
    exact Nat.add_le_add_right (le_max_left _ _) 1
  · exact .of_quiet rfl (Nat.add_le_add_right hpos.le _)

theorem pwPass_pays (k : ChanCfg) (buf : List Byte) (c : Nat) {x : Scan} (hpos : x.pos < g.bufFrames.toNat) :
    PassPays g x (pwPass g k buf c x) := by
  cases hphase : x.lane.st.phase with
  | idle => exact pwPass_pays_of_idle buf c hpos hphase
  | peak => exact pwPass_pays_of_peak buf c hpos hphase
  | wait =>
    have hpass : pwPass g k buf c x = pwWait g x := by simp only [pwPass, hphase]
    exact hpass ▸ pwWait_pays hpos hphase

theorem pwLoop_length_le (g : GlobalCfg) (k : ChanCfg) (buf : List Byte) (c fuel : Nat) (x : Scan) :
    (pwLoop g k buf c fuel x).lane.msgs.length ≤ x.lane.msgs.length + noteOnsLeft g x := by
  induction fuel generalizing x with
  | zero => exact Nat.le_add_right _ _
  | succ fuel ih =>
    rw [pwLoop]
    split
    · next hpos => exact (ih _).trans (pwPass_pays k buf c hpos)
    · exact Nat.le_add_right _ _

/-- Strategy B sends at most a note-on for each frame, from every record. -/
theorem pwStep_length_le (g : GlobalCfg) (k : ChanCfg) (buf : List Byte) (c : Nat) (l : Lane) :
    (pwStep g k buf c l).msgs.length ≤ l.msgs.length + g.bufFrames.toNat :=
  (pwLoop_length_le g k buf c (pwPasses g) ⟨l, 0⟩).trans (Nat.add_le_add_left (Nat.sub_le _ _) _)

theorem channelStep_of_strategyA (h : g.strategy = 0) (k : ChanCfg) (buf : List Byte) (c : Nat)
    (st : ChanState) : channelStep g k buf c st = envStep g k buf c (tickNoteOff k ⟨st, []⟩) :=
  if_pos h

theorem channelStep_of_strategyB (h : g.strategy = 1) (k : ChanCfg) (buf : List Byte) (c : Nat)
    (st : ChanState) : channelStep g k buf c st = pwStep g k buf c (tickNoteOff k ⟨st, []⟩) :=
  if_neg (by rw [h]; decide)

end Sys2Proof.Machine
end

section
/-! The statements of 44_buffer_step.md. -/

open Sys2Proof Sys2Proof.Machine

/-- Settles O17: the sequencer's turns do what `stepChannels_eq` says of the channels `0 .. NCH-1`, and each
turn's lane is the statement's. -/
theorem bufferStepsEveryChannel : Obligations.BufferStepsEveryChannel := by
  intro p s hmode hnch hlen lane
  have hlane (c : Nat) : channelStep s.glob (s.chanCfg c) p c (s.chanState c) = lane c := rfl
  obtain ⟨hmode', herr, -, -, -, hresp, hport, hslot, -, hactive, hother, hout⟩ := stepChannels_eq p s _ hnch
  simp only [hlane] at hactive hout
  exact ⟨bufferStep p s, exec_buffer_of_running hmode hlen, hactive, hother, hout, hresp,
    hmode'.trans hmode, herr, bufferStep_sameRegs p s, hport, hslot⟩

/-- Settles O54: the tick sends at most one message (`tickNoteOff_length_le`), then strategy A at most two
(`envStep_length_le`) and strategy B at most one for each frame (`pwStep_length_le`). -/
theorem messagesPerBufferAreBounded : Obligations.MessagesPerBufferAreBounded := by
  intro g k buf c st
  have htick : (tickNoteOff k ⟨st, []⟩).msgs.length ≤ 1 := tickNoteOff_length_le k ⟨st, []⟩
  refine ⟨fun hA => ?_, fun hB => ⟨?_, htick⟩⟩
  · rw [channelStep_of_strategyA hA]
    exact (envStep_length_le g k buf c _).trans (Nat.add_le_add_right htick 2)
  · rw [channelStep_of_strategyB hB]
    exact pwStep_length_le g k buf c _

end

section
/-! SUPPORT. 45_host_commands.md R180, item 5: a binary64 pattern that is finite and not below +0.0, read off its
fields (30_encoding.md R73). -/

namespace Sys2Proof

theorem F64.units_eq_zero_iff (e : Fin 2047) (f : BitVec 52) :
    F64.units e f = 0 ↔ e.val = 0 ∧ f.toNat = 0 := by
  unfold F64.units
  split
  · next he => simp [he]
  · next he => simp [he]

theorem F64.signed_neg_iff (neg : Bool) (n : Nat) : F64.signed neg n < 0 ↔ neg = true ∧ n ≠ 0 := by
  cases neg <;> simp [F64.signed, Nat.pos_iff_ne_zero]

/-- A finite datum is below +0.0 where its sign bit is set, but for -0.0 (00_scope.md R10). -/
theorem F64.flt_posZero_iff (neg : Bool) (e : Fin 2047) (f : BitVec 52) :
    flt (.fin neg e f) F64.posZero = true ↔ neg = true ∧ ¬(e.val = 0 ∧ f.toNat = 0) := by
  rw [F64.posZero, F64.flt_fin_iff, (F64.units_eq_zero_iff 0 0).2 ⟨rfl, rfl⟩, ← F64.units_eq_zero_iff]
  exact F64.signed_neg_iff neg _

end Sys2Proof

namespace Sys2Proof.Machine

/-- The check of a binary64 register. The pattern of -0.0, the sign bit alone, is the only one with the sign bit
set that passes. -/
theorem legalFactor_iff (b : BitVec 64) : legalFactor b = true ↔ FiniteNonneg b := by
  unfold legalFactor FiniteNonneg
  by_cases hexp : b.toNat / 2 ^ 52 % 2 ^ 11 = 2047
  · have hinfinite : (F64.ofBits b).isFinite = false := by
      rw [F64.ofBits_of_exp_eq b hexp]
      split <;> rfl
    exact iff_of_false (by simp [hinfinite]) fun ⟨hne, _⟩ => hne hexp
  · have hlt : b.toNat / 2 ^ 52 % 2 ^ 11 < 2047 := by omega
    rw [F64.ofBits_of_exp_lt b hlt, F64.isFinite, Bool.true_and, Bool.not_eq_true', ← Bool.not_eq_true,
      F64.flt_posZero_iff, F64.fracBits_toNat, decide_eq_true_eq]
    have := b.isLt
    dsimp only
    omega

end Sys2Proof.Machine
end

section
/-! SUPPORT. 45_host_commands.md R180: `LegalConfig()`, as one equation per part. -/

namespace Sys2Proof.Machine

/-- Items 3 to 5 for one channel. -/
theorem legalChannel_iff (g : GlobalCfg) (k : ChanCfg) :
    legalChannel g k = true ↔
      (0 < k.trig.toNat ∧ k.trig.toNat < maxMag g.format) ∧
      (k.peakLen.toNat ≤ 2 ^ 31 - 1 ∧ k.waitLen.toNat ≤ 2 ^ 31 - 1 ∧ k.aWaitBufs.toNat ≤ 2 ^ 31 - 1 ∧
        k.noffDelay.toNat ≤ 2 ^ 31 - 1) ∧
      (g.strategy = 0 → FiniteNonneg k.decay ∧ FiniteNonneg k.guardF) := by
  simp only [legalChannel, legalLength, Bool.and_eq_true, Bool.or_eq_true, decide_eq_true_eq, bne_iff_ne,
    legalFactor_iff, and_assoc, imp_iff_not_or, ne_eq]

/-- Items 1 and 2, and the check of every active channel. -/
theorem State.legalConfig_iff (s : State) :
    s.legalConfig = true ↔
      (1 ≤ s.glob.nch.toNat ∧ s.glob.nch.toNat ≤ s.cmax) ∧
      (1 ≤ s.glob.bufFrames.toNat ∧ s.glob.bufFrames.toNat ≤ s.nmax) ∧
      ∀ c < s.glob.nch.toNat, legalChannel s.glob (s.chanCfg c) = true := by
  simp only [State.legalConfig, Bool.and_eq_true, decide_eq_true_eq, List.all_eq_true, List.mem_range,
    and_assoc]

end Sys2Proof.Machine
end

section
/-! SUPPORT. 45_host_commands.md R176 to R184: each command's effect and its faults, one equation per case. In
ERROR `exec_of_error` says what they do, and CFG_WRITE's write, START's run and BUFFER's run are
`exec_cfgWrite_of_selected`, `exec_start_of_legalConfig` and `exec_buffer_of_running`. -/

namespace Sys2Proof.Machine

variable {s : State}

/-- The modes in which a command is heard but the registers are closed (R185). -/
theorem Mode.ne_error_and_ne_config {m : Mode} (h : m = .running ∨ m = .stopped) :
    m ≠ .error ∧ m ≠ .config := by
  rcases h with rfl | rfl
  · exact ⟨nofun, nofun⟩
  · exact ⟨nofun, nofun⟩

theorem exec_reset (s : State) : exec .reset s = .next s.clear := rfl

theorem exec_statusRead (s : State) : exec .statusRead s = .next (s.respond s.status) := rfl

theorem exec_cfgWrite_of_reserved {a : BitVec 12} (d : BitVec 64) (hmode : s.mode = .config)
    (hreg : regOfAddr s.cmax a = none) :
    exec (.cfgWrite a d) s = .next { s with mode := .error, err := 2 } := by
  simp [exec, execCfgWrite, hmode, hreg, State.raise_of_not_error]

theorem exec_start_of_not_config (herror : s.mode ≠ .error) (hconfig : s.mode ≠ .config) :
    exec .start s = .next { s with mode := .error, err := 5 } := by
  rw [exec, execStart, if_neg herror, if_pos hconfig, State.raise_of_not_error _ herror]

theorem exec_start_of_not_legalConfig (hmode : s.mode = .config) (h : s.legalConfig = false) :
    exec .start s = .next { s with mode := .error, err := 4 } := by
  simp [exec, execStart, hmode, h, State.raise_of_not_error]

theorem exec_buffer_of_not_running (p : List Byte) (herror : s.mode ≠ .error) (hrunning : s.mode ≠ .running) :
    exec (.buffer p) s = .next { s with mode := .error, err := 5 } := by
  rw [exec, execBuffer, if_neg herror, if_pos hrunning, State.raise_of_not_error _ herror]

theorem exec_buffer_of_length_ne {p : List Byte} (hmode : s.mode = .running)
    (hlen : p.length ≠ bufferBytes s.glob) :
    exec (.buffer p) s = .next { s with mode := .error, err := 7 } := by
  simp [exec, execBuffer, hmode, hlen, State.raise_of_not_error]

theorem exec_stop_of_not_error (herror : s.mode ≠ .error) : exec .stop s = .next (s.setMode .stopped) := by
  rw [exec, execStop, if_neg herror]

/-- In STOPPED the mode is what STOP sets it to. -/
theorem exec_stop_of_stopped (hmode : s.mode = .stopped) : exec .stop s = .next s := by
  rw [exec_stop_of_not_error (by simp [hmode]), State.setMode, ← hmode]

theorem exec_sourceFail_of_not_error (herror : s.mode ≠ .error) :
    exec .sourceFail s = .next { s with mode := .error, err := 6 } := by
  rw [exec, execSourceFail, if_neg herror, State.raise_of_not_error _ herror]

/-- The fields of the status word are disjoint (10_state.md R21). -/
theorem State.status_toNat (s : State) : s.status.toNat = s.err.toNat * 2 ^ 8 + s.mode.code.toNat := by
  have hfields : s.status.toNat = ((0 * 2 ^ 8 + s.err.toNat) * 2 ^ 6 + 0) * 2 ^ 2 + s.mode.code.toNat := by
    simp only [State.status, toNat_append_eq]
    rfl
  omega

/-- After RESET the status word is 0 (R183). -/
theorem State.clear_status (s : State) : s.clear.status = 0 :=
  BitVec.eq_of_toNat_eq (by rw [State.status_toNat, State.clear_mode, State.clear_err]; rfl)

theorem State.popCommand_of_port_cons {c : Command} {rest : List Command} (h : s.port = c :: rest) :
    s.popCommand = { s with port := rest } := by
  rw [State.popCommand, h, List.tail_cons]

end Sys2Proof.Machine
end

section
/-! SUPPORT. 45_host_commands.md R179: what brings the block into RUNNING. -/

namespace Sys2Proof.Machine

/-- Only START enters RUNNING: any other instruction keeps the mode, or sets another one. -/
theorem exec_enters_running {i : Instr} {s t : State} (h : exec i s = .next t) (hs : s.mode ≠ .running)
    (ht : t.mode = .running) : i = .start ∧ s.mode = .config ∧ s.legalConfig = true := by
  rcases exec_cases h with ⟨-, rfl⟩ | ⟨-, rfl⟩ | ⟨c, n, v, rfl, -⟩ | ⟨-, rfl⟩ | ⟨-, n, -, -, rfl, -⟩ |
    ⟨-, a, d, r, -, -, rfl⟩ | ⟨hconfig, hi, hlegal, -⟩ | ⟨hrunning, -⟩ | ⟨-, -, rfl⟩
  · cases ht
  · exact absurd ht hs
  · exact absurd ht hs
  · exact absurd ht hs
  · cases ht
  · exact absurd ((s.writeReg_mode r d).symm.trans ht) hs
  · exact ⟨hi, hconfig, hlegal⟩
  · exact absurd hrunning hs
  · cases ht

/-- A step that enters RUNNING takes START off the port, in CONFIG, on a legal configuration. -/
theorem step_enters_running {s t : State} (h : step s = .next t) (hs : s.mode ≠ .running)
    (ht : t.mode = .running) :
    s.port.head? = some ⟨0x30000000, []⟩ ∧ s.mode = .config ∧ s.legalConfig = true := by
  rcases step_cases h with ⟨-, -, rfl⟩ | ⟨w, c, n, v, -, rfl⟩ | ⟨c, rest, i, -, hport, hdecode, hexec⟩ |
    ⟨c, rest, e, -, -, -, -, rfl⟩ | ⟨c, rest, e, -, -, -, -, rfl⟩
  · exact absurd ht hs
  · exact absurd ht hs
  · obtain ⟨rfl, hconfig, hlegal⟩ := exec_enters_running hexec hs ht
    have hpop : s.SameRegs s.popCommand := State.sameRegs_of_glob_bank rfl rfl rfl
    obtain rfl := Encoded.command.inj (encode_of_decodeCommand hdecode)
    rw [hport, ← hpop.legalConfig_eq]
    exact ⟨rfl, hconfig, hlegal⟩
  · exact absurd ht hs
  · cases ht

end Sys2Proof.Machine
end

section
/-! SUPPORT. 45_host_commands.md R185: the entries of the mode and command table. -/

namespace Sys2Proof.Machine

/-- An entry of the table: the command completes, in mode `m` and with error code `e`. -/
def EndsIn (o : Host.Outcome State Fault Refusal) (m : Mode) (e : BitVec 8) : Prop :=
  ∃ t, o = .next t ∧ t.mode = m ∧ t.err = e

variable {s : State}

/-- The entry "fault n". -/
theorem endsIn_of_fault {o : Host.Outcome State Fault Refusal} {n : BitVec 8}
    (h : o = .next { s with mode := .error, err := n }) : EndsIn o .error n :=
  ⟨_, h, rfl, rfl⟩

theorem exec_stop_endsIn (herror : s.mode ≠ .error) : EndsIn (exec .stop s) .stopped s.err :=
  ⟨_, exec_stop_of_not_error herror, rfl, rfl⟩

/-- CFG_WRITE in CONFIG turns on the address. -/
theorem exec_cfgWrite_endsIn_of_config (a : BitVec 12) (d : BitVec 64) (hmode : s.mode = .config) :
    EndsIn (exec (.cfgWrite a d) s) .config s.err ∨ EndsIn (exec (.cfgWrite a d) s) .error 2 := by
  rcases hreg : regOfAddr s.cmax a with _ | r
  · exact .inr (endsIn_of_fault (exec_cfgWrite_of_reserved d hmode hreg))
  · exact .inl ⟨_, exec_cfgWrite_of_selected d hmode hreg, (s.writeReg_mode r d).trans hmode,
      s.writeReg_err r d⟩

/-- START in CONFIG turns on the configuration. -/
theorem exec_start_endsIn_of_config (hmode : s.mode = .config) :
    EndsIn (exec .start s) .running s.err ∨ EndsIn (exec .start s) .error 4 := by
  cases hlegal : s.legalConfig with
  | true => exact .inl ⟨_, exec_start_of_legalConfig hmode hlegal, rfl, rfl⟩
  | false => exact .inr (endsIn_of_fault (exec_start_of_not_legalConfig hmode hlegal))

/-- BUFFER in RUNNING turns on the length of the payload. -/
theorem exec_buffer_endsIn_of_running (p : List Byte) (hmode : s.mode = .running) :
    EndsIn (exec (.buffer p) s) .running s.err ∨ EndsIn (exec (.buffer p) s) .error 7 := by
  by_cases hlen : p.length = bufferBytes s.glob
  · obtain ⟨hmode', herr, -⟩ := bufferStep_frame p s
    exact .inl ⟨_, exec_buffer_of_running hmode hlen, hmode'.trans hmode, herr⟩
  · exact .inr (endsIn_of_fault (exec_buffer_of_length_ne hmode hlen))

end Sys2Proof.Machine
end

section
/-! The statements of 45_host_commands.md. -/

open Sys2Proof Sys2Proof.Machine

/-- Settles O13: the two faults come before the write, and the register reads back what was written while every
other keeps its value (`State.readReg_writeReg`). -/
theorem cfgWriteEffect : Obligations.CfgWriteEffect := by
  intro a d s
  refine ⟨?_, fun hmode => ?_, exec_cfgWrite_of_reserved d, fun r hmode hreg => ?_⟩
  · rw [cfgWriteWord_eq]
    exact decodeCommand_cfgWrite a d
  · obtain ⟨herror, hconfig⟩ := Mode.ne_error_and_ne_config hmode
    exact exec_cfgWrite_of_not_config a d herror hconfig
  · have hchan : ∀ c k, r = .chan c k → c < s.cmax := by
      rintro c k rfl
      exact regOfAddr_chan hreg
    obtain ⟨hread, hother⟩ := s.readReg_writeReg r d hchan
    exact ⟨s.writeReg r d, exec_cfgWrite_of_selected d hmode hreg, hread, hother,
      (s.writeReg_mode r d).trans hmode, s.writeReg_err r d, s.writeReg_cmax r d, s.writeReg_nmax r d,
      s.writeReg_chanState r d, ⟨s.writeReg_out r d, s.writeReg_resp r d⟩,
      s.writeReg_port r d, s.writeReg_emitSlot r d⟩

/-- Settles O14: items 1 and 2 are global, and items 3 to 5 are the check of each active channel
(`legalChannel_iff`), whose factor check is that of the pattern's fields (`legalFactor_iff`). -/
theorem legalConfigConditions : Obligations.LegalConfigConditions := by
  intro s
  rw [State.legalConfig_iff]
  refine and_congr_right fun _ => and_congr_right fun _ => ?_
  simp only [legalChannel_iff]
  constructor
  · intro h
    refine ⟨fun c hc => ?_, fun c hc => ?_, fun hA c hc => ?_⟩
    · obtain ⟨htrig, -, -⟩ := h c hc
      exact htrig
    · obtain ⟨-, hlengths, -⟩ := h c hc
      exact hlengths
    · obtain ⟨-, -, hfactors⟩ := h c hc
      exact hfactors hA
  · rintro ⟨htrig, hlengths, hfactors⟩ c hc
    exact ⟨htrig c hc, hlengths c hc, fun hA => hfactors hA c hc⟩

/-- Settles O15: the two faults come before the effect, and no other instruction enters RUNNING
(`step_enters_running`). -/
theorem startEffect : Obligations.StartEffect := by
  refine ⟨decode_encode (i := .start) rfl, fun s => ⟨fun hmode => ?_, exec_start_of_not_legalConfig,
    fun hmode hlegal => ?_, fun t => step_enters_running⟩⟩
  · obtain ⟨herror, hconfig⟩ := Mode.ne_error_and_ne_config hmode
    exact exec_start_of_not_config herror hconfig
  · exact ⟨_, exec_start_of_legalConfig hmode hlegal, rfl, rfl, s.baselineAll_chanState,
      baselineAll_setMode_sameRegs s _, ⟨rfl, rfl⟩, rfl, rfl⟩

/-- Settles O23, row by row: in each mode an entry is an effect or a fault of its command, and in ERROR every
command but RESET and STATUS_READ is ignored (`exec_of_error`). -/
theorem modeCommandTable : Obligations.ModeCommandTable := by
  intro s a d p c after
  refine ⟨⟨_, exec_reset s, rfl, rfl⟩, fun hmode => ?config, fun hmode => ?running, fun hmode => ?stopped,
    fun hmode => ?error, ⟨_, exec_statusRead s, rfl, rfl⟩, fun hillegal hmode => ?illegal,
    fun hillegal hmode => ?ignored⟩
  case config =>
    have herror : s.mode ≠ .error := by simp [hmode]
    exact ⟨exec_cfgWrite_endsIn_of_config a d hmode, exec_start_endsIn_of_config hmode,
      endsIn_of_fault (exec_buffer_of_not_running p herror (by simp [hmode])), exec_stop_endsIn herror,
      endsIn_of_fault (exec_sourceFail_of_not_error herror)⟩
  case running =>
    obtain ⟨herror, hconfig⟩ := Mode.ne_error_and_ne_config (.inl hmode)
    exact ⟨endsIn_of_fault (exec_cfgWrite_of_not_config a d herror hconfig),
      endsIn_of_fault (exec_start_of_not_config herror hconfig), exec_buffer_endsIn_of_running p hmode,
      exec_stop_endsIn herror, endsIn_of_fault (exec_sourceFail_of_not_error herror)⟩
  case stopped =>
    obtain ⟨herror, hconfig⟩ := Mode.ne_error_and_ne_config (.inr hmode)
    exact ⟨endsIn_of_fault (exec_cfgWrite_of_not_config a d herror hconfig),
      endsIn_of_fault (exec_start_of_not_config herror hconfig),
      endsIn_of_fault (exec_buffer_of_not_running p herror (by simp [hmode])), exec_stop_of_stopped hmode,
      endsIn_of_fault (exec_sourceFail_of_not_error herror)⟩
  case error =>
    exact ⟨exec_of_error hmode nofun nofun nofun nofun, exec_of_error hmode nofun nofun nofun nofun,
      exec_of_error hmode nofun nofun nofun nofun, exec_of_error hmode nofun nofun nofun nofun,
      exec_of_error hmode nofun nofun nofun nofun⟩
  case illegal =>
    obtain ⟨e, hdecode⟩ := hillegal
    exact endsIn_of_fault (by rw [executeCommand_of_error s hdecode, if_neg hmode])
  case ignored =>
    obtain ⟨e, hdecode⟩ := hillegal
    rw [executeCommand_of_error s hdecode, if_pos hmode]

/-- Settles O8: the step hands the oldest command to the prologue, which passes it on to its meaning
(`executeCommand_of_ok`). -/
theorem stepRunsDecodedCommand : Obligations.StepRunsDecodedCommand := by
  intro s c rest i hslot hport hdecode
  rw [step_of_port_cons hslot hport, executeCommand_of_ok _ hdecode, State.popCommand_of_port_cons hport]

/-- Settles O11: `State.clear` gives every channel the reset registers and the baseline record. -/
theorem resetRestoresEverything : Obligations.ResetRestoresEverything :=
  ⟨decode_encode (i := .reset) rfl, fun s => ⟨s.clear, exec_reset s, rfl, rfl, rfl, s.clear_chanCfg,
    s.clear_chanState, s.clear_status, s.clear_cmax, rfl, ⟨rfl, rfl⟩, rfl, rfl⟩⟩

/-- Settles O18: STOP is `State.setMode`, which changes nothing where the mode is STOPPED. -/
theorem stopEffect : Obligations.StopEffect :=
  ⟨decode_encode (i := .stop) rfl, fun _ herror => ⟨exec_stop_of_not_error herror, exec_stop_of_stopped⟩⟩

/-- Settles O19: outside ERROR the fault is recorded. -/
theorem sourceFailEffect : Obligations.SourceFailEffect :=
  ⟨decode_encode (i := .sourceFail) rfl, fun _ herror => exec_sourceFail_of_not_error herror⟩

/-- Settles O20: the answer is the status word, whose number is that of its two fields (`State.status_toNat`). -/
theorem statusReadAnswersStatus : Obligations.StatusReadAnswersStatus := by
  refine ⟨decode_encode (i := .statusRead) rfl, rfl, fun s => ⟨exec_statusRead s, ?_⟩⟩
  rw [State.status_toNat]
  cases s.mode <;> rfl

end

section
/-! SUPPORT. 60_exceptions.md R205 and R67: what brings the block into ERROR. -/

namespace Sys2Proof.Machine

/-- An instruction enters ERROR only by a fault, whose code is not the decoder's 1: any other outcome keeps the
mode, or sets another one. -/
theorem exec_enters_error {i : Instr} {s t : State} (h : exec i s = .next t) (hs : s.mode ≠ .error)
    (ht : t.mode = .error) :
    ∃ n : BitVec 8, 2 ≤ n.toNat ∧ n.toNat ≤ 7 ∧ t = { s with mode := .error, err := n } := by
  rcases exec_cases h with ⟨-, rfl⟩ | ⟨-, rfl⟩ | ⟨c, n, v, rfl, -⟩ | ⟨herror, -⟩ |
    ⟨-, n, hlo, hhi, hfault, -⟩ | ⟨-, a, d, r, -, -, rfl⟩ | ⟨-, -, -, rfl⟩ | ⟨-, p, -, -, rfl⟩ | ⟨-, -, rfl⟩
  · cases ht
  · exact absurd ht hs
  · exact absurd ht hs
  · exact absurd herror hs
  · exact ⟨n, hlo, hhi, hfault⟩
  · exact absurd ((s.writeReg_mode r d).symm.trans ht) hs
  · cases ht
  · obtain ⟨hmode, -⟩ := bufferStep_frame p s
    exact absurd (hmode.symm.trans ht) hs
  · cases ht

/-- A step that enters ERROR takes its command and records one fault, by the decoder (code 1) or by the command
itself. -/
theorem step_enters_error {s t : State} (h : step s = .next t) (hs : s.mode ≠ .error)
    (ht : t.mode = .error) :
    ∃ n : BitVec 8, 1 ≤ n.toNat ∧ n.toNat ≤ 7 ∧ t = { s.popCommand with mode := .error, err := n } := by
  rcases step_cases h with ⟨-, -, rfl⟩ | ⟨w, c, n, v, -, rfl⟩ | ⟨c, rest, i, -, -, -, hexec⟩ |
    ⟨c, rest, e, -, -, -, herror, -⟩ | ⟨c, rest, e, -, -, -, -, hfault⟩
  · exact absurd ht hs
  · exact absurd ht hs
  · obtain ⟨n, hlo, hhi, hfault⟩ := exec_enters_error hexec hs ht
    exact ⟨n, by omega, hhi, hfault⟩
  · exact absurd herror hs
  · exact ⟨1, by decide, by decide, hfault⟩

end Sys2Proof.Machine
end

section
/-! SUPPORT. 60_exceptions.md R207 and R208: what a command does in ERROR, what leads out of ERROR and back out of
STOPPED, and what the registers then read. -/

namespace Sys2Proof.Machine

/-- The first check of the prologue (45_host_commands.md R175). -/
theorem executeCommand_of_not_heard {c : Command} {s : State} (hmode : s.mode = .error)
    (hheard : heardInError c.word = false) : executeCommand c s = .next s :=
  if_pos ⟨hmode, hheard⟩

/-- `heardInError` turns on the opcode as a number. -/
theorem heardInError_eq_false_iff_toNat {w : Word} :
    heardInError w = false ↔ w.toNat / 2 ^ 28 ≠ 1 ∧ w.toNat / 2 ^ 28 ≠ 7 := by
  rw [heardInError_eq_false, ← opField_toNat, ne_eq, ne_eq, ← BitVec.toNat_inj, ← BitVec.toNat_inj]
  rfl

/-- In ERROR the prologue drops a command it does not hear and one that does not decode. -/
theorem executeCommand_ignored {c : Command} {s : State} (hmode : s.mode = .error)
    (h : heardInError c.word = false ∨ ∃ e, decodeCommand c = .error e) : executeCommand c s = .next s := by
  rcases h with hheard | ⟨e, hdecode⟩
  · exact executeCommand_of_not_heard hmode hheard
  · rw [executeCommand_of_error s hdecode, if_pos hmode]

/-- The status word in ERROR (10_state.md R21): mode 3 below the first fault's code. -/
theorem State.status_of_error {s : State} (hmode : s.mode = .error) :
    s.status = BitVec.ofNat 32 (s.err.toNat * 2 ^ 8 + 3) := by
  have hnum : s.status.toNat = s.err.toNat * 2 ^ 8 + 3 := by rw [State.status_toNat, hmode]; rfl
  rw [← hnum, BitVec.ofNat_toNat, BitVec.setWidth_eq]

/-- Every register reads 0 after RESET (45_host_commands.md R176). -/
@[simp] theorem State.clear_readReg (s : State) (r : Reg) : s.clear.readReg r = 0 := by
  cases r with
  | glob g => cases g <;> rfl
  | chan c k =>
    rw [State.readReg, State.clear_chanCfg]
    cases k <;> rfl

/-- Only RESET takes the block out of ERROR or STOPPED into a mode other than ERROR. -/
theorem exec_leaves_error_or_stopped {i : Instr} {s t : State} (h : exec i s = .next t)
    (hs : s.mode = .error ∨ s.mode = .stopped) (hne : t.mode ≠ s.mode) (herror : t.mode ≠ .error) :
    i = .reset ∧ t = s.clear := by
  rcases exec_cases h with hreset | ⟨-, rfl⟩ | ⟨c, n, v, rfl, -⟩ | ⟨-, rfl⟩ | ⟨-, n, -, -, rfl, -⟩ |
    ⟨hconfig, -⟩ | ⟨hconfig, -⟩ | ⟨hrunning, -⟩ | ⟨hmode, -, rfl⟩
  · exact hreset
  · exact absurd rfl hne
  · exact absurd rfl hne
  · exact absurd rfl hne
  · exact absurd rfl herror
  · simp [hconfig] at hs
  · simp [hconfig] at hs
  · simp [hrunning] at hs
  · exact absurd (hs.resolve_left hmode).symm hne

/-- A step that takes the block out of ERROR or STOPPED into a mode other than ERROR takes RESET off the port and
clears the state. -/
theorem step_leaves_error_or_stopped {s t : State} (h : step s = .next t)
    (hs : s.mode = .error ∨ s.mode = .stopped) (hne : t.mode ≠ s.mode) (herror : t.mode ≠ .error) :
    s.port.head? = some ⟨0x10000000, []⟩ ∧ t = s.popCommand.clear := by
  rcases step_cases h with ⟨-, -, rfl⟩ | ⟨w, c, n, v, -, rfl⟩ | ⟨c, rest, i, -, hport, hdecode, hexec⟩ |
    ⟨c, rest, e, -, -, -, -, rfl⟩ | ⟨c, rest, e, -, -, -, -, rfl⟩
  · exact absurd rfl hne
  · exact absurd rfl hne
  · obtain ⟨rfl, hclear⟩ := exec_leaves_error_or_stopped hexec hs hne herror
    rw [hport, eq_of_decodeCommand_reset hdecode]
    exact ⟨rfl, hclear⟩
  · exact absurd rfl hne
  · exact absurd rfl herror

end Sys2Proof.Machine
end

section
/-! The statements of 60_exceptions.md. -/

open Sys2Proof Sys2Proof.Machine

/-- Settles O24: the one way into ERROR is a fault, which touches MODE and ERR only (`step_enters_error`). -/
theorem faultsArePrecise : Obligations.FaultsArePrecise := by
  intro s t hs h ht
  obtain ⟨n, hlo, hhi, rfl⟩ := step_enters_error h hs ht
  exact ⟨hlo, hhi, rfl⟩

/-- Settles O25: the prologue drops what it does not hear and what does not decode (`executeCommand_ignored`), and
STATUS_READ answers the status word (`State.status_of_error`). -/
theorem errorModeIsSticky : Obligations.ErrorModeIsSticky := by
  intro s c rest hmode hslot hport
  rw [step_of_port_cons hslot hport, State.popCommand_of_port_cons hport]
  refine ⟨fun h => ?_, fun hdecode => ?_⟩
  · rw [← heardInError_eq_false_iff_toNat] at h
    exact executeCommand_ignored hmode h
  · rw [executeCommand_of_ok _ hdecode, exec_statusRead,
      State.status_of_error (s := { s with port := rest }) hmode]
    rfl

/-- Settles O26: each of the two ways out is a change of mode that does not end in ERROR, so it is RESET
(`step_leaves_error_or_stopped`). -/
theorem onlyResetLeavesErrorAndStopped : Obligations.OnlyResetLeavesErrorAndStopped := by
  intro s t h _ hout
  obtain ⟨hs, hne, herror⟩ :
      (s.mode = .error ∨ s.mode = .stopped) ∧ t.mode ≠ s.mode ∧ t.mode ≠ .error := by
    rcases hout with ⟨hs, ht⟩ | ⟨hs, ht | ht⟩
    · exact ⟨.inl hs, hs ▸ ht, ht⟩
    · simp [hs, ht]
    · simp [hs, ht]
  obtain ⟨hport, rfl⟩ := step_leaves_error_or_stopped h hs hne herror
  exact ⟨hport, rfl, rfl, State.clear_readReg _, State.clear_chanState _⟩

/-- Settles O16: both checks come before any work, so the faulting BUFFER is one recorded code. -/
theorem bufferFaultsHaveNoEffect : Obligations.BufferFaultsHaveNoEffect := by
  refine fun p s => ⟨fun hmode => ?_, exec_buffer_of_length_ne⟩
  rcases hmode with hmode | hmode
  · exact exec_buffer_of_not_running p (by simp [hmode]) (by simp [hmode])
  · exact exec_buffer_of_not_running p (by simp [hmode]) (by simp [hmode])

end

section
/-! SUPPORT. 70_reset_and_hazards.md R225 to R227: the power-on state is the one RESET leaves, so what is said of
`State.clear` holds of it. -/

namespace Sys2Proof.Machine

variable (s : State) (cmax nmax : Nat)

/-- RESET leaves the power-on state of the same parameters, but for the ports. -/
theorem State.clear_eq_resetWith :
    s.clear = { State.resetWith s.cmax s.nmax with
      out := s.out, resp := s.resp, port := s.port, emitSlot := s.emitSlot } := by
  simp only [State.clear, State.resetWith, State.cmax, List.map_const']

@[simp] theorem State.resetWith_cmax : (State.resetWith cmax nmax).cmax = cmax :=
  List.length_replicate

theorem State.clear_resetWith : (State.resetWith cmax nmax).clear = State.resetWith cmax nmax := by
  rw [State.clear_eq_resetWith, State.resetWith_cmax]
  rfl

@[simp] theorem State.resetWith_chanState (c : Nat) :
    (State.resetWith cmax nmax).chanState c = ChanState.baseline := by
  rw [← State.clear_resetWith, State.clear_chanState]

@[simp] theorem State.resetWith_readReg (r : Reg) : (State.resetWith cmax nmax).readReg r = 0 := by
  rw [← State.clear_resetWith, State.clear_readReg]

theorem State.resetWith_status : (State.resetWith cmax nmax).status = 0 := by
  rw [← State.clear_resetWith, State.clear_status]

/-- `NCH = 0` fails the first item of the check (45_host_commands.md R180). -/
theorem State.resetWith_legalConfig : (State.resetWith cmax nmax).legalConfig = false := by
  rw [← Bool.not_eq_true, State.legalConfig_iff]
  rintro ⟨⟨hnch, -⟩, -⟩
  exact Nat.not_succ_le_zero 0 hnch

/-- CONFIG with every record at the baseline, no fault and no run. -/
theorem State.resetWith_inv {cmax nmax : Nat} (h : Config.legalParams cmax nmax) :
    (State.resetWith cmax nmax).Inv := by
  rw [State.Inv, State.resetWith_cmax]
  exact ⟨h, Nat.zero_le 7, ⟨nofun, fun herr => absurd rfl herr⟩,
    fun _ => State.resetWith_chanState cmax nmax, nofun⟩

end Sys2Proof.Machine
end

section
/-! SUPPORT. 70_reset_and_hazards.md R229: what strategy A does in the first buffer of a run, and that without FAST
a peak two buffers ago of 0 makes no fall edge. -/

namespace Sys2Proof.Machine

variable {g : GlobalCfg} {k : ChanCfg} {st : ChanState} {buf : List Byte} {c : Nat}

theorem tickNoteOff_of_noff_zero {l : Lane} (k : ChanCfg) (h : l.st.noff = 0) : tickNoteOff k l = l :=
  if_pos h

/-- Without FAST the peak before must be below the one two buffers ago (41_envelope_decay.md R117), and none is
below 0. -/
theorem not_fallEdge_of_prev2_eq_zero (p : Nat) (hfast : k.flags.getLsbD 0 = false) (hprev2 : st.prev2 = 0) :
    ¬fallEdge k st p = true := by
  rw [fallEdge_iff, hfast, hprev2]
  rintro ⟨-, hflag | hbelow⟩
  · exact Bool.false_ne_true hflag
  · exact Nat.not_lt_zero _ hbelow

/-- The messages of a fall edge are all that the three phases can send. -/
theorem envBranch_msgs_of_not_fallEdge {p : Nat} {l : Lane} (fmt : BitVec 1)
    (h : ¬fallEdge k l.st p = true) : (envBranch fmt k p l).msgs = l.msgs := by
  unfold envBranch
  split
  · rw [envRising_of_not_fallEdge fmt h]
  · split
    · rfl
    · rfl

theorem channelStep_msgs_of_not_fallEdge (hA : g.strategy = 0) (hnoff : st.noff = 0)
    (h : ¬fallEdge k st (bufferPeak g buf c) = true) : (channelStep g k buf c st).msgs = [] := by
  rw [channelStep_of_strategyA hA, tickNoteOff_of_noff_zero k hnoff]
  exact envBranch_msgs_of_not_fallEdge g.format h

/-- The first buffer of a run is an IDLE step (`envIdleStep`): it arms no note-off, and its history shift takes the
baseline's previous peak, 0. -/
theorem channelStep_baseline (hA : g.strategy = 0) (k : ChanCfg) (buf : List Byte) (c : Nat) :
    (channelStep g k buf c ChanState.baseline).msgs = [] ∧
      (channelStep g k buf c ChanState.baseline).st.noff = 0 ∧
      (channelStep g k buf c ChanState.baseline).st.prev2 = 0 := by
  have hidle := envIdleStep g.format k (bufferPeak g buf c) ⟨ChanState.baseline, []⟩ rfl rfl
  rw [channelStep_of_strategyA hA, tickNoteOff_of_noff_zero k rfl, envStep, hidle]
  exact ⟨rfl, rfl, rfl⟩

theorem channelRun_singleton_msgs (g : GlobalCfg) (k : ChanCfg) (c : Nat) (buf : List Byte) (st : ChanState) :
    (channelRun g k c [buf] st).msgs = (channelStep g k buf c st).msgs :=
  List.append_nil _

end Sys2Proof.Machine
end

section
/-! The statements of 70_reset_and_hazards.md. -/

open Sys2Proof Sys2Proof.Machine

/-- Settles O45: the first buffer is an IDLE step (`channelStep_baseline`), and it leaves no note-off pending and a
peak two buffers ago of 0, on which the second has no fall edge (`not_fallEdge_of_prev2_eq_zero`). -/
theorem firstFallEdgeIsNotEarly : Obligations.FirstFallEdgeIsNotEarly := by
  intro g k c b1 b2 hA
  obtain ⟨hfirst, hnoff, hprev2⟩ := channelStep_baseline hA k b1 c
  refine ⟨by rw [channelRun_singleton_msgs, hfirst], fun hfast => ?_⟩
  have hsecond := channelStep_msgs_of_not_fallEdge (buf := b2) (c := c) hA hnoff
    (not_fallEdge_of_prev2_eq_zero _ hfast hprev2)
  rw [channelRun, hfirst, channelRun_singleton_msgs, hsecond]
  rfl

/-- Settles O12: RESET leaves the power-on state (`State.clear_eq_resetWith`), on which START's check fails
(`State.resetWith_legalConfig`). -/
theorem powerOnStateIsResetState : Obligations.PowerOnStateIsResetState := by
  intro cmax nmax
  have hlegal := State.resetWith_legalConfig cmax nmax
  refine ⟨rfl, rfl, State.resetWith_status cmax nmax, State.resetWith_cmax cmax nmax, rfl, rfl,
    State.resetWith_readReg cmax nmax, State.resetWith_chanState cmax nmax, hlegal,
    exec_start_of_not_legalConfig rfl hlegal, ?_⟩
  rintro s rfl rfl
  rw [exec_reset, State.clear_eq_resetWith]

/-- Settles O57: the power-on state has the invariant for every legal pair of parameters (`State.resetWith_inv`), and
those of `State.reset` are legal. -/
theorem resetMeetsInvariant : Obligations.ResetMeetsInvariant := by
  have hparams : Config.legalParams Config.cmaxReset Config.nmaxReset := by
    unfold Config.legalParams
    decide
  exact ⟨fun _ _ => State.resetWith_inv, State.resetWith_inv hparams⟩

end
